-- ==== Sys2Proof/Word.lean ====
section
/-! DEFINITION. The words of the machine (00_scope.md R8): bytes, 32- and 64-bit registers, and blocks.
A block is a byte string of 16 bytes; it is held as the integer `be128` of it, byte 0 most significant,
so that the exclusive-or of blocks is the exclusive-or of bit vectors. -/

namespace Sys2Proof

/-- A byte (00_scope.md R8); bit 7 is the most significant. -/
abbrev Byte := BitVec 8

/-- A 32-bit register of the window (10_state.md R40), or a word of the key schedule (40_aes_core.md R120). -/
abbrev Word32 := BitVec 32

/-- A 64-bit operand register or length counter (10_state.md R25, R43). -/
abbrev Word64 := BitVec 64

/-- A block of 16 bytes, as `be128` (00_scope.md R8): byte 0 is bits 127 to 120. -/
abbrev Block := BitVec 128

end Sys2Proof
end

