-- ==== Sys2Proof/Machine/Context.lean ====
section
/-! DEFINITION. The types of the block's context registers (10_state.md sections 1, 2), of the sequencing
state and of the outcome codes. -/

namespace Sys2Proof.Machine

open Sys2Proof

/-- The sequencing state `PHASE` (10_state.md R35). The reserved values 6 and 7 are never held, so they
have no constructor. -/
inductive Phase where
  /-- `P_RESET`: no key has been loaded. -/
  | reset
  /-- `P_KEYED`: `roundKeys` and `hTable` are valid; no IV set for a message. -/
  | keyed
  /-- `P_AAD`: IV set; no `ENC` or `DEC` accepted yet in this session. -/
  | aad
  /-- `P_ENC`: at least one `ENC` accepted in this session. -/
  | enc
  /-- `P_DEC`: at least one `DEC` accepted in this session. -/
  | dec
  /-- `P_DONE`: `FINISH` or `VERIFY` has run; a fresh `SETIV` is needed. -/
  | done
deriving DecidableEq, Repr, Inhabited

/-- The outcomes a command can report in `STATUS.ERR` (60_exceptions.md R280). Codes 9 to 15 are never
reported, so they have no constructor. -/
inductive ErrCode where
  | ok
  | invalidKeyLength
  | unsupportedIvLength
  | protocolOrderError
  | lengthLimitExceeded
  | authenticationFailure
  | illegalCommand
  | accessError
  | invalidTagLength
deriving DecidableEq, Repr, Inhabited

/-- The number of rounds `Nr` of a key schedule: 10, 12 or 14 (10_state.md R27). -/
inductive Rounds where
  | r10
  | r12
  | r14
deriving DecidableEq, Repr, Inhabited

/-- The register file `roundKeys` (10_state.md R27): `Nr` and the round keys `rk[0]` to `rk[Nr]`. -/
structure RoundKeys where
  nr : Rounds
  rk : List Block
deriving DecidableEq, Repr, Inhabited

/-- The context, the source's `GcmContext` (10_state.md R20): the eight data registers of R21 to R26 and
the two key-derived registers of R27 and R28. `hTable` is held as `H` (41_ghash.md R153). -/
structure Context where
  roundKeys : RoundKeys
  hTable : Block
  y : Block
  ek0 : Block
  eki : Block
  x : Block
  aadLenBits : Word64
  dataLenBits : Word64
  aadResidue : BitVec 4
  dataResidue : BitVec 4
deriving DecidableEq, Repr, Inhabited

end Sys2Proof.Machine
end

