-- ==== Sys2Proof/Config.lean ====
section
/-! DEFINITION. What a platform or an implementation fixes: the open parameters of 00_scope.md R6 as plain
data (a machine's `State.cfg`, which no step changes), and the free values, which have no body. -/

namespace Sys2Proof

/-- What a range is admitted for (00_scope.md R6, `kind`). -/
inductive AccessKind where
  | read
  | write
deriving DecidableEq, Repr, Inhabited

/-- One rule of the platform's predicate `admits(addr, n, kind)` (00_scope.md R6): it admits the ranges
of its kind that begin at `first` or above, end at `bound` or below and are between `minLen` and
`maxLen` bytes long. Every predicate over the ranges of data memory is that of a finite list of such
rules (a single range is a rule), so the open predicate is plain data; log 6. -/
structure AdmitRule where
  kind : AccessKind
  first : Nat
  bound : Nat
  minLen : Nat
  maxLen : Nat
deriving DecidableEq, Repr, Inhabited

/-- The parameters of the block that are `OPEN` (00_scope.md R6). The two ceilings are below 2^64 by
their type. `bulkTakes` tabulates `bulkTake`: a count it does not list is taken whole; log 9. -/
structure Config where
  regBase : Nat
  admitRules : List AdmitRule
  aadMaxBits : Word64
  dataMaxBits : Word64
  bulkMinBlocks : Nat
  bulkTakes : List (Nat × Nat)
deriving DecidableEq, Repr, Inhabited

/-- The parameters `State.reset` carries: `admits` always true, the two ceilings at the source's literals
(00_scope.md R7), the window at 2^64 so that it is no part of the data memory, every bulk request
consumed whole. DESIGN CHOICE (unsafe for a claim that rests on one of them), logs 6, 7, 8, 9. -/
def Config.atReset : Config where
  regBase := 2 ^ 64
  admitRules := [⟨.read, 0, 2 ^ 64, 0, 2 ^ 64⟩, ⟨.write, 0, 2 ^ 64, 0, 2 ^ 64⟩]
  aadMaxBits := BitVec.ofNat 64 (2 ^ 61)
  dataMaxBits := BitVec.ofNat 64 (2 ^ 39 - 256)
  bulkMinBlocks := 1
  bulkTakes := []

/-- FREE VALUE: the context registers after the `k`-th reset event, which the spec leaves unspecified
(10_state.md R55, 70_reset_and_hazards.md R320, R322). No body: nothing is known of it. Log 3. -/
opaque Config.contextAfterReset (k : Nat) : Machine.Context

/-- FREE VALUE: the bytes `y'[0..11]` that a bulk request returns (42_ctr_bulk.md R179, U17: any value),
drawn with its direction, all of its operands and the number of blocks it takes. No body: nothing is
known of it. DESIGN CHOICE: the spec's value is any value per request, the model's is one value for
requests alike in all of these; log 10. -/
opaque Config.bulkFixedField (encrypting : Bool) (s : List Byte) (k : Machine.RoundKeys) (hTable y x : Block)
    (taken : Nat) : BitVec 96

/-- FREE VALUE: the round key `rk[r]` of a register file that has no entry `r`. The spec's register file
always has its `Nr + 1` entries (10_state.md R27), so only an operand, or a register after a reset event,
that the model's type allows and the spec does not can lack one. No body: nothing is known of it. Log 26. -/
opaque Config.missingRoundKey (k : Machine.RoundKeys) (r : Nat) : Block

end Sys2Proof
end

