-- ==== Sys2Proof/Syntax.lean ====
section
/-! DEFINITION. The instructions: one constructor per row of spec/opcode_table.json. No instruction carries
an operand in its code (30_encoding.md R91, R95): a command's operands are `SRC`, `DST`, `LEN` (R92),
a request's operands stand at the request port. -/

namespace Sys2Proof

/-- The fifteen instructions (00_scope.md R2). -/
inductive Instr where
  /-- `INIT` (44_setup.md R210). -/
  | init
  /-- `SETIV` (44_setup.md R212). -/
  | setiv
  /-- `AAD` (45_aad.md R220). -/
  | aad
  /-- `ENC` (46_data.md R230). -/
  | enc
  /-- `DEC` (46_data.md R241). -/
  | dec
  /-- `FINISH` (47_finish.md R262). -/
  | finish
  /-- `VERIFY` (47_finish.md R264). -/
  | verify
  /-- `AES.EXPAND` (40_aes_core.md R125). -/
  | aesExpand
  /-- `AES.ENCRYPT` (40_aes_core.md R130). -/
  | aesEncrypt
  /-- `GHASH.BUILD` (41_ghash.md R153). -/
  | ghashBuild
  /-- `GHASH.MUL` (41_ghash.md R154). -/
  | ghashMul
  /-- `GHASH.MULRANGE` (41_ghash.md R158). -/
  | ghashMulrange
  /-- `CTR.BLOCKS` (42_ctr_bulk.md R173). -/
  | ctrBlocks
  /-- `BULK.ENC` (42_ctr_bulk.md R176). -/
  | bulkEnc
  /-- `BULK.DEC` (42_ctr_bulk.md R177). -/
  | bulkDec
deriving DecidableEq, Repr, Inhabited

/-- The code of an instruction in its format (30_encoding.md R90): format C is the 32-bit word written
to `CMD`, format P the 8-bit request code at the units' port. The format is told by where the code is
presented, not by a bit of it. -/
inductive Code where
  | command (w : Word32)
  | request (c : Byte)
deriving DecidableEq, Repr, Inhabited

end Sys2Proof
end

