-- ==== Sys2Proof/WellFormed.lean ====
section
/-! DEFINITION. The checks of well-formedness. An instruction has no operand field, so every instruction is
well formed; the checks with content are those of a platform's parameters and of a key schedule's shape. -/

namespace Sys2Proof

/-- Every instruction is well formed: formats C and P carry no operand (30_encoding.md R91, R95). -/
def Instr.wf : Instr → Bool
  | .init | .setiv | .aad | .enc | .dec | .finish | .verify => true
  | .aesExpand | .aesEncrypt | .ghashBuild | .ghashMul | .ghashMulrange => true
  | .ctrBlocks | .bulkEnc | .bulkDec => true

/-- The constraints on the open parameters (92_eei_decisions.md, "Open parameters in one place"): the
window is aligned, the threshold is at least 1, a request takes no more than it is asked. (The
ceilings are below 2^64 by their type.) -/
def Config.wf (c : Config) : Bool :=
  c.regBase % 4 == 0 && decide (1 ≤ c.bulkMinBlocks) && c.bulkTakes.all fun p => decide (p.2 ≤ p.1)

/-- The number of rounds as a number (10_state.md R27). -/
def Machine.Rounds.toNat : Machine.Rounds → Nat
  | .r10 => 10
  | .r12 => 12
  | .r14 => 14

/-- The shape of `roundKeys` (10_state.md R27): the sequence has `Nr + 1` round keys. -/
def Machine.RoundKeys.wf (k : Machine.RoundKeys) : Bool := k.rk.length == k.nr.toNat + 1

end Sys2Proof
end

