-- ==== Sys2Proof/Decode.lean ====
section
/-! DEFINITION. The decoder and the encoder, from the opcode maps of 30_encoding.md R93 and R95. -/

namespace Sys2Proof

/-- Why a code names no instruction. -/
inductive DecodeError where
  /-- A format C word whose bits 31:4 are not all 0 (30_encoding.md R94). -/
  | reservedBits
  /-- A format C word with `OP` 0x0 or 0x8 to 0xF (30_encoding.md R94). -/
  | noSuchCommand
  /-- A format P code other than the eight (30_encoding.md R94, U21). -/
  | noSuchRequest
deriving DecidableEq, Repr

/-- The field `OP`, bits 3:0 of a format C word (30_encoding.md R91). -/
def opField (w : Word32) : BitVec 4 := w.extractLsb' 0 4

/-- The field `RSVD`, bits 31:4 of a format C word (30_encoding.md R91). -/
def rsvdField (w : Word32) : BitVec 28 := w.extractLsb' 4 28

/-- The field `UNIT`, bits 7:4 of a format P code (30_encoding.md R95). -/
def unitField (c : Byte) : BitVec 4 := c.extractLsb' 4 4

/-- The field `FUNC`, bits 3:0 of a format P code (30_encoding.md R95). -/
def funcField (c : Byte) : BitVec 4 := c.extractLsb' 0 4

/-- The command a format C opcode selects (30_encoding.md R93). -/
def commandOf (op : BitVec 4) : Except DecodeError Instr :=
  match op.toNat with
  | 1 => .ok .init
  | 2 => .ok .setiv
  | 3 => .ok .aad
  | 4 => .ok .enc
  | 5 => .ok .dec
  | 6 => .ok .finish
  | 7 => .ok .verify
  | _ => .error .noSuchCommand

/-- The request a unit and a function select (30_encoding.md R95). -/
def requestOf (unit func : BitVec 4) : Except DecodeError Instr :=
  match unit.toNat, func.toNat with
  | 1, 0 => .ok .aesExpand
  | 1, 1 => .ok .aesEncrypt
  | 2, 0 => .ok .ghashBuild
  | 2, 1 => .ok .ghashMul
  | 2, 2 => .ok .ghashMulrange
  | 3, 0 => .ok .ctrBlocks
  | 3, 1 => .ok .bulkEnc
  | 3, 2 => .ok .bulkDec
  | _, _ => .error .noSuchRequest

/-- Decode a code (30_encoding.md R93 to R96): it depends on the code alone, on no state. -/
def decode : Code → Except DecodeError Instr
  | .command w => if rsvdField w = 0 then commandOf (opField w) else .error .reservedBits
  | .request c => requestOf (unitField c) (funcField c)

/-- A format C word with opcode `op`: the reserved bits are 0 (30_encoding.md R91). -/
def commandWord (op : BitVec 4) : Code := .command ((0 : BitVec 28) ++ op)

/-- A format P code (30_encoding.md R95). -/
def requestCode (unit func : BitVec 4) : Code := .request (unit ++ func)

/-- The code of an instruction (30_encoding.md R93, R95). -/
def encode : Instr → Code
  | .init => commandWord 0x1
  | .setiv => commandWord 0x2
  | .aad => commandWord 0x3
  | .enc => commandWord 0x4
  | .dec => commandWord 0x5
  | .finish => commandWord 0x6
  | .verify => commandWord 0x7
  | .aesExpand => requestCode 0x1 0x0
  | .aesEncrypt => requestCode 0x1 0x1
  | .ghashBuild => requestCode 0x2 0x0
  | .ghashMul => requestCode 0x2 0x1
  | .ghashMulrange => requestCode 0x2 0x2
  | .ctrBlocks => requestCode 0x3 0x0
  | .bulkEnc => requestCode 0x3 0x1
  | .bulkDec => requestCode 0x3 0x2

/-- The code of a row of spec/opcode_table.json whose bits are `w`: a row of 32 bits is a format C word,
a row of 8 bits a format P code (30_encoding.md R90: there are no other lengths). -/
def codeOfTable (nbits w : Nat) : Option Code :=
  if nbits = 32 then some (.command (BitVec.ofNat 32 w))
  else if nbits = 8 then some (.request (BitVec.ofNat 8 w))
  else none

/-- The instruction the decoder reads from a row's bits. -/
def decodeTableWord (nbits w : Nat) : Option Instr :=
  match codeOfTable nbits w with
  | some c => (decode c).toOption
  | none => none

end Sys2Proof
end

