-- ==== Sys2Proof/Machine/State.lean ====
section
/-! DEFINITION. The state of the block and of what the host still asks of it, as plain data; the reasons a
step can stop; the machine after reset. -/

namespace Sys2Proof.Machine

open Sys2Proof

/-- The data memory (20_memory.md R60): the bytes that differ from `unlistedByte`, by address, addresses
strictly rising. -/
abbrev Memory := List Host.Cell

/-- What an address that no entry lists reads as. DESIGN CHOICE (unsafe): the spec gives no contents of
the data memory at power-on; log 5. -/
def unlistedByte : Byte := 0

/-- The canonical form of a memory: addresses strictly rising, inside the 2^64 addresses, and no entry
equal to what an unlisted address reads as. -/
abbrev Memory.wf (m : Memory) : Prop :=
  m.Pairwise (fun p q => p.1 < q.1) ∧ ∀ p ∈ m, p.1 < 2 ^ 64 ∧ p.2 ≠ unlistedByte

/-- The width of a host access to the register window (10_state.md R47). -/
inductive AccessWidth where
  | byte
  | half
  | word
  | double
deriving DecidableEq, Repr, Inhabited

/-- The operands of a primitive request (30_encoding.md R95; the columns of the opcode table), each under
the name its own rule gives it. -/
structure RequestOps where
  key : List Byte
  roundKeys : RoundKeys
  b : Block
  h : Block
  hTable : Block
  x : Block
  y : Block
  s : List Byte
deriving DecidableEq, Repr, Inhabited

/-- The results of the primitive requests (40_aes_core.md, 41_ghash.md, 42_ctr_bulk.md). -/
structure RequestResults where
  roundKeys : RoundKeys
  block : Block
  hTable : Block
  x : Block
  y : Block
  out : List Byte
  consumed : Nat
deriving DecidableEq, Repr, Inhabited

/-- The units' request port (30_encoding.md R95), the MODEL's own field: the operands of the request last
presented and the results of the requests so far; log 12. -/
structure RequestPort where
  ops : RequestOps
  res : RequestResults
deriving DecidableEq, Repr, Inhabited

/-- One event the block sees: what the host does next (00_scope.md R15, 43_sequencing.md R199), the
platform's reset (70_reset_and_hazards.md R320), or a request at the units' own port (log 12). -/
inductive HostEvent where
  /-- The host writes `value` at an address of its map with an access of some width. -/
  | windowWrite (addr : Nat) (width : AccessWidth) (value : Word32)
  /-- The host reads at an address of its map with an access of some width. -/
  | windowRead (addr : Nat) (width : AccessWidth)
  /-- The host writes a byte of the data memory (20_memory.md R60, R70), at any of its addresses; log 28. -/
  | store (addr : Word64) (value : Byte)
  /-- The host reads a byte of the data memory (20_memory.md R60, R70), at any of its addresses; log 28. -/
  | load (addr : Word64)
  /-- A format P request with its operands is presented to the units (30_encoding.md R95). -/
  | request (code : Byte) (ops : RequestOps)
  /-- The reset event, between commands (70_reset_and_hazards.md R320, R321). -/
  | reset
deriving DecidableEq, Repr, Inhabited

/-- The machine: the block's state (10_state.md), the data memory (20_memory.md), the platform's
parameters (00_scope.md R6), and the model's own fields `pending`, `hostData`, `port`, `resets`. -/
structure State where
  /-- `PHASE` (10_state.md R35). -/
  phase : Phase
  /-- `STATUS.ERR` (10_state.md R42). -/
  err : ErrCode
  /-- `STATUS.MATCH` (10_state.md R42). -/
  matched : Bool
  /-- `SRC` (10_state.md R43). -/
  src : Word64
  /-- `DST` (10_state.md R44). -/
  dst : Word64
  /-- `LEN` (10_state.md R45). -/
  len : Word64
  /-- The context registers (10_state.md R20). -/
  ctx : Context
  /-- The data memory (20_memory.md R60). -/
  mem : Memory
  /-- The platform's parameters (00_scope.md R6). -/
  cfg : Config
  /-- MODEL's own: the events still to come, oldest first; log 1. -/
  pending : List HostEvent
  /-- MODEL's own: the value the last host read returned; log 14. -/
  hostData : Word32
  /-- MODEL's own: the units' request port; log 12. -/
  port : RequestPort
  /-- MODEL's own: how many reset events came, which draws the free values of log 3. -/
  resets : Nat
deriving DecidableEq, Repr

/-- Why a step stops with a fault. The spec stops the machine nowhere: every error is reported in
`STATUS.ERR` and the machine goes on (60_exceptions.md R283), and no command reads a register that
holds nothing (10_state.md R55). So there is no constructor, and no step faults. -/
inductive Fault where
deriving DecidableEq, Repr

/-- Why a step is refused. -/
inductive Refusal where
  /-- An instruction without a meaning; raised by exec's refused arms (there is none left). Safe. -/
  | notModelled (mnemonic : String)
  /-- A host access that is not an aligned 32-bit access at one of the eight offsets: not an access to
  this block (10_state.md R47, U7). Raised by the window. Safe: the model stops. -/
  | notAWindowAccess
  /-- A format P code other than the eight: no behaviour is defined (30_encoding.md R94, U21). Raised by
  the request port. Safe: the model stops. -/
  | undefinedRequest
  /-- Operands outside the domain of a request, which the controller never gives (60_exceptions.md R281,
  42_ctr_bulk.md R178, U3). Raised by `AES.EXPAND`, `GHASH.MULRANGE`, `CTR.BLOCKS`, `BULK.ENC`,
  `BULK.DEC`. Safe: the model stops. -/
  | requestOutsideDomain
  /-- A command whose ranges are admitted and one of which covers the block's own window: the platform's
  duty not to admit, refused if admitted (20_memory.md R68, U23). Raised by the seven commands. Safe:
  the model stops. -/
  | ownWindowRange
deriving DecidableEq, Repr

/-- The context registers right after power-on. DESIGN CHOICE (unsafe): the spec leaves each of them
unspecified (10_state.md R55) and the model names zero; log 2. -/
def Context.atReset : Context where
  roundKeys := ⟨.r10, List.replicate 11 0⟩
  hTable := 0
  y := 0
  ek0 := 0
  eki := 0
  x := 0
  aadLenBits := 0
  dataLenBits := 0
  aadResidue := 0
  dataResidue := 0

/-- The request port right after power-on: zero operands of a shape every request admits, zero results.
MODEL's own, DESIGN CHOICE; log 12. -/
def RequestPort.atReset : RequestPort where
  ops :=
    { key := List.replicate 16 0, roundKeys := ⟨.r10, List.replicate 11 0⟩, b := 0, h := 0, hTable := 0,
      x := 0, y := 0, s := List.replicate 16 0 }
  res :=
    { roundKeys := ⟨.r10, List.replicate 11 0⟩, block := 0, hTable := 0, x := 0, y := 0, out := [],
      consumed := 0 }

/-- The machine right after reset (10_state.md R55): `PHASE`, `STATUS`, `SRC`, `DST`, `LEN` as the table
gives them, the unspecified registers as log 2 names them, no byte of memory listed, no event
pending. -/
def State.reset : State where
  phase := .reset
  err := .ok
  matched := false
  src := 0
  dst := 0
  len := 0
  ctx := Context.atReset
  mem := []
  cfg := Config.atReset
  pending := []
  hostData := 0
  port := RequestPort.atReset
  resets := 0

end Sys2Proof.Machine
end

