-- ==== Sys2Proof/Machine/Flags.lean ====
section
/-! DEFINITION. `STATUS`: the codes of its fields, the register as the host reads it, and the two ways a
command leaves it (10_state.md R42, R48; 60_exceptions.md R280). There are no other flags. -/

namespace Sys2Proof.Machine

open Sys2Proof

/-- The code of an outcome in `STATUS.ERR` (60_exceptions.md R280). -/
def ErrCode.code : ErrCode → BitVec 4
  | .ok => 0
  | .invalidKeyLength => 1
  | .unsupportedIvLength => 2
  | .protocolOrderError => 3
  | .lengthLimitExceeded => 4
  | .authenticationFailure => 5
  | .illegalCommand => 6
  | .accessError => 7
  | .invalidTagLength => 8

/-- The value of `PHASE` (10_state.md R35). -/
def Phase.code : Phase → BitVec 3
  | .reset => 0
  | .keyed => 1
  | .aad => 2
  | .enc => 3
  | .dec => 4
  | .done => 5

/-- `MATCH` as a bit (10_state.md R42). -/
def matchBit (m : Bool) : BitVec 1 := if m then 1 else 0

/-- `STATUS` as the host reads it: `ERR` in bits 3:0, `MATCH` in bit 4, `PHASE` in bits 10:8, the
reserved bits 0 (10_state.md R42). -/
def statusWord (s : State) : Word32 :=
  (0 : BitVec 21) ++ s.phase.code ++ (0 : BitVec 3) ++ matchBit s.matched ++ s.err.code

/-- `STATUS.ERR` and `STATUS.MATCH` as a command leaves them (10_state.md R42, R48); `PHASE`, the third
field, is written by `State.withPhase`. -/
def State.withStatus (e : ErrCode) (m : Bool) (s : State) : State := { s with err := e, matched := m }

/-- `PHASE <- p` (00_scope.md R9). -/
def State.withPhase (p : Phase) (s : State) : State := { s with phase := p }

end Sys2Proof.Machine
end

