-- ==== Sys2Proof/Machine/Ops.lean ====
section
/-! DEFINITION. The named operations every meaning is written with: byte strings and blocks (00_scope.md
R8), the data memory (R10, 20_memory.md), the writes of the state's fields, and reporting an error,
which is this hardware's taking of an exception (60_exceptions.md R283). -/

namespace Sys2Proof.Machine

open Sys2Proof

/-! ## Byte strings and blocks -/

/-- `be32`, `be64`, `be128` of a byte string: the big-endian unsigned integer, byte 0 most significant
(00_scope.md R8). -/
def beNat (s : List Byte) : Nat := s.foldl (fun n b => 256 * n + b.toNat) 0

/-- The block that a string of 16 bytes is. -/
def blockOfBytes (s : List Byte) : Block := BitVec.ofNat 128 (beNat s)

/-- The 96-bit fixed field that a string of 12 bytes is (10_state.md R21). -/
def fixedOfBytes (s : List Byte) : BitVec 96 := BitVec.ofNat 96 (beNat s)

/-- The word that a string of 4 bytes is (40_aes_core.md R120). -/
def wordOfBytes (s : List Byte) : Word32 := BitVec.ofNat 32 (beNat s)

/-- `b[i]`, byte `i` of a block, byte 0 first (00_scope.md R8). -/
def byteAt (b : Block) (i : Nat) : Byte := b.extractLsb' (8 * (15 - i)) 8

/-- The 16 bytes of a block, byte 0 first. -/
def bytesOfBlock (b : Block) : List Byte := (List.range 16).map (byteAt b)

/-- The block whose byte `i` is `f i`. -/
def blockOfFn (f : Nat → Byte) : Block := blockOfBytes ((List.range 16).map f)

/-- Byte `i` of a word of four bytes (40_aes_core.md R120). -/
def wordByte (w : Word32) (i : Nat) : Byte := w.extractLsb' (8 * (3 - i)) 8

/-- `X[i] <- X[i] ^ c` (00_scope.md R9): one byte is rewritten. -/
def xorByte (x : Block) (i : Nat) (c : Byte) : Block := x ^^^ (c.setWidth 128 <<< (8 * (15 - i)))

/-- The bytes of a string exclusive-ored into a block from byte `i` on. -/
def xorBytes (x : Block) (i : Nat) : List Byte → Block
  | [] => x
  | c :: cs => xorBytes (xorByte x i c) (i + 1) cs

/-- Bytewise exclusive-or of two byte strings (00_scope.md R8), as long as the shorter. -/
def xorStrings (a b : List Byte) : List Byte := List.zipWith (fun p q => p ^^^ q) a b

/-- `Y.fixed`, the 96-bit fixed nonce field (10_state.md R21). -/
def fixedField (y : Block) : BitVec 96 := y.extractLsb' 32 96

/-- `Y.ctr`, the 32-bit big-endian block counter (10_state.md R21, 42_ctr_bulk.md R170). -/
def ctrField (y : Block) : Word32 := y.extractLsb' 0 32

/-- The counter block of a fixed field and a counter value (10_state.md R21). -/
def counterBlock (fixed : BitVec 96) (ctr : Word32) : Block := fixed ++ ctr

/-! ## The data memory -/

/-- The byte an address holds. -/
def Memory.read : Memory → Nat → Byte
  | [], _ => unlistedByte
  | c :: m, a => if c.1 = a then c.2 else Memory.read m a

/-- The memory's entries with `(a, b)` in front, unless `b` is what an unlisted address reads as. -/
def Memory.cons (a : Nat) (b : Byte) (m : Memory) : Memory := if b = unlistedByte then m else (a, b) :: m

/-- One byte written; the canonical form is kept. -/
def Memory.write : Memory → Nat → Byte → Memory
  | [], a, b => Memory.cons a b []
  | c :: m, a, b =>
    if c.1 < a then c :: Memory.write m a b
    else if c.1 = a then Memory.cons a b m
    else Memory.cons a b (c :: m)

/-- `MemRead(addr, n)` (00_scope.md R10). -/
def Memory.readBytes (m : Memory) (a : Nat) : Nat → List Byte
  | 0 => []
  | n + 1 => Memory.read m a :: Memory.readBytes m (a + 1) n

/-- `MemWrite(addr, n, v)` with `n = len(v)` (00_scope.md R10). -/
def Memory.writeBytes (m : Memory) (a : Nat) : List Byte → Memory
  | [] => m
  | b :: bs => Memory.writeBytes (Memory.write m a b) (a + 1) bs

/-! ## The state's fields -/

/-- The context registers replaced. -/
def State.withCtx (c : Context) (s : State) : State := { s with ctx := c }

/-- The data memory replaced. -/
def State.withMem (m : Memory) (s : State) : State := { s with mem := m }

/-- The events still to come replaced. -/
def State.withPending (es : List HostEvent) (s : State) : State := { s with pending := es }

/-- The value the last host read returned (log 14). -/
def State.withHostData (v : Word32) (s : State) : State := { s with hostData := v }

/-- `SRC`, `DST`, `LEN` replaced. -/
def State.withSrc (v : Word64) (s : State) : State := { s with src := v }
@[inherit_doc State.withSrc]
def State.withDst (v : Word64) (s : State) : State := { s with dst := v }
@[inherit_doc State.withSrc]
def State.withLen (v : Word64) (s : State) : State := { s with len := v }

/-- The operands of a request, latched at the request port (log 12). -/
def State.withOps (o : RequestOps) (s : State) : State := { s with port := { s.port with ops := o } }

/-- The results at the request port replaced (log 12). -/
def State.withResults (r : RequestResults) (s : State) : State :=
  { s with port := { s.port with res := r } }

/-! ## Ending a command -/

/-- `raise <Error>`, this hardware's taking of an exception: the outcome code is reported, `MATCH` is
cleared, and nothing else changes; nothing is saved and control goes nowhere (60_exceptions.md R283,
43_sequencing.md R191, 00_scope.md R11). There is no return from it: the next command is simply the
next event (60_exceptions.md R286). -/
def State.raise (e : ErrCode) (s : State) : State := s.withStatus e false

/-- `return OK` with `PHASE <- p`: the end of a command that passed its checks (43_sequencing.md R193). -/
def State.succeed (p : Phase) (s : State) : State := (s.withPhase p).withStatus .ok false

/-- The reset event (70_reset_and_hazards.md R320): `PHASE`, `STATUS`, `SRC`, `DST`, `LEN` as 10_state.md
R55 gives them; the context registers unspecified, a free value drawn anew at each event (log 3);
the data memory, the platform's parameters and what belongs to the host untouched. -/
def State.applyReset (s : State) : State :=
  { s with
    phase := .reset, err := .ok, matched := false, src := 0, dst := 0, len := 0,
    ctx := Config.contextAfterReset s.resets, resets := s.resets + 1 }

end Sys2Proof.Machine
end

