-- ==== Sys2Proof/Machine/Operands.lean ====
section
/-! DEFINITION. Operands: the register window and the halves of `SRC`, `DST`, `LEN` (10_state.md section 5,
30_encoding.md R92), and the data-memory ranges of a command with their admission (20_memory.md R63
to R65). -/

namespace Sys2Proof.Machine

open Sys2Proof

/-! ## The register window -/

/-- The eight registers of the window (10_state.md R40). -/
inductive WindowReg where
  | cmd
  | status
  | srcLo
  | srcHi
  | dstLo
  | dstHi
  | lenLo
  | lenHi
deriving DecidableEq, Repr

/-- The register at a byte offset from `REG_BASE` (10_state.md R40). -/
def windowRegAt (off : Nat) : Option WindowReg :=
  match off with
  | 0x00 => some .cmd
  | 0x04 => some .status
  | 0x08 => some .srcLo
  | 0x0C => some .srcHi
  | 0x10 => some .dstLo
  | 0x14 => some .dstHi
  | 0x18 => some .lenLo
  | 0x1C => some .lenHi
  | _ => none

/-- The register a host access names: a 32-bit access at one of the eight offsets, and nothing else
(10_state.md R47). The offsets are multiples of 4 and so is `REG_BASE` (`Config.wf`), so an access
that is not naturally aligned is at none of them. -/
def windowTarget (cfg : Config) (addr : Nat) (width : AccessWidth) : Option WindowReg :=
  if width = .word ∧ cfg.regBase ≤ addr then windowRegAt (addr - cfg.regBase) else none

/-- Bits 31:0 of a 64-bit register (10_state.md R40). -/
def lowHalf (v : Word64) : Word32 := v.extractLsb' 0 32

/-- Bits 63:32 of a 64-bit register (10_state.md R40). -/
def highHalf (v : Word64) : Word32 := v.extractLsb' 32 32

/-- A 64-bit register of its halves (30_encoding.md R92). -/
def ofHalves (hi lo : Word32) : Word64 := hi ++ lo

/-- What a host read of a window register returns (10_state.md R40 to R45): `CMD` reads as 0. -/
def readReg (r : WindowReg) (s : State) : Word32 :=
  match r with
  | .cmd => 0
  | .status => statusWord s
  | .srcLo => lowHalf s.src
  | .srcHi => highHalf s.src
  | .dstLo => lowHalf s.dst
  | .dstHi => highHalf s.dst
  | .lenLo => lowHalf s.len
  | .lenHi => highHalf s.len

/-- What a host write of a window register other than `CMD` does: a half of `SRC`, `DST` or `LEN` takes
the value, the other half stays (10_state.md R46); a write of `STATUS` is ignored (R42). A write of
`CMD` is a command, which `submitCommand` runs; here it stores nothing (R41). -/
def writeReg (r : WindowReg) (v : Word32) (s : State) : State :=
  match r with
  | .cmd => s
  | .status => s
  | .srcLo => s.withSrc (ofHalves (highHalf s.src) v)
  | .srcHi => s.withSrc (ofHalves v (lowHalf s.src))
  | .dstLo => s.withDst (ofHalves (highHalf s.dst) v)
  | .dstHi => s.withDst (ofHalves v (lowHalf s.dst))
  | .lenLo => s.withLen (ofHalves (highHalf s.len) v)
  | .lenHi => s.withLen (ofHalves v (lowHalf s.len))

/-! ## Ranges of the data memory -/

/-- A range `[addr, addr + len)` of the data memory and what it is used for (20_memory.md R63). -/
structure Range where
  addr : Nat
  len : Nat
  kind : AccessKind
deriving DecidableEq, Repr

/-- A rule of the platform admits a range (00_scope.md R6). -/
def ruleAdmits (r : AdmitRule) (g : Range) : Bool :=
  decide (r.kind = g.kind) && decide (r.first ≤ g.addr) && decide (g.addr + g.len ≤ r.bound) &&
    decide (r.minLen ≤ g.len) && decide (g.len ≤ r.maxLen)

/-- The platform predicate `admits(addr, n, kind)` (00_scope.md R6). -/
def platformAdmits (cfg : Config) (g : Range) : Bool := cfg.admitRules.any fun r => ruleAdmits r g

/-- A range is admitted (20_memory.md R64): it is empty, and then its address is not examined, or it does
not wrap past the top of the address space and the platform admits it. -/
def rangeAdmitted (cfg : Config) (g : Range) : Bool :=
  decide (g.len = 0) || (decide (g.addr + g.len ≤ 2 ^ 64) && platformAdmits cfg g)

/-- A non-empty range covers a byte of the block's own register window (20_memory.md R68). -/
def coversWindow (cfg : Config) (g : Range) : Bool :=
  decide (g.len ≠ 0) && decide (g.addr < cfg.regBase + 32) && decide (cfg.regBase < g.addr + g.len)

/-- The input range of a command that reads `n` bytes at `SRC` (20_memory.md R63). -/
def inputRange (s : State) (n : Nat) : Range := ⟨s.src.toNat, n, .read⟩

/-- The output range of a command that writes `n` bytes at `DST` (20_memory.md R63). -/
def outputRange (s : State) (n : Nat) : Range := ⟨s.dst.toNat, n, .write⟩

/-- The ranges of an `ENC` or `DEC` overlap without being identical (20_memory.md R65). -/
def partialOverlap (s : State) : Bool :=
  decide (s.len.toNat ≠ 0) && decide (s.src ≠ s.dst) &&
    decide (s.src.toNat < s.dst.toNat + s.len.toNat) && decide (s.dst.toNat < s.src.toNat + s.len.toNat)

end Sys2Proof.Machine
end

