-- ==== Sys2Proof/Machine/Sequencing.lean ====
section
/-! DEFINITION. What every host command has in common (43_sequencing.md): the phase table, the checks in
their order, and the template that runs a command's body when every check has passed. -/

namespace Sys2Proof.Machine

open Sys2Proof

/-- The seven host commands (00_scope.md R2). -/
inductive Command where
  | init
  | setiv
  | aad
  | enc
  | dec
  | finish
  | verify
deriving DecidableEq, Repr

/-- Admission and transition (43_sequencing.md R195): the next `PHASE`, or `none` where the table says
`order`. -/
def phaseTable (c : Command) (p : Phase) : Option Phase :=
  match c, p with
  | .init, _ => some .keyed
  | .setiv, .reset => none
  | .setiv, _ => some .aad
  | .aad, .aad => some .aad
  | .aad, _ => none
  | .enc, .aad => some .enc
  | .enc, .enc => some .enc
  | .enc, _ => none
  | .dec, .aad => some .dec
  | .dec, .dec => some .dec
  | .dec, _ => none
  | .finish, .aad => some .done
  | .finish, .enc => some .done
  | .finish, .dec => some .done
  | .finish, _ => none
  | .verify, .aad => some .done
  | .verify, .enc => some .done
  | .verify, .dec => some .done
  | .verify, _ => none

/-- `aadLenBits + 8*LEN > AAD_MAX_BITS`, over the unbounded integers (45_aad.md R221). -/
def aadTooLong (s : State) : Bool :=
  decide (s.cfg.aadMaxBits.toNat < s.ctx.aadLenBits.toNat + 8 * s.len.toNat)

/-- `dataLenBits + 8*LEN > DATA_MAX_BITS`, over the unbounded integers (46_data.md R231). -/
def dataTooLong (s : State) : Bool :=
  decide (s.cfg.dataMaxBits.toNat < s.ctx.dataLenBits.toNat + 8 * s.len.toNat)

/-- A key length the block accepts (44_setup.md R210). -/
def keyLength (n : Nat) : Bool := decide (n = 16) || decide (n = 24) || decide (n = 32)

/-- Step 3 of a command, the length check of its own rule (43_sequencing.md R190). -/
def lengthError (c : Command) (s : State) : Option ErrCode :=
  match c with
  | .init => if keyLength s.len.toNat then none else some .invalidKeyLength
  | .setiv => if s.len.toNat = 12 then none else some .unsupportedIvLength
  | .aad => if aadTooLong s then some .lengthLimitExceeded else none
  | .enc => if dataTooLong s then some .lengthLimitExceeded else none
  | .dec => if dataTooLong s then some .lengthLimitExceeded else none
  | .finish => none
  | .verify => if s.len.toNat = 0 ∨ 16 < s.len.toNat then some .invalidTagLength else none

/-- The data-memory ranges of a command (20_memory.md R63). -/
def commandRanges (c : Command) (s : State) : List Range :=
  match c with
  | .init => [inputRange s s.len.toNat]
  | .setiv => [inputRange s 12]
  | .aad => [inputRange s s.len.toNat]
  | .enc => [inputRange s s.len.toNat, outputRange s s.len.toNat]
  | .dec => [inputRange s s.len.toNat, outputRange s s.len.toNat]
  | .finish => [outputRange s 16]
  | .verify => [inputRange s s.len.toNat]

/-- The command's input and output overlap illegally; only `ENC` and `DEC` have both (20_memory.md
R65). -/
def illegalOverlap (c : Command) (s : State) : Bool :=
  match c with
  | .enc => partialOverlap s
  | .dec => partialOverlap s
  | _ => false

/-- Step 4 of a command finds an access error (43_sequencing.md R190): a range that is not admitted
(20_memory.md R64) or an illegal overlap (R65). -/
def accessDenied (c : Command) (s : State) : Bool :=
  ((commandRanges c s).any fun g => !rangeAdmitted s.cfg g) || illegalOverlap c s

/-- A range of the command covers the block's own window (20_memory.md R68, U23). -/
def touchesWindow (c : Command) (s : State) : Bool := (commandRanges c s).any fun g => coversWindow s.cfg g

/-- Steps 2 to 6 of a command (43_sequencing.md R190): the first check that fails is reported and nothing
else happens (R191, R192); when all pass, the body runs, given the phase that R195 says it leaves. -/
def runCommand (c : Command) (body : Phase → State → State) (s : State) :
    Host.Outcome State Fault Refusal :=
  match phaseTable c s.phase with
  | none => .next (s.raise .protocolOrderError)
  | some p =>
    match lengthError c s with
    | some e => .next (s.raise e)
    | none =>
      if accessDenied c s then .next (s.raise .accessError)
      else if touchesWindow c s then .refused .ownWindowRange
      else .next (body p s)

/-- The input of a command: the bytes at `SRC` (20_memory.md R66). -/
def inputBytes (s : State) (n : Nat) : List Byte := s.mem.readBytes s.src.toNat n

/-- The output of a command written at `DST` (20_memory.md R66). -/
def State.storeOutput (out : List Byte) (s : State) : State := s.withMem (s.mem.writeBytes s.dst.toNat out)

end Sys2Proof.Machine
end

