-- ==== Sys2Proof/Machine/Aes.lean ====
section
/-! DEFINITION. The AES core (40_aes_core.md): the requests `AES.EXPAND` and `AES.ENCRYPT`. -/

namespace Sys2Proof.Machine

open Sys2Proof

/-! ## GF(2^8) and the substitution -/

/-- `xtime(a)`, the product of `a` and `x` in GF(2^8) (40_aes_core.md R121). -/
def xtime (a : Byte) : Byte := if a.getLsbD 7 then (a <<< 1) ^^^ 0x1B else a <<< 1

/-- The loop of `a • b` in GF(2^8) (40_aes_core.md R121), with `k` bits of `b` left, from bit `8 - k`. -/
def gf8Loop (b : Byte) : Nat → Byte → Byte → Byte
  | 0, _, p => p
  | k + 1, a, p => gf8Loop b k (xtime a) (if b.getLsbD (7 - k) then p ^^^ a else p)

/-- The product `a • b` in GF(2^8) (40_aes_core.md R121). -/
def gf8Mul (a b : Byte) : Byte := gf8Loop b 8 a 0

/-- The substitution `S` as a table, sixteen rows of sixteen bytes (40_aes_core.md R123). -/
def sboxRows : List Block :=
  [0x637c777bf26b6fc53001672bfed7ab76, 0xca82c97dfa5947f0add4a2af9ca472c0,
   0xb7fd9326363ff7cc34a5e5f171d83115, 0x04c723c31896059a071280e2eb27b275,
   0x09832c1a1b6e5aa0523bd6b329e32f84, 0x53d100ed20fcb15b6acbbe394a4c58cf,
   0xd0efaafb434d338545f9027f503c9fa8, 0x51a3408f929d38f5bcb6da2110fff3d2,
   0xcd0c13ec5f974417c4a77e3d645d1973, 0x60814fdc222a908846eeb814de5e0bdb,
   0xe0323a0a4906245cc2d3ac629195e479, 0xe7c8376d8dd54ea96c56f4ea657aae08,
   0xba78252e1ca6b4c6e8dd741f4bbd8b8a, 0x703eb5664803f60e613557b986c11d9e,
   0xe1f8981169d98e949b1e87e9ce5528df, 0x8ca1890dbfe6426841992d0fb054bb16]

/-- `S(v)`: row the high half of `v`, column the low half (40_aes_core.md R123). -/
def subByte (v : Byte) : Byte := byteAt (sboxRows.getD (v.toNat / 16) 0) (v.toNat % 16)

/-- The affine map of `S`: bit `i` is the exclusive-or of bits `i`, `i+4`, `i+5`, `i+6`, `i+7` (mod 8) of
`u` and bit `i` of 0x63 (40_aes_core.md R122). -/
def sboxAffine (u : Byte) : Byte :=
  u ^^^ u.rotateRight 4 ^^^ u.rotateRight 5 ^^^ u.rotateRight 6 ^^^ u.rotateRight 7 ^^^ 0x63

/-- The multiplicative inverse of `v` in GF(2^8), 0 for 0 (40_aes_core.md R122): the first byte `u` with
`u • v = 1`. -/
def gf8Inverse (v : Byte) : Byte :=
  (((List.range 256).map (BitVec.ofNat 8)).find? fun u => gf8Mul u v == 1).getD 0

/-! ## The key schedule -/

/-- `RotWord` (40_aes_core.md R125). -/
def rotWord (w : Word32) : Word32 := w.rotateLeft 8

/-- `SubWord` (40_aes_core.md R125). -/
def subWord (w : Word32) : Word32 := wordOfBytes ((List.range 4).map fun i => subByte (wordByte w i))

/-- `Rcon(j)` for `j` from 1 (40_aes_core.md R124); `Rcon(0)` is never used. -/
def rcon : Nat → Byte
  | 0 => 0
  | 1 => 0x01
  | j + 2 => xtime (rcon (j + 1))

/-- `t[0] <- t[0] ^ c` for a word `t` (40_aes_core.md R125). -/
def xorFirstByte (t : Word32) (c : Byte) : Word32 := t ^^^ (c.setWidth 32 <<< 24)

/-- What is exclusive-ored into `w[i-Nk]` to make `w[i]`, from `t = w[i-1]` (40_aes_core.md R125). -/
def scheduleWord (nk i : Nat) (t : Word32) : Word32 :=
  if i % nk = 0 then xorFirstByte (subWord (rotWord t)) (rcon (i / nk))
  else if nk = 8 ∧ i % nk = 4 then subWord t
  else t

/-- The words `w[n-1], ..., w[0]` of the key schedule, newest first (40_aes_core.md R125). -/
def keyWords (key : List Byte) (nk : Nat) : Nat → List Word32
  | 0 => []
  | i + 1 =>
    let ws := keyWords key nk i
    if i < nk then wordOfBytes ((key.drop (4 * i)).take 4) :: ws
    else (ws.getD (nk - 1) 0 ^^^ scheduleWord nk i (ws.getD 0 0)) :: ws

/-- The number of rounds for a key of `n` bytes, `Nr = n div 4 + 6` (40_aes_core.md R125); the request is
issued for 16, 24 and 32 bytes only. -/
def roundsOf (n : Nat) : Rounds := if n = 16 then .r10 else if n = 24 then .r12 else .r14

/-- `rk[r] = w[4r] || w[4r+1] || w[4r+2] || w[4r+3]`, from the words oldest first (40_aes_core.md R125). -/
def roundKeyOf (ws : List Word32) (r : Nat) : Block :=
  ws.getD (4 * r) 0 ++ ws.getD (4 * r + 1) 0 ++ ws.getD (4 * r + 2) 0 ++ ws.getD (4 * r + 3) 0

/-- `AES.EXPAND(key)` (40_aes_core.md R125). -/
def expandKey (key : List Byte) : RoundKeys :=
  let nr := roundsOf key.length
  let ws := (keyWords key (key.length / 4) (4 * (nr.toNat + 1))).reverse
  ⟨nr, (List.range (nr.toNat + 1)).map (roundKeyOf ws)⟩

/-! ## The cipher -/

/-- `SubBytes` (40_aes_core.md R126). -/
def subBytes (s : Block) : Block := blockOfFn fun i => subByte (byteAt s i)

/-- `ShiftRows` (40_aes_core.md R127): byte `r + 4c` comes from byte `r + 4((c + r) mod 4)`. -/
def shiftRows (s : Block) : Block := blockOfFn fun i => byteAt s (i % 4 + 4 * ((i / 4 + i % 4) % 4))

/-- Byte `r + 4c` of `MixColumns` (40_aes_core.md R128): with the column's bytes counted from row `r`
on, cyclically, it is `2` times the first, `3` times the second, and the other two. -/
def mixByte (s : Block) (i : Nat) : Byte :=
  let a := fun k => byteAt s (4 * (i / 4) + (i % 4 + k) % 4)
  xtime (a 0) ^^^ (xtime (a 1) ^^^ a 1) ^^^ a 2 ^^^ a 3

/-- `MixColumns` (40_aes_core.md R128). -/
def mixColumns (s : Block) : Block := blockOfFn (mixByte s)

/-- `AddRoundKey` (40_aes_core.md R129). -/
def addRoundKey (s k : Block) : Block := s ^^^ k

/-- `rk[r]` (10_state.md R27); where the register file has no such entry, a free value (log 26). -/
def RoundKeys.key (k : RoundKeys) (r : Nat) : Block := k.rk.getD r (Config.missingRoundKey k r)

/-- One round but the last (40_aes_core.md R130). -/
def cipherRound (k : RoundKeys) (s : Block) (r : Nat) : Block :=
  addRoundKey (mixColumns (shiftRows (subBytes s))) (k.key r)

/-- `AES.ENCRYPT(roundKeys, b)` (40_aes_core.md R130): rounds 1 to `Nr - 1`, then the last round, which
has no `MixColumns`. -/
def encryptBlock (k : RoundKeys) (b : Block) : Block :=
  let s := ((List.range (k.nr.toNat - 1)).map (· + 1)).foldl (cipherRound k) (addRoundKey b (k.key 0))
  addRoundKey (shiftRows (subBytes s)) (k.key k.nr.toNat)

/-! ## The requests -/

/-- `AES.EXPAND` at the request port: `roundKeys` of the operand `key`. A key of another length than 16,
24 or 32 bytes is outside the request's domain (40_aes_core.md R125; log 13). -/
def execAesExpand (s : State) : Host.Outcome State Fault Refusal :=
  if keyLength s.port.ops.key.length then
    .next (s.withResults { s.port.res with roundKeys := expandKey s.port.ops.key })
  else .refused .requestOutsideDomain

/-- `AES.ENCRYPT` at the request port: the operand `b` under the operand `roundKeys` (40_aes_core.md
R130). -/
def execAesEncrypt (s : State) : Host.Outcome State Fault Refusal :=
  .next (s.withResults { s.port.res with block := encryptBlock s.port.ops.roundKeys s.port.ops.b })

end Sys2Proof.Machine
end

