-- ==== Sys2Proof/Machine/Ghash.lean ====
section
/-! DEFINITION. The GHASH unit (41_ghash.md): the field GF(2^128), the requests `GHASH.BUILD`,
`GHASH.MUL` and `GHASH.MULRANGE`, and the reference table with its multiply. -/

namespace Sys2Proof.Machine

open Sys2Proof

/-! ## The field -/

/-- `R`, which is `x^128` reduced (41_ghash.md R151). -/
def ghashR : Block := 0xE1000000000000000000000000000000

/-- `mulx(V)`, the product of `V` and `x` (41_ghash.md R151). -/
def mulx (v : Block) : Block := if v.getLsbD 0 then (v >>> 1) ^^^ ghashR else v >>> 1

/-- The loop of the product (41_ghash.md R152) with `k` coefficients of `a` left, those at bits `k-1` to
0 of its integer. -/
def gmulLoop (a : Block) : Nat → Block → Block → Block
  | 0, z, _ => z
  | k + 1, z, v => gmulLoop a k (if a.getLsbD k then z ^^^ v else z) (mulx v)

/-- The product `a • b` in GF(2^128) (41_ghash.md R152). -/
def gmul (a b : Block) : Block := gmulLoop a 128 0 b

/-! ## The unit -/

/-- `GHASH.BUILD(h)` for a model that keeps no table (41_ghash.md R153, 10_state.md R28; log 11). -/
def ghashBuild (h : Block) : Block := h

/-- `GHASH.MUL(x, hTable)` (41_ghash.md R154). -/
def ghashMul (x hTable : Block) : Block := gmul x hTable

/-- `GHASH.MULRANGE(x, hTable, s)` over the first `n` blocks of `s` (41_ghash.md R158). -/
def mulRange (hTable : Block) : Nat → List Byte → Block → Block
  | 0, _, x => x
  | n + 1, s, x => mulRange hTable n (s.drop 16) (ghashMul (x ^^^ blockOfBytes (s.take 16)) hTable)

/-! ## The reference table (41_ghash.md section 4)

An informative layout with exact arithmetic: the machine keeps `H`, and these definitions say what the
table and the multiply over it are. -/

/-- The highest power of two not above `n`, for `n` from 1 to 15 (41_ghash.md R155). -/
def topPower (n : Nat) : Nat := if 8 ≤ n then 8 else if 4 ≤ n then 4 else if 2 ≤ n then 2 else 1

/-- The entries `T[0]`, `T[1]`, `T[2]`, `T[4]`, `T[8]` of the reference table (41_ghash.md R155). -/
def tableBase (h : Block) (n : Nat) : Block :=
  match n with
  | 8 => h
  | 4 => mulx h
  | 2 => mulx (mulx h)
  | 1 => mulx (mulx (mulx h))
  | _ => 0

/-- `T[n]`, with a bound on how many powers of two `n` still takes (41_ghash.md R155: `T[n] = T[p] ^
T[n - p]`). -/
def tableEntryLoop (h : Block) : Nat → Nat → Block
  | 0, _ => 0
  | k + 1, n => if n = 0 then 0 else tableBase h (topPower n) ^^^ tableEntryLoop h k (n - topPower n)

/-- `T[n]` of the reference table of `h` (41_ghash.md R155). -/
def tableEntry (h : Block) (n : Nat) : Block := tableEntryLoop h 4 n

/-- The reference table: the sixteen entries `T[0]` to `T[15]` (41_ghash.md R155). -/
def referenceTable (h : Block) : List Block := (List.range 16).map (tableEntry h)

/-- The reduction constant `RED4[r]`: the exclusive-or over the set bits `j` of `r` of `R >> (3 - j)`
(41_ghash.md R156). -/
def red4 (r : BitVec 4) : Block :=
  ((List.range 4).map fun j => if r.getLsbD j then ghashR >>> (3 - j) else 0).foldl (fun a b => a ^^^ b) 0

/-- The four-bit piece `n[k]` of `x`, from the left (41_ghash.md R157). -/
def nibbleAt (x : Block) (k : Nat) : BitVec 4 := x.extractLsb' (4 * (31 - k)) 4

/-- The table-driven multiply's loop over the pieces `k-1` down to 0 (41_ghash.md R157). -/
def tableMulLoop (t : List Block) (x : Block) : Nat → Block → Block
  | 0, z => z
  | k + 1, z =>
    tableMulLoop t x k
      (((z >>> 4) ^^^ red4 (z.extractLsb' 0 4)) ^^^ t.getD (nibbleAt x k).toNat 0)

/-- The table-driven multiply (41_ghash.md R157). -/
def tableMul (t : List Block) (x : Block) : Block :=
  tableMulLoop t x 31 (t.getD (nibbleAt x 31).toNat 0)

/-! ## The requests -/

/-- `GHASH.BUILD` at the request port: `hTable` of the operand `h` (41_ghash.md R153). -/
def execGhashBuild (s : State) : Host.Outcome State Fault Refusal :=
  .next (s.withResults { s.port.res with hTable := ghashBuild s.port.ops.h })

/-- `GHASH.MUL` at the request port: the operand `x` times the operand `hTable`'s `H` (41_ghash.md
R154). -/
def execGhashMul (s : State) : Host.Outcome State Fault Refusal :=
  .next (s.withResults { s.port.res with x := ghashMul s.port.ops.x s.port.ops.hTable })

/-- `GHASH.MULRANGE` at the request port: the blocks of the operand `s` absorbed into the operand `x`
(41_ghash.md R158). A string that is not whole blocks is outside the request's domain (log 13). -/
def execGhashMulrange (s : State) : Host.Outcome State Fault Refusal :=
  if s.port.ops.s.length % 16 = 0 then
    .next (s.withResults
      { s.port.res with
        x := mulRange s.port.ops.hTable (s.port.ops.s.length / 16) s.port.ops.s s.port.ops.x })
  else .refused .requestOutsideDomain

end Sys2Proof.Machine
end

