-- ==== Sys2Proof/Machine/Ctr.lean ====
section
/-! DEFINITION. The counter-mode datapath (42_ctr_bulk.md): counter arithmetic, `CTR.BLOCKS`, the
whole-block step, the bulk engine, and the dispatcher that carries out step D of `ENC` and `DEC`
(46_data.md R236, R238). -/

namespace Sys2Proof.Machine

open Sys2Proof

/-! ## Counter arithmetic -/

/-- `inc32(y)`: the counter field incremented modulo 2^32, the fixed field unchanged (42_ctr_bulk.md
R171). -/
def inc32 (y : Block) : Block := counterBlock (fixedField y) (ctrField y + 1)

/-- `blocksUntilWrap(y) = 2^32 - y.ctr`, over the integers (42_ctr_bulk.md R172). -/
def blocksUntilWrap (y : Block) : Nat := 2 ^ 32 - (ctrField y).toNat

/-! ## CTR.BLOCKS -/

/-- One block of `CTR.BLOCKS`: the input exclusive-ored with the keystream block of `y`
(42_ctr_bulk.md R173). -/
def ctrBlock (k : RoundKeys) (y b : Block) : Block := b ^^^ encryptBlock k y

/-- What `CTR.BLOCKS` returns: the output and the counter block it leaves. -/
structure CtrResult where
  out : List Byte
  y : Block
deriving DecidableEq, Repr

/-- `CTR.BLOCKS(s, roundKeys, y)` over the first `n` blocks of `s` (42_ctr_bulk.md R173). -/
def ctrBlocks (k : RoundKeys) : Nat → List Byte → Block → CtrResult
  | 0, _, y => ⟨[], y⟩
  | n + 1, s, y =>
    let rest := ctrBlocks k n (s.drop 16) (inc32 y)
    ⟨bytesOfBlock (ctrBlock k y (blockOfBytes (s.take 16))) ++ rest.out, rest.y⟩

/-! ## Whole blocks -/

/-- The direction of a data command (46_data.md R230, R241). -/
inductive Dir where
  | enc
  | dec
deriving DecidableEq, Repr

/-- The ciphertext of an input and an output: the output when encrypting, the input when decrypting
(42_ctr_bulk.md R174: GCM always hashes ciphertext). -/
def cipherOf {α : Type} (dir : Dir) (input output : α) : α :=
  match dir with
  | .enc => output
  | .dec => input

/-- What whole-block processing returns: the output, the counter block and the accumulator. -/
structure BlocksResult where
  out : List Byte
  y : Block
  x : Block
deriving DecidableEq, Repr

/-- `BlockStep(dir, b, roundKeys, hTable, y, x)` (42_ctr_bulk.md R174). -/
def blockStep (dir : Dir) (k : RoundKeys) (hTable : Block) (b y x : Block) : BlocksResult :=
  let o := ctrBlock k y b
  ⟨bytesOfBlock o, inc32 y, ghashMul (x ^^^ cipherOf dir b o) hTable⟩

/-- `Blocks(dir, s, roundKeys, hTable, y, x)` over the first `n` blocks of `s` (42_ctr_bulk.md R175). -/
def blocks (dir : Dir) (k : RoundKeys) (hTable : Block) : Nat → List Byte → Block → Block → BlocksResult
  | 0, _, y, x => ⟨[], y, x⟩
  | n + 1, s, y, x =>
    let r := blockStep dir k hTable (blockOfBytes (s.take 16)) y x
    let rest := blocks dir k hTable n (s.drop 16) r.y r.x
    ⟨r.out ++ rest.out, rest.y, rest.x⟩

/-! ## The bulk engine -/

/-- `bulkTake(n)`: how many of `n` requested blocks the engine consumes, never more than `n`
(00_scope.md R6; log 9). -/
def bulkTake (cfg : Config) (n : Nat) : Nat :=
  match cfg.bulkTakes.find? fun p => p.1 == n with
  | some p => min p.2 n
  | none => n

/-- What a bulk request returns (42_ctr_bulk.md R176): the output, the two fields of the counter block
apart, since the fixed field is any value (R179), the accumulator and the bytes consumed. -/
structure BulkResult where
  out : List Byte
  fixed : BitVec 96
  ctr : Word32
  x : Block
  consumed : Nat
deriving DecidableEq, Repr

/-- `BULK.ENC` and `BULK.DEC` (42_ctr_bulk.md R176, R177): the first `bulkTake(n)` of the `n` whole blocks
of `s`. The fixed field it returns is a free value (R179, U17; log 10). -/
def bulk (cfg : Config) (dir : Dir) (k : RoundKeys) (hTable : Block) (s : List Byte) (y x : Block) :
    BulkResult :=
  let t := bulkTake cfg (s.length / 16)
  let r := blocks dir k hTable t s y x
  ⟨r.out, Config.bulkFixedField (decide (dir = .enc)) s k hTable y x t, ctrField r.y, r.x, 16 * t⟩

/-! ## The dispatcher -/

/-- Step D of `ENC` and `DEC` as the controller carries it out (46_data.md R236, R238), on the first `n`
blocks of `s`, with a bound on the rounds. A round hands at most `blocksUntilWrap` blocks to the bulk
engine and restores the fixed field; what is too short, or is left when the engine consumes less
than it was asked, goes block by block. -/
def dispatchBlocks (cfg : Config) (dir : Dir) (k : RoundKeys) (hTable : Block) :
    Nat → Nat → List Byte → Block → Block → BlocksResult
  | 0, n, s, y, x => blocks dir k hTable n s y x
  | rounds + 1, n, s, y, x =>
    if n = 0 ∨ n < cfg.bulkMinBlocks then blocks dir k hTable n s y x
    else
      let req := min n (blocksUntilWrap y)
      let r := bulk cfg dir k hTable (s.take (16 * req)) y x
      let y' := counterBlock (fixedField y) r.ctr
      let left := n - r.consumed / 16
      let rest :=
        if r.consumed < 16 * req then blocks dir k hTable left (s.drop r.consumed) y' r.x
        else dispatchBlocks cfg dir k hTable rounds left (s.drop r.consumed) y' r.x
      ⟨r.out ++ rest.out, rest.y, rest.x⟩

/-- Step D on all `n` blocks of `s`: every round consumes a block or leaves the loop (46_data.md R236),
so `n` rounds are enough. -/
def wholeBlocks (cfg : Config) (dir : Dir) (k : RoundKeys) (hTable : Block) (n : Nat) (s : List Byte)
    (y x : Block) : BlocksResult :=
  dispatchBlocks cfg dir k hTable n n s y x

/-! ## The requests -/

/-- `CTR.BLOCKS` at the request port (42_ctr_bulk.md R173). A string that is not whole blocks is outside
the request's domain (log 13). -/
def execCtrBlocks (s : State) : Host.Outcome State Fault Refusal :=
  let o := s.port.ops
  if o.s.length % 16 = 0 then
    let r := ctrBlocks o.roundKeys (o.s.length / 16) o.s o.y
    .next (s.withResults { s.port.res with out := r.out, y := r.y })
  else .refused .requestOutsideDomain

/-- The operands a bulk request admits: whole blocks, no more than remain before the counter wraps
(42_ctr_bulk.md R176, R178; U3: past the wrap no meaning). -/
def bulkDomain (o : RequestOps) : Bool :=
  decide (o.s.length % 16 = 0) && decide (o.s.length / 16 ≤ blocksUntilWrap o.y)

/-- A bulk request at the request port: its results, where its operands are in its domain (log 13). -/
def runBulk (dir : Dir) (s : State) : Host.Outcome State Fault Refusal :=
  let o := s.port.ops
  if bulkDomain o then
    let r := bulk s.cfg dir o.roundKeys o.hTable o.s o.y o.x
    .next (s.withResults
      { s.port.res with out := r.out, y := counterBlock r.fixed r.ctr, x := r.x, consumed := r.consumed })
  else .refused .requestOutsideDomain

/-- `BULK.ENC` at the request port (42_ctr_bulk.md R176). -/
def execBulkEnc (s : State) : Host.Outcome State Fault Refusal := runBulk .enc s

/-- `BULK.DEC` at the request port (42_ctr_bulk.md R177). -/
def execBulkDec (s : State) : Host.Outcome State Fault Refusal := runBulk .dec s

end Sys2Proof.Machine
end

