-- ==== Sys2Proof/Machine/Setup.lean ====
section
/-! DEFINITION. The setup commands `INIT` and `SETIV` (44_setup.md). -/

namespace Sys2Proof.Machine

open Sys2Proof

/-- The hash subkey `H`, the all-zero block encrypted (40_aes_core.md R131, 44_setup.md R210). -/
def hashSubkey (k : RoundKeys) : Block := encryptBlock k 0

/-- The context `INIT` leaves: the two key-derived registers are written and nothing else (44_setup.md
R210). -/
def initContext (key : List Byte) (c : Context) : Context :=
  let k := expandKey key
  { c with roundKeys := k, hTable := ghashBuild (hashSubkey k) }

/-- The context `SETIV` leaves: the counter block with counter 2, `EK0` of the one with counter 1, and
the per-message registers 0; the key-derived registers and `EKi` stay (44_setup.md R212). -/
def setivContext (iv : List Byte) (c : Context) : Context :=
  let y := counterBlock (fixedOfBytes iv) 1
  { c with
    y := inc32 y, ek0 := encryptBlock c.roundKeys y, x := 0,
    aadLenBits := 0, dataLenBits := 0, aadResidue := 0, dataResidue := 0 }

/-- The body of `INIT` (44_setup.md R210). -/
def initBody (p : Phase) (s : State) : State :=
  (s.withCtx (initContext (inputBytes s s.len.toNat) s.ctx)).succeed p

/-- The body of `SETIV` (44_setup.md R212). -/
def setivBody (p : Phase) (s : State) : State := (s.withCtx (setivContext (inputBytes s 12) s.ctx)).succeed p

/-- `INIT` (44_setup.md R210). -/
def execInit (s : State) : Host.Outcome State Fault Refusal := runCommand .init initBody s

/-- `SETIV` (44_setup.md R212). -/
def execSetiv (s : State) : Host.Outcome State Fault Refusal := runCommand .setiv setivBody s

end Sys2Proof.Machine
end

