-- ==== Sys2Proof/Machine/Aad.lean ====
section
/-! DEFINITION. The command `AAD` (45_aad.md). -/

namespace Sys2Proof.Machine

open Sys2Proof

/-- What completing a pending block leaves: the accumulator, the residue and the bytes not used. -/
structure AadFill where
  x : Block
  residue : BitVec 4
  rest : List Byte
deriving DecidableEq, Repr

/-- Step 1 of `AAD`: while a block is pending and input is left, a byte is absorbed at the residue, and
a full block is multiplied (45_aad.md R220). The residue is 4 bits wide, so it returns to 0 by
itself. -/
def aadFill (hTable : Block) : List Byte → Block → BitVec 4 → AadFill
  | [], x, r => ⟨x, r, []⟩
  | b :: a, x, r =>
    if r = 0 then ⟨x, r, b :: a⟩
    else
      let x' := xorByte x r.toNat b
      aadFill hTable a (if r + 1 = 0 then ghashMul x' hTable else x') (r + 1)

/-- The context `AAD` leaves on input `a`: the length counted, the pending block completed, the whole
blocks absorbed in one request, the trailing bytes absorbed at offset 0 (45_aad.md R220). -/
def aadContext (a : List Byte) (c : Context) : Context :=
  let f := aadFill c.hTable a c.x c.aadResidue
  let n := f.rest.length / 16
  let x := if 0 < n then mulRange c.hTable n (f.rest.take (16 * n)) f.x else f.x
  let tail := f.rest.drop (16 * n)
  { c with
    aadLenBits := BitVec.ofNat 64 (c.aadLenBits.toNat + 8 * a.length),
    x := xorBytes x 0 tail,
    aadResidue := if tail = [] then f.residue else BitVec.ofNat 4 tail.length }

/-- The body of `AAD` (45_aad.md R220). -/
def aadBody (p : Phase) (s : State) : State :=
  (s.withCtx (aadContext (inputBytes s s.len.toNat) s.ctx)).succeed p

/-- `AAD` (45_aad.md R220). -/
def execAad (s : State) : Host.Outcome State Fault Refusal := runCommand .aad aadBody s

end Sys2Proof.Machine
end

