-- ==== Sys2Proof/Machine/Data.lean ====
section
/-! DEFINITION. The data commands `ENC` and `DEC` (46_data.md): steps A to F of R230. -/

namespace Sys2Proof.Machine

open Sys2Proof

/-- Step B, closing a pending AAD block: the accumulator it leaves (46_data.md R233). -/
def closeAad (c : Context) : Block := if c.aadResidue = 0 then c.x else ghashMul c.x c.hTable

/-- What the head partial block leaves: its output, the accumulator, the residue, the input not used. -/
structure HeadResult where
  out : List Byte
  x : Block
  residue : BitVec 4
  rest : List Byte
deriving DecidableEq, Repr

/-- Step C, the head partial block: bytes go under the cached keystream block until it is full or the
input ends (46_data.md R234). -/
def headPartial (dir : Dir) (hTable eki : Block) : List Byte → Block → BitVec 4 → HeadResult
  | [], x, r => ⟨[], x, r, []⟩
  | b :: d, x, r =>
    if r = 0 then ⟨[], x, r, b :: d⟩
    else
      let o := b ^^^ byteAt eki r.toNat
      let x' := xorByte x r.toNat (cipherOf dir b o)
      let h := headPartial dir hTable eki d (if r + 1 = 0 then ghashMul x' hTable else x') (r + 1)
      { h with out := o :: h.out }

/-- What a data command computes: its output and the registers it leaves. -/
structure DataResult where
  out : List Byte
  y : Block
  x : Block
  eki : Block
  residue : BitVec 4
deriving DecidableEq, Repr

/-- Step E, the tail partial block: the last 1 to 15 bytes open a block, whose keystream is cached and
whose counter value is taken now (46_data.md R239). -/
def tailPartial (dir : Dir) (k : RoundKeys) (d : List Byte) (y x eki : Block) (residue : BitVec 4) :
    DataResult :=
  if d = [] then ⟨[], y, x, eki, residue⟩
  else
    let ks := encryptBlock k y
    let o := xorStrings d (bytesOfBlock ks)
    ⟨o, inc32 y, xorBytes x 0 (cipherOf dir d o), ks, BitVec.ofNat 4 d.length⟩

/-- Steps B to E on input `d` (46_data.md R233 to R239). -/
def dataCompute (cfg : Config) (dir : Dir) (d : List Byte) (c : Context) : DataResult :=
  let h := headPartial dir c.hTable c.eki d (closeAad c) c.dataResidue
  let n := h.rest.length / 16
  let w := wholeBlocks cfg dir c.roundKeys c.hTable n (h.rest.take (16 * n)) c.y h.x
  let t := tailPartial dir c.roundKeys (h.rest.drop (16 * n)) w.y w.x c.eki h.residue
  { t with out := h.out ++ w.out ++ t.out }

/-- The context a data command leaves on `n` input bytes (46_data.md R230, R232). -/
def dataContext (n : Nat) (r : DataResult) (c : Context) : Context :=
  { c with
    y := r.y, x := r.x, eki := r.eki,
    dataLenBits := BitVec.ofNat 64 (c.dataLenBits.toNat + 8 * n),
    aadResidue := 0, dataResidue := r.residue }

/-- The body of `ENC` and `DEC`, steps A to F (46_data.md R230, R240, R241). -/
def dataBody (dir : Dir) (p : Phase) (s : State) : State :=
  let r := dataCompute s.cfg dir (inputBytes s s.len.toNat) s.ctx
  ((s.storeOutput r.out).withCtx (dataContext s.len.toNat r s.ctx)).succeed p

/-- `ENC` (46_data.md R230). -/
def execEnc (s : State) : Host.Outcome State Fault Refusal := runCommand .enc (dataBody .enc) s

/-- `DEC` (46_data.md R241). -/
def execDec (s : State) : Host.Outcome State Fault Refusal := runCommand .dec (dataBody .dec) s

end Sys2Proof.Machine
end

