-- ==== Sys2Proof/Machine/Finish.lean ====
section
/-! DEFINITION. The completion commands `FINISH` and `VERIFY` (47_finish.md). -/

namespace Sys2Proof.Machine

open Sys2Proof

/-- The length block: `aadLenBits` as a big-endian 64-bit integer, then `dataLenBits` (47_finish.md
R260). -/
def lengthBlock (c : Context) : Block := c.aadLenBits ++ c.dataLenBits

/-- The accumulator after `TagCompute`: a pending block closed by one multiply, then the length block
absorbed (47_finish.md R260). -/
def finalX (c : Context) : Block :=
  let x := if c.dataResidue ≠ 0 ∨ c.aadResidue ≠ 0 then ghashMul c.x c.hTable else c.x
  ghashMul (x ^^^ lengthBlock c) c.hTable

/-- The tag, `X ^ EK0` (47_finish.md R260). -/
def tagOf (c : Context) : Block := finalX c ^^^ c.ek0

/-- The exclusive-ors of the tag's bytes and the expected bytes, or-ed together: every byte is looked at
(47_finish.md R264), so a flipped bit of one of them is always found (R267; `tagDiff_eq_zero_iff`). -/
def tagDiff (tag : Block) (expected : List Byte) : Byte :=
  (xorStrings (bytesOfBlock tag) expected).foldl (fun d e => d ||| e) 0

/-- The body of `FINISH` (47_finish.md R262): `X` is written, the residues and counters stay (R260). -/
def finishBody (p : Phase) (s : State) : State :=
  ((s.storeOutput (bytesOfBlock (tagOf s.ctx))).withCtx { s.ctx with x := finalX s.ctx }).succeed p

/-- `STATUS` after the comparison of `VERIFY` (47_finish.md R264). -/
def verifyReport (diff : Byte) (s : State) : State :=
  if diff = 0 then s.withStatus .ok true else s.withStatus .authenticationFailure false

/-- The body of `VERIFY` (47_finish.md R264). That it matches after a round trip, and what it finds of a changed
message, are the properties of R267, in the terms of `sent` and `received`. -/
def verifyBody (p : Phase) (s : State) : State :=
  verifyReport (tagDiff (tagOf s.ctx) (inputBytes s s.len.toNat))
    ((s.withCtx { s.ctx with x := finalX s.ctx }).withPhase p)

/-- `FINISH` (47_finish.md R262). -/
def execFinish (s : State) : Host.Outcome State Fault Refusal := runCommand .finish finishBody s

/-- `VERIFY` (47_finish.md R264). -/
def execVerify (s : State) : Host.Outcome State Fault Refusal := runCommand .verify verifyBody s

end Sys2Proof.Machine
end

