-- ==== Sys2Proof/Machine/Dispatch.lean ====
section
/-! DEFINITION. One arm per instruction. -/

namespace Sys2Proof.Machine

open Sys2Proof

def exec (i : Instr) (s : State) : Host.Outcome State Fault Refusal :=
  match i with
  -- the host commands (30_encoding.md R93)
  | .init => Sys2Proof.Machine.execInit s
  | .setiv => Sys2Proof.Machine.execSetiv s
  | .aad => Sys2Proof.Machine.execAad s
  | .enc => Sys2Proof.Machine.execEnc s
  | .dec => Sys2Proof.Machine.execDec s
  | .finish => Sys2Proof.Machine.execFinish s
  | .verify => Sys2Proof.Machine.execVerify s
  -- the primitive requests (30_encoding.md R95)
  | .aesExpand => Sys2Proof.Machine.execAesExpand s
  | .aesEncrypt => Sys2Proof.Machine.execAesEncrypt s
  | .ghashBuild => Sys2Proof.Machine.execGhashBuild s
  | .ghashMul => Sys2Proof.Machine.execGhashMul s
  | .ghashMulrange => Sys2Proof.Machine.execGhashMulrange s
  | .ctrBlocks => Sys2Proof.Machine.execCtrBlocks s
  | .bulkEnc => Sys2Proof.Machine.execBulkEnc s
  | .bulkDec => Sys2Proof.Machine.execBulkDec s

end Sys2Proof.Machine
end

