-- ==== Sys2Proof/Machine/Bus.lean ====
section
/-! DEFINITION. How an instruction reaches the block, and every other event: the register window, the data
memory as the host uses it, the units' request port and the reset event (00_scope.md R15, 10_state.md
section 5, 43_sequencing.md R199). -/

namespace Sys2Proof.Machine

open Sys2Proof

/-- A write of `w` to `CMD`: the command `w` names is executed; a word that names none raises
`IllegalCommand` (43_sequencing.md R190 step 1, 30_encoding.md R94). -/
def submitCommand (w : Word32) (s : State) : Host.Outcome State Fault Refusal :=
  match decode (.command w) with
  | .ok i => exec i s
  | .error _ => .next (s.raise .illegalCommand)

/-- A host write: to `CMD` it is a command, to another register of the window it is that register's, and
anywhere else it is no access to the block (10_state.md R40, R47). -/
def hostWrite (addr : Nat) (width : AccessWidth) (v : Word32) (s : State) :
    Host.Outcome State Fault Refusal :=
  match windowTarget s.cfg addr width with
  | some .cmd => submitCommand v s
  | some r => .next (writeReg r v s)
  | none => .refused .notAWindowAccess

/-- A host read of the window: the value goes to the host and nothing else changes (10_state.md R40 to
R45, 43_sequencing.md R199; log 14). -/
def hostRead (addr : Nat) (width : AccessWidth) (s : State) : Host.Outcome State Fault Refusal :=
  match windowTarget s.cfg addr width with
  | some r => .next (s.withHostData (readReg r s))
  | none => .refused .notAWindowAccess

/-- A format P code presented with its operands (30_encoding.md R95); a code that does not exist has no
behaviour (R94). -/
def submitRequest (code : Byte) (ops : RequestOps) (s : State) : Host.Outcome State Fault Refusal :=
  match decode (.request code) with
  | .ok i => exec i (s.withOps ops)
  | .error _ => .refused .undefinedRequest

/-- One event. DESIGN CHOICE: a `store` or `load` is an access to the data memory at every address, also at
one whose number lies in the block's own window; the spec does not say what the host finds there (20_memory.md
R60, R68); log 28. -/
def handleEvent (e : HostEvent) (s : State) : Host.Outcome State Fault Refusal :=
  match e with
  | .windowWrite addr width v => hostWrite addr width v s
  | .windowRead addr width => hostRead addr width s
  | .store addr b => .next (s.withMem (s.mem.write addr.toNat b))
  | .load addr => .next (s.withHostData ((s.mem.read addr.toNat).setWidth 32))
  | .request code ops => submitRequest code ops s
  | .reset => .next s.applyReset

/-- The next event and the state without it (log 1). -/
def takeEvent (s : State) : Option (HostEvent × State) :=
  match s.pending with
  | [] => none
  | e :: es => some (e, s.withPending es)

/-- With no event left the block is idle and holds its state (60_exceptions.md R303). -/
def idle (s : State) : Host.Outcome State Fault Refusal := .next s

/-- The event that presents a row's bits: a 32-bit row is written to `CMD`, an 8-bit row is presented at
the request port with the operands the port holds (log 1). -/
def presentRow (nbits w : Nat) (s : State) : Option HostEvent :=
  match codeOfTable nbits w with
  | some (.command v) => some (.windowWrite s.cfg.regBase .word v)
  | some (.request c) => some (.request c s.port.ops)
  | none => none

/-- The state in which a row's bits are what the host, or the port, presents next (log 1). -/
def withPresented (nbits w : Nat) (s : State) : State :=
  match presentRow nbits w s with
  | some e => s.withPending (e :: s.pending)
  | none => s

end Sys2Proof.Machine
end

