-- ==== Sys2Proof/Machine/Step.lean ====
section
/-! DEFINITION. One step: the next event of the host is taken and handled; with none left the block is
idle. -/

namespace Sys2Proof.Machine

open Sys2Proof

/-- One step of the machine (log 1). -/
def step (s : State) : Host.Outcome State Fault Refusal :=
  match takeEvent s with
  | none => idle s
  | some (e, t) => handleEvent e t

/-- `s` with the instruction whose bits are `w` presented as the very next event (log 1). -/
def State.withFetchWord (s : State) (nbits w : Nat) : State := withPresented nbits w s

end Sys2Proof.Machine
end

