-- ==== Sys2Proof/Safety.lean ====
section
/-! DEFINITION. The terms claims are stated in: what makes a range usable, the reference meaning of the
streams byte by byte, the invariant of the machine, what of a state can be observed later, and what a
sender and a receiver of a whole message do. -/

namespace Sys2Proof.Machine

open Sys2Proof

/-! ## Ranges -/

/-- A range a command can use: it is empty, or it lies in the address space, the platform admits it
(20_memory.md R64) and it is clear of the block's own window (R68). -/
abbrev usable (cfg : Config) (g : Range) : Prop :=
  g.len = 0 ∨
    (g.addr + g.len ≤ 2 ^ 64 ∧ platformAdmits cfg g = true ∧
      (g.addr + g.len ≤ cfg.regBase ∨ cfg.regBase + 32 ≤ g.addr))

/-- The input and output ranges of `ENC` or `DEC` are identical or disjoint (20_memory.md R65). -/
abbrev identicalOrDisjoint (s : State) : Prop :=
  s.src = s.dst ∨ s.src.toNat + s.len.toNat ≤ s.dst.toNat ∨ s.dst.toNat + s.len.toNat ≤ s.src.toNat

/-! ## The instructions by kind -/

/-- The instruction of a command. -/
def Command.instr : Command → Instr
  | .init => .init
  | .setiv => .setiv
  | .aad => .aad
  | .enc => .enc
  | .dec => .dec
  | .finish => .finish
  | .verify => .verify

/-- The command an instruction is, if it is one (00_scope.md R2). -/
def commandOfInstr : Instr → Option Command
  | .init => some .init
  | .setiv => some .setiv
  | .aad => some .aad
  | .enc => some .enc
  | .dec => some .dec
  | .finish => some .finish
  | .verify => some .verify
  | .aesExpand | .aesEncrypt | .ghashBuild | .ghashMul | .ghashMulrange => none
  | .ctrBlocks | .bulkEnc | .bulkDec => none

/-- The data command of a direction (46_data.md R230, R241). -/
def Dir.command : Dir → Command
  | .enc => .enc
  | .dec => .dec

/-- The phase a data command of a direction leaves (46_data.md R240). -/
def Dir.phase : Dir → Phase
  | .enc => .enc
  | .dec => .dec

/-- A session is open: `PHASE` is `P_AAD`, `P_ENC` or `P_DEC` (43_sequencing.md R197). -/
def Phase.inSession : Phase → Bool
  | .aad | .enc | .dec => true
  | .reset | .keyed | .done => false

/-! ## The streams, byte by byte

The reference meaning of absorbing and of a data command: one byte at a time, with no whole-block path.
45_aad.md R222 and 46_data.md R242 say that a command's outcome depends on the bytes alone. -/

/-- The accumulator and how many bytes of its block are absorbed. -/
structure Absorber where
  x : Block
  residue : BitVec 4
deriving DecidableEq, Repr

/-- One byte absorbed at the residue; a full block is multiplied (45_aad.md R220, 46_data.md R234). -/
def absorbByte (hTable : Block) (a : Absorber) (b : Byte) : Absorber :=
  let x := xorByte a.x a.residue.toNat b
  ⟨if a.residue = 15 then ghashMul x hTable else x, a.residue + 1⟩

/-- A string absorbed byte by byte. -/
def absorb (hTable : Block) (a : Absorber) (s : List Byte) : Absorber := s.foldl (absorbByte hTable) a

/-- The registers of a data stream. -/
structure Stream where
  y : Block
  eki : Block
  acc : Absorber
deriving DecidableEq, Repr

/-- One data byte: at residue 0 it opens a block, which takes the counter value of `Y`; then it goes
under the keystream byte of the residue, and the ciphertext byte is absorbed (46_data.md R234,
R239). -/
def streamByte (dir : Dir) (k : RoundKeys) (hTable : Block) (st : Stream) (b : Byte) : Byte × Stream :=
  let eki := if st.acc.residue = 0 then encryptBlock k st.y else st.eki
  let y := if st.acc.residue = 0 then inc32 st.y else st.y
  let o := b ^^^ byteAt eki st.acc.residue.toNat
  (o, ⟨y, eki, absorbByte hTable st.acc (cipherOf dir b o)⟩)

/-- A data string, byte by byte: the output and the registers after it. -/
def streamBytes (dir : Dir) (k : RoundKeys) (hTable : Block) : Stream → List Byte → List Byte × Stream
  | st, [] => ([], st)
  | st, b :: d =>
    let r := streamByte dir k hTable st b
    let rest := streamBytes dir k hTable r.2 d
    (r.1 :: rest.1, rest.2)

/-- The registers a data command starts its stream with: a pending AAD block is closed (46_data.md
R233). -/
def streamStart (c : Context) : Stream := ⟨c.y, c.eki, ⟨closeAad c, c.dataResidue⟩⟩

/-! ## The invariant -/

/-- What holds of the key-derived registers while a key is loaded (10_state.md R27, R28; 43_sequencing.md
R197 b): the schedule has its shape, and `hTable` is that of `H`. -/
def KeyInv (c : Context) : Prop :=
  c.roundKeys.wf = true ∧ c.hTable = ghashBuild (encryptBlock c.roundKeys 0)

/-- What holds of the per-message registers while a session is open: the relations of 10_state.md R30,
the ceilings and the multiples of R25, `EK0` of R22, and `EKi` of R23 while a block is open. -/
def SessionInv (s : State) : Prop :=
  s.ctx.aadLenBits.toNat % 8 = 0 ∧ s.ctx.dataLenBits.toNat % 8 = 0 ∧
  s.ctx.aadLenBits.toNat ≤ s.cfg.aadMaxBits.toNat ∧ s.ctx.dataLenBits.toNat ≤ s.cfg.dataMaxBits.toNat ∧
  s.ctx.ek0 = encryptBlock s.ctx.roundKeys (counterBlock (fixedField s.ctx.y) 1) ∧
  (s.phase = .aad → s.ctx.dataLenBits = 0 ∧ s.ctx.dataResidue = 0 ∧
    s.ctx.aadResidue.toNat = s.ctx.aadLenBits.toNat / 8 % 16) ∧
  (s.phase = .enc ∨ s.phase = .dec → s.ctx.aadResidue = 0 ∧
    s.ctx.dataResidue.toNat = s.ctx.dataLenBits.toNat / 8 % 16) ∧
  (s.ctx.aadResidue = 0 ∨ s.ctx.dataResidue = 0) ∧
  (ctrField s.ctx.y).toNat = (2 + (s.ctx.dataLenBits.toNat + 127) / 128) % 2 ^ 32 ∧
  (s.ctx.dataResidue ≠ 0 →
    s.ctx.eki =
      encryptBlock s.ctx.roundKeys (counterBlock (fixedField s.ctx.y) (ctrField s.ctx.y - 1)))

/-- The invariant of the machine: the data memory is in its canonical form, the key-derived registers and
the per-message registers are what they must be while they are valid (43_sequencing.md R197), and
`MATCH` is set only where a `VERIFY` left it (10_state.md R42). -/
def State.Inv (s : State) : Prop :=
  s.mem.wf ∧ (s.phase ≠ .reset → KeyInv s.ctx) ∧ (s.phase.inSession = true → SessionInv s) ∧
  (s.matched = true → s.phase = .done ∧ s.err = .ok)

/-! ## What can be observed later -/

/-- Two contexts agree in every register that a command may still read in a phase: the key-derived ones
once a key is loaded, the per-message ones while a session is open, `EKi` while a data block is open
(10_state.md R23, R55; 43_sequencing.md R197). -/
def liveAgree (p : Phase) (c d : Context) : Prop :=
  (p ≠ .reset → c.roundKeys = d.roundKeys ∧ c.hTable = d.hTable) ∧
  (p.inSession = true →
    c.y = d.y ∧ c.ek0 = d.ek0 ∧ c.x = d.x ∧ c.aadLenBits = d.aadLenBits ∧ c.dataLenBits = d.dataLenBits ∧
    c.aadResidue = d.aadResidue ∧ c.dataResidue = d.dataResidue ∧ (c.dataResidue ≠ 0 → c.eki = d.eki))

/-- Two states are alike but for context registers that hold nothing yet, or nothing any more. -/
def alike (s t : State) : Prop := t.withCtx s.ctx = s ∧ liveAgree s.phase s.ctx t.ctx

/-- Two outcomes of a step are alike. -/
def alikeOutcome : Host.Outcome State Fault Refusal → Host.Outcome State Fault Refusal → Prop
  | .next s, .next t => alike s t
  | .fault a, .fault b => a = b
  | .refused a, .refused b => a = b
  | _, _ => False

/-! ## What a command reads and writes -/

/-- The bytes of data memory a command may read: their address and number (20_memory.md R63). -/
def readLength (c : Command) (s : State) : Nat :=
  match c with
  | .init | .aad | .enc | .dec | .verify => s.len.toNat
  | .setiv => 12
  | .finish => 0

/-- The number of bytes a command may write at `DST` (20_memory.md R63). -/
def writeLength (c : Command) (s : State) : Nat :=
  match c with
  | .enc | .dec => s.len.toNat
  | .finish => 16
  | .init | .setiv | .aad | .verify => 0

/-! ## Whole messages

The terms of the properties of 47_finish.md R267: what a sender and a receiver of a message do. Between
two commands the host may set `SRC`, `DST`, `LEN` and any byte of the data memory (00_scope.md R15); the
context and `PHASE` are the block's. -/

/-- `u` is what the host has made of `t`: the context, `PHASE` and the parameters are `t`'s. -/
def handedOn (t u : State) : Prop := u.phase = t.phase ∧ u.ctx = t.ctx ∧ u.cfg = t.cfg

/-- From `s`, the host has issued a command whose `LEN` input bytes are `input`; it was accepted, left `t`,
and wrote `output`. -/
def issued (c : Command) (input : List Byte) (s t : State) (output : List Byte) : Prop :=
  ∃ u : State, handedOn s u ∧ u.mem.wf ∧ u.mem.readBytes u.src.toNat (readLength c u) = input ∧
    exec c.instr u = .next t ∧ t.err = .ok ∧ t.mem.readBytes u.dst.toNat (writeLength c u) = output

/-- From `s`, a session under a key and an IV was opened and its AAD absorbed, by one `AAD` (of length 0
where there is none). -/
def opened (key iv aad : List Byte) (s t : State) : Prop :=
  ∃ a b : State, issued .init key s a [] ∧ issued .setiv iv a b [] ∧ issued .aad aad b t []

/-- A sender's whole message, the `Encrypt(pt) with tag T` of 47_finish.md R267: the plaintext encrypted by
one `ENC`, the tag written by `FINISH`. -/
def sent (key iv aad plain cipher tag : List Byte) (s t : State) : Prop :=
  ∃ a b : State, opened key iv aad s a ∧ issued .enc plain a b cipher ∧ issued .finish [] b t tag

/-- A receiver's message up to its `VERIFY`, the `Decrypt` of 47_finish.md R267: the ciphertext decrypted by one
`DEC`. -/
def received (key iv aad cipher plain : List Byte) (s t : State) : Prop :=
  ∃ a : State, opened key iv aad s a ∧ issued .dec cipher a t plain

/-- The number of blocks, the last one perhaps partial, of a string. -/
def blockCount (s : List Byte) : Nat := (s.length + 15) / 16

end Sys2Proof.Machine
end

