-- ==== Sys2Proof/Certificates/Slice0/Obligations.lean ====
section
/-! DEFINITION. The statements for the provers, `Obligations.<Name>`, and the few reference definitions they
are written with. Nothing here is proved. -/

open Sys2Proof Sys2Proof.Machine

namespace Sys2Proof.Spec

/-! ## Reference definitions -/

/-- The table of 43_sequencing.md R195, a row for each command, the columns in the order `P_RESET`,
`P_KEYED`, `P_AAD`, `P_ENC`, `P_DEC`, `P_DONE`; `none` is `order`. -/
def sequencingRow : Command → List (Option Phase)
  | .init => [some .keyed, some .keyed, some .keyed, some .keyed, some .keyed, some .keyed]
  | .setiv => [none, some .aad, some .aad, some .aad, some .aad, some .aad]
  | .aad => [none, none, some .aad, none, none, none]
  | .enc => [none, none, some .enc, some .enc, none, none]
  | .dec => [none, none, some .dec, none, some .dec, none]
  | .finish => [none, none, some .done, some .done, some .done, none]
  | .verify => [none, none, some .done, some .done, some .done, none]

/-- The column of a phase in that table. -/
def phaseColumn : Phase → Nat
  | .reset => 0
  | .keyed => 1
  | .aad => 2
  | .enc => 3
  | .dec => 4
  | .done => 5

/-- The table's cell for a command and a phase. -/
def sequencing (c : Command) (p : Phase) : Option Phase := (sequencingRow c).getD (phaseColumn p) none

/-- The error codes a command can report, `OK` left out (60_exceptions.md R281). -/
def reportable : Command → List ErrCode
  | .init => [.invalidKeyLength, .accessError]
  | .setiv => [.unsupportedIvLength, .protocolOrderError, .accessError]
  | .aad => [.protocolOrderError, .lengthLimitExceeded, .accessError]
  | .enc => [.protocolOrderError, .lengthLimitExceeded, .accessError]
  | .dec => [.protocolOrderError, .lengthLimitExceeded, .accessError]
  | .finish => [.protocolOrderError, .accessError]
  | .verify => [.protocolOrderError, .authenticationFailure, .accessError, .invalidTagLength]

/-- The range a command reads and the range it writes (20_memory.md R63); an empty one stands for
none. -/
def ranges (c : Command) (s : State) : List Range :=
  [⟨s.src.toNat, readLength c s, .read⟩, ⟨s.dst.toNat, writeLength c s, .write⟩]

/-- `s` after an error report: `ERR` and `MATCH` written, nothing else (60_exceptions.md R283). -/
def reports (e : ErrCode) (s : State) : State := { s with err := e, matched := false }

/-- A key schedule by its recurrence (40_aes_core.md R125): `Nr` and the round keys are those of some
words `w` whose first `Nk` are the key's and whose later ones come from `w[i-1]` and `w[i-Nk]`. -/
def isSchedule (key : List Byte) (k : RoundKeys) : Prop :=
  k.nr.toNat = key.length / 4 + 6 ∧ k.rk.length = key.length / 4 + 7 ∧
  ∃ w : Nat → Word32,
    (∀ i < key.length / 4, w i = wordOfBytes ((key.drop (4 * i)).take 4)) ∧
    (∀ i, key.length / 4 ≤ i → i < 4 * (key.length / 4 + 7) →
      w i = w (i - key.length / 4) ^^^
        (if i % (key.length / 4) = 0 then
          xorFirstByte (subWord (rotWord (w (i - 1)))) (rcon (i / (key.length / 4)))
        else if key.length / 4 = 8 ∧ i % (key.length / 4) = 4 then subWord (w (i - 1))
        else w (i - 1))) ∧
    ∀ r ≤ k.nr.toNat, k.key r = w (4 * r) ++ w (4 * r + 1) ++ w (4 * r + 2) ++ w (4 * r + 3)

/-- The cipher's state after round `r` of 40_aes_core.md R130, the last round left out. -/
def cipherState (k : RoundKeys) (b : Block) : Nat → Block
  | 0 => addRoundKey b (k.key 0)
  | r + 1 => addRoundKey (mixColumns (shiftRows (subBytes (cipherState k b r)))) (k.key (r + 1))

/-- The keystream byte for byte `j` of a string of whole blocks that starts at counter block `y`: block
`j div 16` is encrypted under the counter value `y.ctr + j div 16` modulo 2^32, under the same fixed
field (42_ctr_bulk.md R175). -/
def keystreamByte (k : RoundKeys) (y : Block) (j : Nat) : Byte :=
  byteAt (encryptBlock k (counterBlock (fixedField y) (ctrField y + BitVec.ofNat 32 (j / 16)))) (j % 16)

/-- A string under the keystream of whole blocks from counter block `y` on. -/
def underKeystream (k : RoundKeys) (y : Block) (s : List Byte) : List Byte :=
  s.mapIdx fun j b => b ^^^ keystreamByte k y j

/-- The counter block `n` blocks on: the counter field advanced modulo 2^32, the fixed field kept
(42_ctr_bulk.md R171). -/
def advance (y : Block) (n : Nat) : Block := counterBlock (fixedField y) (ctrField y + BitVec.ofNat 32 n)

/-- A command issued on consecutive pieces of its buffers: the host advances `SRC` and `DST` itself
(20_memory.md R63). `none` where a piece is not accepted. -/
def feed (i : Instr) : List Word64 → State → Option State
  | [], s => some s
  | n :: ns, s =>
    match exec i { s with len := n } with
    | .next t => if t.err = .ok then feed i ns { t with src := t.src + n, dst := t.dst + n } else none
    | _ => none

/-- Byte `i` of a counter block, bits `127 - 8i` to `120 - 8i`, is byte `i` of the IV at `SRC`, for the 12
bytes of the IV (10_state.md R21, 44_setup.md R212). -/
def holdsIv (y : Block) (s : State) : Prop :=
  ∀ i < 12, y.extractLsb' (120 - 8 * i) 8 = s.mem.read (s.src.toNat + i)

end Sys2Proof.Spec

open Sys2Proof.Spec

/-! ## Encoding and fetch -/

/-- A code decodes to an instruction exactly when it is that instruction's code (30_encoding.md R93, R95):
decode and encode agree for every well-formed instruction, and no other code names it. -/
def Obligations.DecodeIffEncode : Prop :=
  ∀ (c : Code) (i : Instr), decode c = .ok i ↔ i.wf = true ∧ c = encode i

/-- The fifteen rows of the opcode table decode to their instructions, and neighbours of theirs to
none (30_encoding.md R93 to R95). -/
def Obligations.TableRowsDecode : Prop :=
  [decodeTableWord 32 1, decodeTableWord 32 2, decodeTableWord 32 3, decodeTableWord 32 4,
    decodeTableWord 32 5, decodeTableWord 32 6, decodeTableWord 32 7] =
    [some .init, some .setiv, some .aad, some .enc, some .dec, some .finish, some .verify] ∧
  [decodeTableWord 8 0x10, decodeTableWord 8 0x11, decodeTableWord 8 0x20, decodeTableWord 8 0x21,
    decodeTableWord 8 0x22, decodeTableWord 8 0x30, decodeTableWord 8 0x31, decodeTableWord 8 0x32] =
    [some .aesExpand, some .aesEncrypt, some .ghashBuild, some .ghashMul, some .ghashMulrange,
      some .ctrBlocks, some .bulkEnc, some .bulkDec] ∧
  [decodeTableWord 32 0, decodeTableWord 32 8, decodeTableWord 32 0x13, decodeTableWord 32 0x80000001,
    decodeTableWord 8 0x12, decodeTableWord 8 0x23, decodeTableWord 8 0x33] = List.replicate 7 none

/-- A step runs the decoded instruction: a 32-bit write of a command's word to `CMD` executes that
command, in the state without the event (10_state.md R41, 43_sequencing.md R190; the queue of events
is the model's own, log 1). -/
def Obligations.StepRunsWrittenCommand : Prop :=
  ∀ (s : State) (es : List HostEvent) (v : Word32) (i : Instr),
    s.pending = .windowWrite s.cfg.regBase .word v :: es → decode (.command v) = .ok i →
    step s = exec i { s with pending := es }

/-- A step runs the decoded instruction: a format P code presented with its operands executes that
request, with the operands at the port (30_encoding.md R95; the port's event is the model's own, log
12). -/
def Obligations.StepRunsPresentedRequest : Prop :=
  ∀ (s : State) (es : List HostEvent) (c : Byte) (o : RequestOps) (i : Instr),
    s.pending = .request c o :: es → decode (.request c) = .ok i →
    step s = exec i { s with pending := es, port := { s.port with ops := o } }

/-- A row's bits placed by `withFetchWord` are what the very next step runs (log 1). -/
def Obligations.FetchWordRunsNext : Prop :=
  ∀ (s : State) (nbits w : Nat) (i : Instr),
    decodeTableWord nbits w = some i → step (s.withFetchWord nbits w) = exec i s

/-- A `CMD` word that names no command raises `IllegalCommand` and changes nothing else; a format P code
other than the eight has no behaviour, and the model refuses it (30_encoding.md R94). -/
def Obligations.UnnamedCodesRaiseOrStop : Prop :=
  (∀ (s : State) (es : List HostEvent) (v : Word32),
    s.pending = .windowWrite s.cfg.regBase .word v :: es →
    (v.extractLsb' 4 28 ≠ 0 ∨ (v.extractLsb' 0 4).toNat = 0 ∨ 8 ≤ (v.extractLsb' 0 4).toNat) →
    step s = .next (reports .illegalCommand { s with pending := es })) ∧
  (∀ (s : State) (es : List HostEvent) (c : Byte) (o : RequestOps),
    s.pending = .request c o :: es →
    c ∉ ([0x10, 0x11, 0x20, 0x21, 0x22, 0x30, 0x31, 0x32] : List Byte) →
    step s = .refused .undefinedRequest)

/-! ## The checks and the outcome of a command -/

/-- Every command follows the table of 43_sequencing.md R195: where the cell says `order` it reports
`ProtocolOrderError` and changes nothing else; where the cell names a phase it never reports that
error, it leaves that phase when it passes every check, and it leaves `PHASE` alone when a later check
rejects it. -/
def Obligations.PhaseTableFollowed : Prop :=
  ∀ (c : Command) (s : State),
    (sequencing c s.phase = none → exec c.instr s = .next (reports .protocolOrderError s)) ∧
    ∀ p t, sequencing c s.phase = some p → exec c.instr s = .next t →
      t.err ≠ .protocolOrderError ∧
      t.phase = if t.err = .ok ∨ t.err = .authenticationFailure then p else s.phase

/-- Step 3 of 43_sequencing.md R190: in a phase that admits the command, a length outside the command's
own rule is reported, whatever the ranges are, and nothing else changes. The sums are over the
unbounded integers. -/
def Obligations.LengthChecksReported : Prop :=
  ∀ s : State,
    (¬ (s.len.toNat = 16 ∨ s.len.toNat = 24 ∨ s.len.toNat = 32) →
      exec .init s = .next (reports .invalidKeyLength s)) ∧
    (s.phase ≠ .reset → s.len.toNat ≠ 12 → exec .setiv s = .next (reports .unsupportedIvLength s)) ∧
    (s.phase = .aad → s.cfg.aadMaxBits.toNat < s.ctx.aadLenBits.toNat + 8 * s.len.toNat →
      exec .aad s = .next (reports .lengthLimitExceeded s)) ∧
    (s.phase = .aad ∨ s.phase = .enc →
      s.cfg.dataMaxBits.toNat < s.ctx.dataLenBits.toNat + 8 * s.len.toNat →
      exec .enc s = .next (reports .lengthLimitExceeded s)) ∧
    (s.phase = .aad ∨ s.phase = .dec →
      s.cfg.dataMaxBits.toNat < s.ctx.dataLenBits.toNat + 8 * s.len.toNat →
      exec .dec s = .next (reports .lengthLimitExceeded s)) ∧
    (s.phase.inSession = true → s.len.toNat = 0 ∨ 16 < s.len.toNat →
      exec .verify s = .next (reports .invalidTagLength s))

/-- Admission of ranges (20_memory.md R64): a command in its phase and with its length in order reports
`AccessError`, and changes no state and no memory, when a non-empty range of it wraps past 2^64 or
is not admitted by the platform. -/
def Obligations.UnadmittedRangesRejected : Prop :=
  ∀ (c : Command) (s : State) (p : Phase) (g : Range),
    sequencing c s.phase = some p → lengthError c s = none → g ∈ ranges c s → g.len ≠ 0 →
    (2 ^ 64 < g.addr + g.len ∨ platformAdmits s.cfg g = false) →
    exec c.instr s = .next (reports .accessError s)

/-- Overlap (20_memory.md R65): an `ENC` or `DEC` whose two ranges overlap without being identical reports
`AccessError` and changes nothing else. -/
def Obligations.PartialOverlapRejected : Prop :=
  ∀ (dir : Dir) (s : State),
    (s.phase = .aad ∨ s.phase = dir.phase) →
    s.ctx.dataLenBits.toNat + 8 * s.len.toNat ≤ s.cfg.dataMaxBits.toNat →
    s.src ≠ s.dst → s.src.toNat < s.dst.toNat + s.len.toNat → s.dst.toNat < s.src.toNat + s.len.toNat →
    exec dir.command.instr s = .next (reports .accessError s)

/-- An admitted range over the block's own window has no meaning (20_memory.md R68, U23): a command whose
checks pass is then refused by name. -/
def Obligations.OwnWindowRangeStops : Prop :=
  ∀ (c : Command) (s : State) (p : Phase) (g : Range),
    sequencing c s.phase = some p → lengthError c s = none →
    (∀ g ∈ ranges c s, g.len = 0 ∨ (g.addr + g.len ≤ 2 ^ 64 ∧ platformAdmits s.cfg g = true)) →
    (c = .enc ∨ c = .dec → identicalOrDisjoint s) →
    g ∈ ranges c s → g.len ≠ 0 → g.addr < s.cfg.regBase + 32 → s.cfg.regBase < g.addr + g.len →
    exec c.instr s = .refused .ownWindowRange

/-- A rejected command writes `ERR` and clears `MATCH`, changes nothing else, and reads no data memory:
over any other data memory it is rejected the same way (43_sequencing.md R191, 60_exceptions.md
R283). -/
def Obligations.RejectionChangesOnlyStatus : Prop :=
  ∀ (c : Command) (s t : State),
    exec c.instr s = .next t → t.err ≠ .ok → t.err ≠ .authenticationFailure →
    ∀ m : Memory, exec c.instr { s with mem := m } = .next (reports t.err { s with mem := m })

/-- A command reports `OK` or a code that 60_exceptions.md R281 lists for it, and a primitive request
writes no code. -/
def Obligations.OnlyListedCodesReported : Prop :=
  (∀ (c : Command) (s t : State), exec c.instr s = .next t → t.err = .ok ∨ t.err ∈ reportable c) ∧
  (∀ (i : Instr) (s t : State), commandOfInstr i = none → exec i s = .next t → t.err = s.err)

/-- No command's behaviour depends on `ERR` or `MATCH` (10_state.md R48): whatever they held, the outcome
is the same. -/
def Obligations.FlagsNotRead : Prop :=
  ∀ (c : Command) (s : State) (e : ErrCode) (m : Bool),
    exec c.instr { s with err := e, matched := m } = exec c.instr s

/-- `MATCH` is 1 if and only if the command was a `VERIFY` that reported `OK` (10_state.md R42, R48). -/
def Obligations.MatchOnlyAfterVerify : Prop :=
  ∀ (c : Command) (s t : State),
    exec c.instr s = .next t → (t.matched = true ↔ c = .verify ∧ t.err = .ok)

/-! ## The register window -/

/-- `SRC`, `DST` and `LEN` (10_state.md R46): no instruction writes them, and a host write of one half
leaves the other half and the other registers unchanged. -/
def Obligations.OperandRegistersKept : Prop :=
  (∀ (i : Instr) (s t : State),
    exec i s = .next t → t.src = s.src ∧ t.dst = s.dst ∧ t.len = s.len) ∧
  (∀ (s : State) (es : List HostEvent) (v : Word32),
    (s.pending = .windowWrite (s.cfg.regBase + 0x08) .word v :: es →
      step s = .next { s with pending := es, src := s.src.extractLsb' 32 32 ++ v }) ∧
    (s.pending = .windowWrite (s.cfg.regBase + 0x0C) .word v :: es →
      step s = .next { s with pending := es, src := v ++ s.src.extractLsb' 0 32 }) ∧
    (s.pending = .windowWrite (s.cfg.regBase + 0x10) .word v :: es →
      step s = .next { s with pending := es, dst := s.dst.extractLsb' 32 32 ++ v }) ∧
    (s.pending = .windowWrite (s.cfg.regBase + 0x14) .word v :: es →
      step s = .next { s with pending := es, dst := v ++ s.dst.extractLsb' 0 32 }) ∧
    (s.pending = .windowWrite (s.cfg.regBase + 0x18) .word v :: es →
      step s = .next { s with pending := es, len := s.len.extractLsb' 32 32 ++ v }) ∧
    (s.pending = .windowWrite (s.cfg.regBase + 0x1C) .word v :: es →
      step s = .next { s with pending := es, len := v ++ s.len.extractLsb' 0 32 }))

/-- A host read of the window (10_state.md R40 to R45) changes nothing but the value handed to the host
(the model's own field, log 14): 0 for `CMD`, and the halves of `SRC`, `DST`, `LEN`. -/
def Obligations.WindowReadsReturn : Prop :=
  ∀ (s : State) (es : List HostEvent),
    (s.pending = .windowRead s.cfg.regBase .word :: es →
      step s = .next { s with pending := es, hostData := 0 }) ∧
    (s.pending = .windowRead (s.cfg.regBase + 0x08) .word :: es →
      step s = .next { s with pending := es, hostData := s.src.extractLsb' 0 32 }) ∧
    (s.pending = .windowRead (s.cfg.regBase + 0x0C) .word :: es →
      step s = .next { s with pending := es, hostData := s.src.extractLsb' 32 32 }) ∧
    (s.pending = .windowRead (s.cfg.regBase + 0x10) .word :: es →
      step s = .next { s with pending := es, hostData := s.dst.extractLsb' 0 32 }) ∧
    (s.pending = .windowRead (s.cfg.regBase + 0x14) .word :: es →
      step s = .next { s with pending := es, hostData := s.dst.extractLsb' 32 32 }) ∧
    (s.pending = .windowRead (s.cfg.regBase + 0x18) .word :: es →
      step s = .next { s with pending := es, hostData := s.len.extractLsb' 0 32 }) ∧
    (s.pending = .windowRead (s.cfg.regBase + 0x1C) .word :: es →
      step s = .next { s with pending := es, hostData := s.len.extractLsb' 32 32 })

/-- `STATUS` as the host sees it (10_state.md R42): the number of the outcome (60_exceptions.md R280), `MATCH`
and the number of `PHASE` (10_state.md R35) at their places, the reserved bits 0; a read has no other
effect and a write is ignored. -/
def Obligations.StatusRegisterLayout : Prop :=
  ∀ (s : State) (es : List HostEvent),
    (s.pending = .windowRead (s.cfg.regBase + 0x04) .word :: es →
      ∃ w : Word32, step s = .next { s with pending := es, hostData := w } ∧
        (s.err, (w.extractLsb' 0 4).toNat) ∈
          [(ErrCode.ok, 0), (.invalidKeyLength, 1), (.unsupportedIvLength, 2), (.protocolOrderError, 3),
            (.lengthLimitExceeded, 4), (.authenticationFailure, 5), (.illegalCommand, 6), (.accessError, 7),
            (.invalidTagLength, 8)] ∧
        (w.getLsbD 4 = s.matched) ∧ w.extractLsb' 5 3 = 0 ∧
        (s.phase, (w.extractLsb' 8 3).toNat) ∈
          [(Phase.reset, 0), (.keyed, 1), (.aad, 2), (.enc, 3), (.dec, 4), (.done, 5)] ∧
        w.extractLsb' 11 21 = 0) ∧
    (∀ v : Word32, s.pending = .windowWrite (s.cfg.regBase + 0x04) .word v :: es →
      step s = .next { s with pending := es })

/-- An access of another width, at another alignment, or outside the window's 32 bytes is not an access to
this block, and the model refuses it (10_state.md R47). -/
def Obligations.OtherAccessesRefused : Prop :=
  ∀ (s : State) (es : List HostEvent) (a : Nat) (w : AccessWidth) (v : Word32),
    (w ≠ .word ∨ a < s.cfg.regBase ∨ (a - s.cfg.regBase) % 4 ≠ 0 ∨ 0x20 ≤ a - s.cfg.regBase) →
    (s.pending = .windowWrite a w v :: es ∨ s.pending = .windowRead a w :: es) →
    step s = .refused .notAWindowAccess

/-- No register of the context can be read through the window (10_state.md R20, 60_exceptions.md R298):
what a host read returns, and where it leaves the rest of the machine, is the same for every
context. -/
def Obligations.ContextHiddenFromWindow : Prop :=
  ∀ (s : State) (es : List HostEvent) (a : Nat) (w : AccessWidth) (c : Context),
    s.pending = .windowRead a w :: es →
    step { s with ctx := c } = match step s with
      | .next t => .next { t with ctx := c }
      | .fault f => .fault f
      | .refused r => .refused r

/-! ## Setup and AAD -/

/-- `INIT` with a key of a legal length at a usable address (44_setup.md R210): `roundKeys` and `hTable`
are those of the key, `PHASE` is `P_KEYED`, and nothing else changes. -/
def Obligations.InitLoadsKey : Prop :=
  ∀ s : State,
    (s.len.toNat = 16 ∨ s.len.toNat = 24 ∨ s.len.toNat = 32) →
    usable s.cfg ⟨s.src.toNat, s.len.toNat, .read⟩ →
    exec .init s = .next
      { s with
        phase := .keyed, err := .ok, matched := false,
        ctx :=
          { s.ctx with
            roundKeys := expandKey (s.mem.readBytes s.src.toNat s.len.toNat),
            hTable := ghashBuild (encryptBlock (expandKey (s.mem.readBytes s.src.toNat s.len.toNat)) 0) } }

/-- `SETIV` with 12 usable bytes and a key loaded (44_setup.md R212): `EK0` is the block of the IV bytes at
`SRC` and the counter 1 encrypted, `Y` is that of the IV bytes and the counter 2, the per-message
registers are 0, `PHASE` is `P_AAD`, and nothing else changes. -/
def Obligations.SetivStartsMessage : Prop :=
  ∀ s : State,
    s.phase ≠ .reset → s.len.toNat = 12 → usable s.cfg ⟨s.src.toNat, 12, .read⟩ →
    ∃ y1 y2 : Block,
      holdsIv y1 s ∧ y1.extractLsb' 0 32 = 1 ∧ holdsIv y2 s ∧ y2.extractLsb' 0 32 = 2 ∧
      exec .setiv s = .next
        { s with
          phase := .aad, err := .ok, matched := false,
          ctx :=
            { s.ctx with
              y := y2, ek0 := encryptBlock s.ctx.roundKeys y1, x := 0, aadLenBits := 0, dataLenBits := 0,
              aadResidue := 0, dataResidue := 0 } }

/-- `AAD` in `P_AAD` within the ceiling (45_aad.md R220): the bytes are absorbed one after another, at the
residue, each full block multiplied; the length counts them; nothing else changes. -/
def Obligations.AadAbsorbsBytes : Prop :=
  ∀ s : State,
    s.phase = .aad → s.ctx.aadLenBits.toNat + 8 * s.len.toNat ≤ s.cfg.aadMaxBits.toNat →
    usable s.cfg ⟨s.src.toNat, s.len.toNat, .read⟩ →
    exec .aad s = .next
      { s with
        err := .ok, matched := false,
        ctx :=
          { s.ctx with
            aadLenBits := BitVec.ofNat 64 (s.ctx.aadLenBits.toNat + 8 * s.len.toNat),
            x := (absorb s.ctx.hTable ⟨s.ctx.x, s.ctx.aadResidue⟩
              (s.mem.readBytes s.src.toNat s.len.toNat)).x,
            aadResidue := (absorb s.ctx.hTable ⟨s.ctx.x, s.ctx.aadResidue⟩
              (s.mem.readBytes s.src.toNat s.len.toNat)).residue } }

/-! ## Data -/

/-- `ENC` and `DEC` in their phases, within the ceiling, with usable ranges that are identical or disjoint
(46_data.md R230 to R241): the output at `DST`, `Y`, `X` and `dataResidue` are those of the bytes run
one after another, after a pending AAD block is closed; `EKi` is the open block's keystream when a
block is left open, and no claim is made of it otherwise; nothing else changes. -/
def Obligations.DataCommandRunsStream : Prop :=
  ∀ (dir : Dir) (s : State),
    (s.phase = .aad ∨ s.phase = dir.phase) →
    s.ctx.dataLenBits.toNat + 8 * s.len.toNat ≤ s.cfg.dataMaxBits.toNat →
    usable s.cfg ⟨s.src.toNat, s.len.toNat, .read⟩ → usable s.cfg ⟨s.dst.toNat, s.len.toNat, .write⟩ →
    (s.len.toNat = 0 ∨ identicalOrDisjoint s) →
    ∃ e : Block, ∃ r : List Byte × Stream,
      r = streamBytes dir s.ctx.roundKeys s.ctx.hTable
        ⟨s.ctx.y, s.ctx.eki,
          ⟨if s.ctx.aadResidue = 0 then s.ctx.x else ghashMul s.ctx.x s.ctx.hTable, s.ctx.dataResidue⟩⟩
        (s.mem.readBytes s.src.toNat s.len.toNat) ∧
      (r.2.acc.residue ≠ 0 → e = r.2.eki) ∧
      exec dir.command.instr s = .next
        { s with
          phase := dir.phase, err := .ok, matched := false, mem := s.mem.writeBytes s.dst.toNat r.1,
          ctx :=
            { s.ctx with
              y := r.2.y, x := r.2.acc.x, eki := e,
              dataLenBits := BitVec.ofNat 64 (s.ctx.dataLenBits.toNat + 8 * s.len.toNat),
              aadResidue := 0, dataResidue := r.2.acc.residue } }

/-- The closed form of a session's output (46_data.md R242): in a session, byte `j` of an accepted `ENC`
or `DEC`, which is data byte `dataLenBits/8 + j` of the session, is written as the input byte
exclusive-ored with the keystream byte of that number, whose block has counter value
`2 + (dataLenBits/8 + j) div 16` modulo 2^32. -/
def Obligations.SessionKeystreamClosedForm : Prop :=
  ∀ (dir : Dir) (s t : State) (j : Nat),
    s.Inv → s.phase.inSession = true → exec dir.command.instr s = .next t → t.err = .ok →
    j < s.len.toNat →
    t.mem.read (s.dst.toNat + j) =
      s.mem.read (s.src.toNat + j) ^^^
        byteAt
          (encryptBlock s.ctx.roundKeys
            (counterBlock (fixedField s.ctx.y)
              (BitVec.ofNat 32 (2 + (s.ctx.dataLenBits.toNat / 8 + j) / 16))))
          ((s.ctx.dataLenBits.toNat / 8 + j) % 16)

/-- Chunking invariance (45_aad.md R222, 46_data.md R242): `AAD`, `ENC` or `DEC` accepted on consecutive
pieces of its buffers, of any lengths, zero included, leaves the data memory, `PHASE` and every
register that can still be read as one accepted command on the whole does. -/
def Obligations.ChunkingInvariance : Prop :=
  ∀ (c : Command) (ns : List Word64) (s t u : State),
    (c = .aad ∨ c = .enc ∨ c = .dec) → ns ≠ [] → s.mem.wf → (ns.map BitVec.toNat).sum < 2 ^ 64 →
    feed c.instr ns s = some t →
    exec c.instr { s with len := BitVec.ofNat 64 (ns.map BitVec.toNat).sum } = .next u → u.err = .ok →
    t.mem = u.mem ∧ t.phase = u.phase ∧ liveAgree u.phase t.ctx u.ctx

/-- The outcome of step D does not depend on `BULK_MIN_BLOCKS`, on `bulkTake`, or on how many bulk
requests were made (46_data.md R237): the controller's loop gives the output, `Y` and `X` of
`Blocks`, at every counter value. -/
def Obligations.DispatcherComputesBlocks : Prop :=
  ∀ (cfg : Config) (dir : Dir) (k : RoundKeys) (h : Block) (n : Nat) (s : List Byte) (y x : Block),
    s.length = 16 * n → wholeBlocks cfg dir k h n s y x = blocks dir k h n s y x

/-- `Blocks` is counter mode over one continuous counter modulo 2^32 (42_ctr_bulk.md R175): its output is
the input under that keystream, the counter field advances by the number of blocks with the fixed
field kept, and the accumulator absorbs the ciphertext. -/
def Obligations.BlocksUseContinuousCounter : Prop :=
  ∀ (dir : Dir) (k : RoundKeys) (h : Block) (n : Nat) (s : List Byte) (y x : Block),
    s.length = 16 * n →
    (blocks dir k h n s y x).out = underKeystream k y s ∧
    (blocks dir k h n s y x).y = advance y n ∧
    (⟨(blocks dir k h n s y x).x, 0⟩ : Absorber) =
      absorb h ⟨x, 0⟩ (cipherOf dir s (underKeystream k y s))

/-- Round trip (47_finish.md R267): a receiver in the context the sender had decrypts what an `ENC` wrote
to the plaintext, and is left with the context the sender has, so that both compute the same tag. -/
def Obligations.DecryptUndoesEncrypt : Prop :=
  ∀ (s t u v : State),
    s.mem.wf → s.phase = .aad → exec .enc s = .next t → t.err = .ok →
    u = { s with mem := t.mem, src := s.dst, dst := u.dst } →
    exec .dec u = .next v → v.err = .ok →
    v.mem.readBytes u.dst.toNat u.len.toNat = s.mem.readBytes s.src.toNat s.len.toNat ∧
    liveAgree .enc v.ctx t.ctx ∧ tagOf v.ctx = tagOf t.ctx

/-- `Y.fixed` is the 12 bytes the last successful `SETIV` loaded (10_state.md R29): after a successful `SETIV`
byte `i` of `Y` is the byte at `SRC + i`, for `i` below 12 (R21), and after any other instruction, and
after a `SETIV` that is rejected, the 96 bits are as before. -/
def Obligations.FixedFieldKept : Prop :=
  ∀ (i : Instr) (s t : State), exec i s = .next t →
    (i = .setiv ∧ t.err = .ok → holdsIv t.ctx.y s) ∧
    (¬ (i = .setiv ∧ t.err = .ok) → t.ctx.y.extractLsb' 32 96 = s.ctx.y.extractLsb' 32 96)

/-- A command with `LEN = 0` that takes a length (20_memory.md R75): at any `SRC` and `DST`, over any data
memory and platform, it succeeds and touches no memory; `AAD` changes nothing but the status, `ENC` and
`DEC` close a pending AAD block and take their phase. -/
def Obligations.ZeroLengthCommands : Prop :=
  ∀ s : State, s.len = 0 →
    (s.phase = .aad → s.ctx.aadLenBits.toNat ≤ s.cfg.aadMaxBits.toNat →
      exec .aad s = .next { s with err := .ok, matched := false }) ∧
    ∀ dir : Dir, (s.phase = .aad ∨ s.phase = dir.phase) →
      s.ctx.dataLenBits.toNat ≤ s.cfg.dataMaxBits.toNat →
      exec dir.command.instr s = .next
        { s with
          phase := dir.phase, err := .ok, matched := false,
          ctx :=
            { s.ctx with
              x := if s.ctx.aadResidue = 0 then s.ctx.x else ghashMul s.ctx.x s.ctx.hTable,
              aadResidue := 0 } }

/-- The length counters never wrap (10_state.md R25): an accepted `AAD`, `ENC` or `DEC` adds exactly
`8*LEN` to its counter and stays within its ceiling. -/
def Obligations.LengthCountersNeverWrap : Prop :=
  ∀ s t : State,
    (exec .aad s = .next t → t.err = .ok →
      t.ctx.aadLenBits.toNat = s.ctx.aadLenBits.toNat + 8 * s.len.toNat ∧
      t.ctx.aadLenBits.toNat ≤ s.cfg.aadMaxBits.toNat) ∧
    ∀ dir : Dir, exec dir.command.instr s = .next t → t.err = .ok →
      t.ctx.dataLenBits.toNat = s.ctx.dataLenBits.toNat + 8 * s.len.toNat ∧
      t.ctx.dataLenBits.toNat ≤ s.cfg.dataMaxBits.toNat

/-! ## Completion -/

/-- `FINISH` in a session with 16 usable bytes at `DST` (47_finish.md R260, R262): a pending block is
closed by one multiply, the length block is absorbed, the tag `X ^ EK0` is written at `DST`, `PHASE`
is `P_DONE`, and nothing else changes. -/
def Obligations.FinishWritesTag : Prop :=
  ∀ s : State,
    s.phase.inSession = true → usable s.cfg ⟨s.dst.toNat, 16, .write⟩ →
    ∃ x1 x2 : Block,
      x1 = (if s.ctx.dataResidue ≠ 0 ∨ s.ctx.aadResidue ≠ 0 then gmul s.ctx.x s.ctx.hTable else s.ctx.x) ∧
      x2 = gmul (x1 ^^^ (s.ctx.aadLenBits ++ s.ctx.dataLenBits)) s.ctx.hTable ∧
      exec .finish s = .next
        { s with
          phase := .done, err := .ok, matched := false, ctx := { s.ctx with x := x2 },
          mem := s.mem.writeBytes s.dst.toNat (bytesOfBlock (x2 ^^^ s.ctx.ek0)) }

/-- `VERIFY` in a session with a legal length and usable bytes at `SRC` (47_finish.md R264): the tag of
`FINISH` is computed, `MATCH` is set exactly when its first `LEN` bytes are those at `SRC`, otherwise
`AuthenticationFailure` is reported; `X` and `PHASE` are written either way, and nothing else. -/
def Obligations.VerifyComparesTag : Prop :=
  ∀ s : State,
    s.phase.inSession = true → 1 ≤ s.len.toNat → s.len.toNat ≤ 16 →
    usable s.cfg ⟨s.src.toNat, s.len.toNat, .read⟩ →
    ∃ x1 x2 : Block,
      x1 = (if s.ctx.dataResidue ≠ 0 ∨ s.ctx.aadResidue ≠ 0 then gmul s.ctx.x s.ctx.hTable else s.ctx.x) ∧
      x2 = gmul (x1 ^^^ (s.ctx.aadLenBits ++ s.ctx.dataLenBits)) s.ctx.hTable ∧
      exec .verify s = .next
        (if (bytesOfBlock (x2 ^^^ s.ctx.ek0)).take s.len.toNat = s.mem.readBytes s.src.toNat s.len.toNat then
          { s with phase := .done, err := .ok, matched := true, ctx := { s.ctx with x := x2 } }
        else
          { s with
            phase := .done, err := .authenticationFailure, matched := false,
            ctx := { s.ctx with x := x2 } })

/-! ## The units -/

/-- `AES.EXPAND` on a key of 16, 24 or 32 bytes (40_aes_core.md R125): the result is the key's schedule,
by its recurrence, and nothing else changes. -/
def Obligations.AesExpandGivesSchedule : Prop :=
  ∀ s : State,
    (s.port.ops.key.length = 16 ∨ s.port.ops.key.length = 24 ∨ s.port.ops.key.length = 32) →
    ∃ k : RoundKeys, isSchedule s.port.ops.key k ∧
      exec .aesExpand s = .next { s with port := { s.port with res := { s.port.res with roundKeys := k } } }

/-- `AES.ENCRYPT` (40_aes_core.md R130): the result is the last round, without `MixColumns`, on the state
after `Nr - 1` rounds, and nothing else changes. -/
def Obligations.AesEncryptRunsRounds : Prop :=
  ∀ s : State,
    exec .aesEncrypt s = .next
      { s with
        port :=
          { s.port with
            res :=
              { s.port.res with
                block :=
                  addRoundKey
                    (shiftRows (subBytes
                      (cipherState s.port.ops.roundKeys s.port.ops.b (s.port.ops.roundKeys.nr.toNat - 1))))
                    (s.port.ops.roundKeys.key s.port.ops.roundKeys.nr.toNat) } } }

/-- The value the source fixes of the AES core (40_aes_core.md R132). -/
def Obligations.AesKnownAnswer : Prop :=
  encryptBlock (expandKey (List.replicate 16 0)) 1 = 0x58e2fccefa7e3061367f1d57a4e7455a

/-- The round functions byte by byte (40_aes_core.md R126 to R129): `SubBytes`, `ShiftRows`, `MixColumns`
with the products of R121, and `AddRoundKey`. -/
def Obligations.RoundFunctionsByByte : Prop :=
  ∀ s k : Block,
    (∀ i < 16, byteAt (subBytes s) i = subByte (byteAt s i)) ∧
    (∀ r < 4, ∀ c < 4, byteAt (shiftRows s) (r + 4 * c) = byteAt s (r + 4 * ((c + r) % 4))) ∧
    (∀ c < 4, ∀ a0 a1 a2 a3 : Byte,
      a0 = byteAt s (4 * c) → a1 = byteAt s (4 * c + 1) → a2 = byteAt s (4 * c + 2) →
      a3 = byteAt s (4 * c + 3) →
      byteAt (mixColumns s) (4 * c) = gf8Mul a0 2 ^^^ gf8Mul a1 3 ^^^ a2 ^^^ a3 ∧
      byteAt (mixColumns s) (4 * c + 1) = a0 ^^^ gf8Mul a1 2 ^^^ gf8Mul a2 3 ^^^ a3 ∧
      byteAt (mixColumns s) (4 * c + 2) = a0 ^^^ a1 ^^^ gf8Mul a2 2 ^^^ gf8Mul a3 3 ∧
      byteAt (mixColumns s) (4 * c + 3) = gf8Mul a0 3 ^^^ a1 ^^^ a2 ^^^ gf8Mul a3 2) ∧
    (∀ i < 16, byteAt (addRoundKey s k) i = byteAt s i ^^^ byteAt k i)

/-- The table of `S` is the substitution of its definition (40_aes_core.md R122, R123): the inverse in
GF(2^8), 0 for 0, under the affine map, bit by bit. -/
def Obligations.SboxIsInverseThenAffine : Prop :=
  ∀ v : Byte, ∃ u : Byte,
    (v = 0 → u = 0) ∧ (v ≠ 0 → gf8Mul u v = 1) ∧
    ∀ i < 8, (subByte v).getLsbD i =
      (u.getLsbD i ^^ u.getLsbD ((i + 4) % 8) ^^ u.getLsbD ((i + 5) % 8) ^^ u.getLsbD ((i + 6) % 8) ^^
        u.getLsbD ((i + 7) % 8) ^^ (0x63 : Byte).getLsbD i)

/-- `GHASH.BUILD` and `GHASH.MUL` (41_ghash.md R153, R154): on every block, a multiply with the table that
`GHASH.BUILD` gives for `h` is the product with `h`; each request writes its own result and nothing
else. -/
def Obligations.GhashBuildThenMultiply : Prop :=
  ∀ s : State, ∃ t : Block,
    exec .ghashBuild s = .next { s with port := { s.port with res := { s.port.res with hTable := t } } } ∧
    ∀ u : State, u.port.ops.hTable = t →
      exec .ghashMul u = .next
        { u with
          port := { u.port with res := { u.port.res with x := gmul u.port.ops.x s.port.ops.h } } }

/-- The laws of the product in GF(2^128) (41_ghash.md R152): commutative, distributive over exclusive-or,
0 and the block `80 00...00` as zero and unit, and associative. -/
def Obligations.GhashProductLaws : Prop :=
  ∀ a b c : Block,
    gmul a b = gmul b a ∧ gmul (a ^^^ c) b = gmul a b ^^^ gmul c b ∧ gmul 0 b = 0 ∧
    gmul 0x80000000000000000000000000000000 b = b ∧ gmul (gmul a b) c = gmul a (gmul b c)

/-- The table-driven multiply over the reference table of `h` is the product with `h` (41_ghash.md
R157). -/
def Obligations.TableMultiplyIsProduct : Prop :=
  ∀ x h : Block, tableMul (referenceTable h) x = gmul x h

/-- `GHASH.MULRANGE` on whole blocks (41_ghash.md R158): one exclusive-or and one multiply per block, and
nothing else changes. -/
def Obligations.GhashMulrangeFoldsBlocks : Prop :=
  ∀ (s : State) (bs : List Block),
    s.port.ops.s = bs.flatMap bytesOfBlock →
    exec .ghashMulrange s = .next
      { s with
        port :=
          { s.port with
            res :=
              { s.port.res with
                x := bs.foldl (fun x b => gmul (x ^^^ b) s.port.ops.hTable) s.port.ops.x } } }

/-- `CTR.BLOCKS` on whole blocks (42_ctr_bulk.md R173): the input under the keystream of one continuous
counter, the counter advanced by the number of blocks, and nothing else changes. -/
def Obligations.CtrBlocksRunsCounterMode : Prop :=
  ∀ (s : State) (n : Nat),
    s.port.ops.s.length = 16 * n →
    exec .ctrBlocks s = .next
      { s with
        port :=
          { s.port with
            res :=
              { s.port.res with
                out := underKeystream s.port.ops.roundKeys s.port.ops.y s.port.ops.s,
                y := advance s.port.ops.y n } } }

/-- `BULK.ENC` and `BULK.DEC` on `n` whole blocks that do not pass the wrap (42_ctr_bulk.md R176, R177): the
first `bulkTake n` blocks, at most `n`, give the output, the counter field and the accumulator of
`Blocks`; the fixed field returned is any value (R179); nothing else changes. R176 has `n` at least 1: that a
request on no block at all completes, having taken none, is the model's choice, log 24. -/
def Obligations.BulkRequestsProcessBlocks : Prop :=
  ∀ (dir : Dir) (s : State) (n : Nat),
    s.port.ops.s.length = 16 * n → n ≤ 2 ^ 32 - (ctrField s.port.ops.y).toNat →
    bulkTake s.cfg n ≤ n ∧
    ∃ (f : BitVec 96) (r : BlocksResult),
      r = blocks dir s.port.ops.roundKeys s.port.ops.hTable (bulkTake s.cfg n)
        (s.port.ops.s.take (16 * bulkTake s.cfg n)) s.port.ops.y s.port.ops.x ∧
      exec (match dir with | .enc => .bulkEnc | .dec => .bulkDec) s = .next
        { s with
          port :=
            { s.port with
              res :=
                { s.port.res with
                  out := r.out, y := counterBlock f (ctrField r.y), x := r.x, consumed := 16 * bulkTake s.cfg n } } }

/-- Three cases of operands that the controller never gives and that have no meaning are refused: a key of
another length (40_aes_core.md R125), a string that is not whole blocks (41_ghash.md R158, 42_ctr_bulk.md
R173, R176), a bulk request past the counter wrap (R178, U3). The refusal is the model's rendering (log 13);
the empty string (log 24) and a schedule that lacks round keys (log 26) are not refused. -/
def Obligations.RequestsOutsideDomainStop : Prop :=
  ∀ s : State,
    (¬ (s.port.ops.key.length = 16 ∨ s.port.ops.key.length = 24 ∨ s.port.ops.key.length = 32) →
      exec .aesExpand s = .refused .requestOutsideDomain) ∧
    (s.port.ops.s.length % 16 ≠ 0 →
      exec .ghashMulrange s = .refused .requestOutsideDomain ∧
      exec .ctrBlocks s = .refused .requestOutsideDomain) ∧
    (s.port.ops.s.length % 16 ≠ 0 ∨
        2 ^ 32 - (ctrField s.port.ops.y).toNat < s.port.ops.s.length / 16 →
      exec .bulkEnc s = .refused .requestOutsideDomain ∧
      exec .bulkDec s = .refused .requestOutsideDomain)

/-- A primitive request changes nothing but the results at the units' port (the port is the model's own,
log 12): no register of the block, no byte of the data memory (20_memory.md R63). -/
def Obligations.RequestsChangeOnlyResults : Prop :=
  ∀ (i : Instr) (s t : State), commandOfInstr i = none → exec i s = .next t →
    t = { s with port := { s.port with res := t.port.res } }

/-- Counter arithmetic (42_ctr_bulk.md R171, R172): `inc32` adds 1 modulo 2^32 to the counter field and
keeps the fixed field; `blocksUntilWrap` is between 1 and 2^32 and is the first positive number of
`inc32` steps after which the counter field is 0. -/
def Obligations.CounterArithmetic : Prop :=
  ∀ y : Block,
    fixedField (inc32 y) = fixedField y ∧
    (ctrField (inc32 y)).toNat = ((ctrField y).toNat + 1) % 2 ^ 32 ∧
    blocksUntilWrap y + (ctrField y).toNat = 2 ^ 32 ∧ 1 ≤ blocksUntilWrap y ∧
    blocksUntilWrap y ≤ 2 ^ 32 ∧ ctrField (inc32^[blocksUntilWrap y] y) = 0 ∧
    ∀ j, 0 < j → j < blocksUntilWrap y → ctrField (inc32^[j] y) ≠ 0

/-! ## The whole machine -/

/-- What `State.reset` is where 10_state.md R55 gives a value: `P_RESET`, `STATUS` 0, `SRC`, `DST`, `LEN`
0. (No claim is made of the registers the rule leaves unspecified.) -/
def Obligations.ResetValues : Prop :=
  State.reset.phase = .reset ∧ statusWord State.reset = 0 ∧ State.reset.src = 0 ∧ State.reset.dst = 0 ∧
  State.reset.len = 0

/-- The reset event (70_reset_and_hazards.md R320): `P_RESET`, `STATUS` 0, `SRC`, `DST`, `LEN` 0, the
context registers whatever they are (a free value, log 3), the data memory untouched. -/
def Obligations.ResetEventEffect : Prop :=
  ∀ (s : State) (es : List HostEvent), s.pending = .reset :: es →
    ∃ c : Context, step s = .next
      { s with
        pending := es, phase := .reset, err := .ok, matched := false, src := 0, dst := 0, len := 0,
        ctx := c, resets := s.resets + 1 }

/-- With nothing asked of it the block holds its state (60_exceptions.md R303; that an empty queue of
events is an idle step is the model's choice, log 1). -/
def Obligations.IdleHoldsState : Prop := ∀ s : State, s.pending = [] → step s = .next s

/-- The host owns the data memory (20_memory.md R60, R70; the events and the field that holds the byte are the
model's own, logs 1 and 14): a byte it stores is what it loads back, every other byte and everything else
stays. For an address in the block's own window, where the spec does not say what the host finds, this is
the model's choice, log 28. -/
def Obligations.HostStoresThenLoads : Prop :=
  ∀ (s : State) (es : List HostEvent) (a : Word64) (b : Byte),
    s.mem.wf → s.pending = .store a b :: .load a :: es →
    ∃ m : Memory, step s = .next { s with pending := .load a :: es, mem := m } ∧
      (∀ a', m.read a' = if a' = a.toNat then b else s.mem.read a') ∧
      step { s with pending := .load a :: es, mem := m } =
        .next { s with pending := es, mem := m, hostData := b.setWidth 32 }

/-- A command writes no byte of data memory outside its output range (20_memory.md R63, R67): `LEN` bytes
at `DST` for `ENC` and `DEC`, 16 for `FINISH`, none for the others; every other address reads as
before. -/
def Obligations.CommandsWriteOnlyTheirOutput : Prop :=
  ∀ (c : Command) (s t : State) (a : Nat),
    s.mem.wf → exec c.instr s = .next t →
    ¬ (s.dst.toNat ≤ a ∧ a < s.dst.toNat + writeLength c s) → t.mem.read a = s.mem.read a

/-- A command reads no byte of data memory outside its input range (20_memory.md R63, R67): over any other
data memory that holds the same input bytes it has the same outcome and writes the same bytes. -/
def Obligations.CommandsReadOnlyTheirInput : Prop :=
  ∀ (c : Command) (s t : State) (m : Memory),
    (∀ j < readLength c s, m.read (s.src.toNat + j) = s.mem.read (s.src.toNat + j)) →
    exec c.instr s = .next t →
    ∃ out : List Byte, t.mem = s.mem.writeBytes s.dst.toNat out ∧
      exec c.instr { s with mem := m } = .next { t with mem := m.writeBytes s.dst.toNat out }

/-- The platform's parameters are fixed: no step changes them (00_scope.md R6). -/
def Obligations.ParametersFixed : Prop := ∀ s t : State, step s = .next t → t.cfg = s.cfg

/-- The invariant holds at reset. (The data memory's contents and the unspecified registers at reset are
the model's choice, logs 2 and 5; the invariant says nothing of them in `P_RESET`.) -/
def Obligations.InvariantAtReset : Prop := State.reset.Inv

/-- Every step keeps the invariant: the memory's canonical form, the schedule's shape and `hTable` while a
key is loaded, the relations of 10_state.md R30 with the ceilings, `EK0` and the open block's
keystream while a session is open, and `MATCH`. -/
def Obligations.InvariantKept : Prop := ∀ s t : State, s.Inv → step s = .next t → t.Inv

/-- No register is read before it is written (10_state.md R55, 43_sequencing.md R197): two states that are
alike but for context registers that hold nothing yet, or nothing any more, step alike; so no command
sequence tells what an unspecified register held. -/
def Obligations.UnwrittenRegistersUnobservable : Prop :=
  ∀ s t : State, alike s t → alikeOutcome (step s) (step t)

/-! ## Whole messages -/

/-- Round trip (47_finish.md R267): for every key, IV, AAD and plaintext that a sender encrypts and whose tag
its `FINISH` writes, a receiver under the same key, IV and AAD decrypts the ciphertext to the plaintext, and
then its `VERIFY` of any `LEN` from 1 to 16 matches when the bytes at `SRC` are the tag's first `LEN`, and
reports `AuthenticationFailure` when one of them differs. Every string may be empty but the key and IV, so
an empty plaintext with AAD has a verifiable tag. -/
def Obligations.RoundTripVerifies : Prop :=
  ∀ (key iv aad plain cipher tag plain' : List Byte) (s t r d u : State),
    sent key iv aad plain cipher tag s t → received key iv aad cipher plain' r d → handedOn d u →
    1 ≤ u.len.toNat → u.len.toNat ≤ 16 → usable u.cfg ⟨u.src.toNat, u.len.toNat, .read⟩ →
    plain' = plain ∧
    ∃ v, exec .verify u = .next v ∧
      if u.mem.readBytes u.src.toNat u.len.toNat = tag.take u.len.toNat then v.err = .ok ∧ v.matched = true
      else v.err = .authenticationFailure ∧ v.matched = false

/-- Tamper detection (47_finish.md R267): a receiver of a message in which `e` has been exclusive-ored into
one byte of the AAD or of the ciphertext, and nothing else, has its full `VERIFY` of the true tag match
exactly when `H` annihilates the difference: the block with `e` at that byte's place, multiplied by `H` once
for its own block, once for each block after it, and once for the length block, is 0. -/
def Obligations.TamperedByteShowsUnlessAnnihilated : Prop :=
  ∀ (key iv aad aad' plain cipher cipher' tag plain' : List Byte) (s t r d u : State) (j later : Nat)
      (e : Byte),
    sent key iv aad plain cipher tag s t → received key iv aad' cipher' plain' r d → handedOn d u →
    (j < aad.length ∧ aad' = aad.modify j (fun b => b ^^^ e) ∧ cipher' = cipher ∧
        later = blockCount aad - j / 16 + blockCount cipher ∨
      j < cipher.length ∧ aad' = aad ∧ cipher' = cipher.modify j (fun b => b ^^^ e) ∧
        later = blockCount cipher - j / 16) →
    u.len = 16 → usable u.cfg ⟨u.src.toNat, 16, .read⟩ → u.mem.readBytes u.src.toNat 16 = tag →
    ∃ v, exec .verify u = .next v ∧
      (v.matched = true ↔
        (fun x => gmul x (encryptBlock (expandKey key) 0))^[later + 1] (e.setWidth 128 <<< (120 - 8 * (j % 16))) = 0)
end

