-- ==== Sys2Proof/Laws/State.lean ====
section
/-! SUPPORT. One lemma per field per update of the state, each true by rfl. -/

namespace Sys2Proof.Machine

open Sys2Proof

variable (s : State)

/-! ### `State.withStatus` -/

@[simp] theorem State.withStatus_phase (e : ErrCode) (m : Bool) : (s.withStatus e m).phase = s.phase := rfl
@[simp] theorem State.withStatus_err (e : ErrCode) (m : Bool) : (s.withStatus e m).err = e := rfl
@[simp] theorem State.withStatus_matched (e : ErrCode) (m : Bool) : (s.withStatus e m).matched = m := rfl
@[simp] theorem State.withStatus_src (e : ErrCode) (m : Bool) : (s.withStatus e m).src = s.src := rfl
@[simp] theorem State.withStatus_dst (e : ErrCode) (m : Bool) : (s.withStatus e m).dst = s.dst := rfl
@[simp] theorem State.withStatus_len (e : ErrCode) (m : Bool) : (s.withStatus e m).len = s.len := rfl
@[simp] theorem State.withStatus_ctx (e : ErrCode) (m : Bool) : (s.withStatus e m).ctx = s.ctx := rfl
@[simp] theorem State.withStatus_mem (e : ErrCode) (m : Bool) : (s.withStatus e m).mem = s.mem := rfl
@[simp] theorem State.withStatus_cfg (e : ErrCode) (m : Bool) : (s.withStatus e m).cfg = s.cfg := rfl
@[simp] theorem State.withStatus_pending (e : ErrCode) (m : Bool) : (s.withStatus e m).pending = s.pending := rfl
@[simp] theorem State.withStatus_hostData (e : ErrCode) (m : Bool) : (s.withStatus e m).hostData = s.hostData := rfl
@[simp] theorem State.withStatus_port (e : ErrCode) (m : Bool) : (s.withStatus e m).port = s.port := rfl
@[simp] theorem State.withStatus_resets (e : ErrCode) (m : Bool) : (s.withStatus e m).resets = s.resets := rfl

/-! ### `State.withPhase` -/

@[simp] theorem State.withPhase_phase (p : Phase) : (s.withPhase p).phase = p := rfl
@[simp] theorem State.withPhase_err (p : Phase) : (s.withPhase p).err = s.err := rfl
@[simp] theorem State.withPhase_matched (p : Phase) : (s.withPhase p).matched = s.matched := rfl
@[simp] theorem State.withPhase_src (p : Phase) : (s.withPhase p).src = s.src := rfl
@[simp] theorem State.withPhase_dst (p : Phase) : (s.withPhase p).dst = s.dst := rfl
@[simp] theorem State.withPhase_len (p : Phase) : (s.withPhase p).len = s.len := rfl
@[simp] theorem State.withPhase_ctx (p : Phase) : (s.withPhase p).ctx = s.ctx := rfl
@[simp] theorem State.withPhase_mem (p : Phase) : (s.withPhase p).mem = s.mem := rfl
@[simp] theorem State.withPhase_cfg (p : Phase) : (s.withPhase p).cfg = s.cfg := rfl
@[simp] theorem State.withPhase_pending (p : Phase) : (s.withPhase p).pending = s.pending := rfl
@[simp] theorem State.withPhase_hostData (p : Phase) : (s.withPhase p).hostData = s.hostData := rfl
@[simp] theorem State.withPhase_port (p : Phase) : (s.withPhase p).port = s.port := rfl
@[simp] theorem State.withPhase_resets (p : Phase) : (s.withPhase p).resets = s.resets := rfl

/-! ### `State.withCtx` -/

@[simp] theorem State.withCtx_phase (c : Context) : (s.withCtx c).phase = s.phase := rfl
@[simp] theorem State.withCtx_err (c : Context) : (s.withCtx c).err = s.err := rfl
@[simp] theorem State.withCtx_matched (c : Context) : (s.withCtx c).matched = s.matched := rfl
@[simp] theorem State.withCtx_src (c : Context) : (s.withCtx c).src = s.src := rfl
@[simp] theorem State.withCtx_dst (c : Context) : (s.withCtx c).dst = s.dst := rfl
@[simp] theorem State.withCtx_len (c : Context) : (s.withCtx c).len = s.len := rfl
@[simp] theorem State.withCtx_ctx (c : Context) : (s.withCtx c).ctx = c := rfl
@[simp] theorem State.withCtx_mem (c : Context) : (s.withCtx c).mem = s.mem := rfl
@[simp] theorem State.withCtx_cfg (c : Context) : (s.withCtx c).cfg = s.cfg := rfl
@[simp] theorem State.withCtx_pending (c : Context) : (s.withCtx c).pending = s.pending := rfl
@[simp] theorem State.withCtx_hostData (c : Context) : (s.withCtx c).hostData = s.hostData := rfl
@[simp] theorem State.withCtx_port (c : Context) : (s.withCtx c).port = s.port := rfl
@[simp] theorem State.withCtx_resets (c : Context) : (s.withCtx c).resets = s.resets := rfl

/-! ### `State.withMem` -/

@[simp] theorem State.withMem_phase (m : Memory) : (s.withMem m).phase = s.phase := rfl
@[simp] theorem State.withMem_err (m : Memory) : (s.withMem m).err = s.err := rfl
@[simp] theorem State.withMem_matched (m : Memory) : (s.withMem m).matched = s.matched := rfl
@[simp] theorem State.withMem_src (m : Memory) : (s.withMem m).src = s.src := rfl
@[simp] theorem State.withMem_dst (m : Memory) : (s.withMem m).dst = s.dst := rfl
@[simp] theorem State.withMem_len (m : Memory) : (s.withMem m).len = s.len := rfl
@[simp] theorem State.withMem_ctx (m : Memory) : (s.withMem m).ctx = s.ctx := rfl
@[simp] theorem State.withMem_mem (m : Memory) : (s.withMem m).mem = m := rfl
@[simp] theorem State.withMem_cfg (m : Memory) : (s.withMem m).cfg = s.cfg := rfl
@[simp] theorem State.withMem_pending (m : Memory) : (s.withMem m).pending = s.pending := rfl
@[simp] theorem State.withMem_hostData (m : Memory) : (s.withMem m).hostData = s.hostData := rfl
@[simp] theorem State.withMem_port (m : Memory) : (s.withMem m).port = s.port := rfl
@[simp] theorem State.withMem_resets (m : Memory) : (s.withMem m).resets = s.resets := rfl

/-! ### `State.withPending` -/

@[simp] theorem State.withPending_phase (es : List HostEvent) : (s.withPending es).phase = s.phase := rfl
@[simp] theorem State.withPending_err (es : List HostEvent) : (s.withPending es).err = s.err := rfl
@[simp] theorem State.withPending_matched (es : List HostEvent) : (s.withPending es).matched = s.matched := rfl
@[simp] theorem State.withPending_src (es : List HostEvent) : (s.withPending es).src = s.src := rfl
@[simp] theorem State.withPending_dst (es : List HostEvent) : (s.withPending es).dst = s.dst := rfl
@[simp] theorem State.withPending_len (es : List HostEvent) : (s.withPending es).len = s.len := rfl
@[simp] theorem State.withPending_ctx (es : List HostEvent) : (s.withPending es).ctx = s.ctx := rfl
@[simp] theorem State.withPending_mem (es : List HostEvent) : (s.withPending es).mem = s.mem := rfl
@[simp] theorem State.withPending_cfg (es : List HostEvent) : (s.withPending es).cfg = s.cfg := rfl
@[simp] theorem State.withPending_pending (es : List HostEvent) : (s.withPending es).pending = es := rfl
@[simp] theorem State.withPending_hostData (es : List HostEvent) : (s.withPending es).hostData = s.hostData := rfl
@[simp] theorem State.withPending_port (es : List HostEvent) : (s.withPending es).port = s.port := rfl
@[simp] theorem State.withPending_resets (es : List HostEvent) : (s.withPending es).resets = s.resets := rfl

/-! ### `State.withHostData` -/

@[simp] theorem State.withHostData_phase (v : Word32) : (s.withHostData v).phase = s.phase := rfl
@[simp] theorem State.withHostData_err (v : Word32) : (s.withHostData v).err = s.err := rfl
@[simp] theorem State.withHostData_matched (v : Word32) : (s.withHostData v).matched = s.matched := rfl
@[simp] theorem State.withHostData_src (v : Word32) : (s.withHostData v).src = s.src := rfl
@[simp] theorem State.withHostData_dst (v : Word32) : (s.withHostData v).dst = s.dst := rfl
@[simp] theorem State.withHostData_len (v : Word32) : (s.withHostData v).len = s.len := rfl
@[simp] theorem State.withHostData_ctx (v : Word32) : (s.withHostData v).ctx = s.ctx := rfl
@[simp] theorem State.withHostData_mem (v : Word32) : (s.withHostData v).mem = s.mem := rfl
@[simp] theorem State.withHostData_cfg (v : Word32) : (s.withHostData v).cfg = s.cfg := rfl
@[simp] theorem State.withHostData_pending (v : Word32) : (s.withHostData v).pending = s.pending := rfl
@[simp] theorem State.withHostData_hostData (v : Word32) : (s.withHostData v).hostData = v := rfl
@[simp] theorem State.withHostData_port (v : Word32) : (s.withHostData v).port = s.port := rfl
@[simp] theorem State.withHostData_resets (v : Word32) : (s.withHostData v).resets = s.resets := rfl

/-! ### `State.withSrc` -/

@[simp] theorem State.withSrc_phase (v : Word64) : (s.withSrc v).phase = s.phase := rfl
@[simp] theorem State.withSrc_err (v : Word64) : (s.withSrc v).err = s.err := rfl
@[simp] theorem State.withSrc_matched (v : Word64) : (s.withSrc v).matched = s.matched := rfl
@[simp] theorem State.withSrc_src (v : Word64) : (s.withSrc v).src = v := rfl
@[simp] theorem State.withSrc_dst (v : Word64) : (s.withSrc v).dst = s.dst := rfl
@[simp] theorem State.withSrc_len (v : Word64) : (s.withSrc v).len = s.len := rfl
@[simp] theorem State.withSrc_ctx (v : Word64) : (s.withSrc v).ctx = s.ctx := rfl
@[simp] theorem State.withSrc_mem (v : Word64) : (s.withSrc v).mem = s.mem := rfl
@[simp] theorem State.withSrc_cfg (v : Word64) : (s.withSrc v).cfg = s.cfg := rfl
@[simp] theorem State.withSrc_pending (v : Word64) : (s.withSrc v).pending = s.pending := rfl
@[simp] theorem State.withSrc_hostData (v : Word64) : (s.withSrc v).hostData = s.hostData := rfl
@[simp] theorem State.withSrc_port (v : Word64) : (s.withSrc v).port = s.port := rfl
@[simp] theorem State.withSrc_resets (v : Word64) : (s.withSrc v).resets = s.resets := rfl

/-! ### `State.withDst` -/

@[simp] theorem State.withDst_phase (v : Word64) : (s.withDst v).phase = s.phase := rfl
@[simp] theorem State.withDst_err (v : Word64) : (s.withDst v).err = s.err := rfl
@[simp] theorem State.withDst_matched (v : Word64) : (s.withDst v).matched = s.matched := rfl
@[simp] theorem State.withDst_src (v : Word64) : (s.withDst v).src = s.src := rfl
@[simp] theorem State.withDst_dst (v : Word64) : (s.withDst v).dst = v := rfl
@[simp] theorem State.withDst_len (v : Word64) : (s.withDst v).len = s.len := rfl
@[simp] theorem State.withDst_ctx (v : Word64) : (s.withDst v).ctx = s.ctx := rfl
@[simp] theorem State.withDst_mem (v : Word64) : (s.withDst v).mem = s.mem := rfl
@[simp] theorem State.withDst_cfg (v : Word64) : (s.withDst v).cfg = s.cfg := rfl
@[simp] theorem State.withDst_pending (v : Word64) : (s.withDst v).pending = s.pending := rfl
@[simp] theorem State.withDst_hostData (v : Word64) : (s.withDst v).hostData = s.hostData := rfl
@[simp] theorem State.withDst_port (v : Word64) : (s.withDst v).port = s.port := rfl
@[simp] theorem State.withDst_resets (v : Word64) : (s.withDst v).resets = s.resets := rfl

/-! ### `State.withLen` -/

@[simp] theorem State.withLen_phase (v : Word64) : (s.withLen v).phase = s.phase := rfl
@[simp] theorem State.withLen_err (v : Word64) : (s.withLen v).err = s.err := rfl
@[simp] theorem State.withLen_matched (v : Word64) : (s.withLen v).matched = s.matched := rfl
@[simp] theorem State.withLen_src (v : Word64) : (s.withLen v).src = s.src := rfl
@[simp] theorem State.withLen_dst (v : Word64) : (s.withLen v).dst = s.dst := rfl
@[simp] theorem State.withLen_len (v : Word64) : (s.withLen v).len = v := rfl
@[simp] theorem State.withLen_ctx (v : Word64) : (s.withLen v).ctx = s.ctx := rfl
@[simp] theorem State.withLen_mem (v : Word64) : (s.withLen v).mem = s.mem := rfl
@[simp] theorem State.withLen_cfg (v : Word64) : (s.withLen v).cfg = s.cfg := rfl
@[simp] theorem State.withLen_pending (v : Word64) : (s.withLen v).pending = s.pending := rfl
@[simp] theorem State.withLen_hostData (v : Word64) : (s.withLen v).hostData = s.hostData := rfl
@[simp] theorem State.withLen_port (v : Word64) : (s.withLen v).port = s.port := rfl
@[simp] theorem State.withLen_resets (v : Word64) : (s.withLen v).resets = s.resets := rfl

/-! ### `State.withOps` -/

@[simp] theorem State.withOps_phase (o : RequestOps) : (s.withOps o).phase = s.phase := rfl
@[simp] theorem State.withOps_err (o : RequestOps) : (s.withOps o).err = s.err := rfl
@[simp] theorem State.withOps_matched (o : RequestOps) : (s.withOps o).matched = s.matched := rfl
@[simp] theorem State.withOps_src (o : RequestOps) : (s.withOps o).src = s.src := rfl
@[simp] theorem State.withOps_dst (o : RequestOps) : (s.withOps o).dst = s.dst := rfl
@[simp] theorem State.withOps_len (o : RequestOps) : (s.withOps o).len = s.len := rfl
@[simp] theorem State.withOps_ctx (o : RequestOps) : (s.withOps o).ctx = s.ctx := rfl
@[simp] theorem State.withOps_mem (o : RequestOps) : (s.withOps o).mem = s.mem := rfl
@[simp] theorem State.withOps_cfg (o : RequestOps) : (s.withOps o).cfg = s.cfg := rfl
@[simp] theorem State.withOps_pending (o : RequestOps) : (s.withOps o).pending = s.pending := rfl
@[simp] theorem State.withOps_hostData (o : RequestOps) : (s.withOps o).hostData = s.hostData := rfl
@[simp] theorem State.withOps_port (o : RequestOps) : (s.withOps o).port = { s.port with ops := o } := rfl
@[simp] theorem State.withOps_resets (o : RequestOps) : (s.withOps o).resets = s.resets := rfl

/-! ### `State.withResults` -/

@[simp] theorem State.withResults_phase (r : RequestResults) : (s.withResults r).phase = s.phase := rfl
@[simp] theorem State.withResults_err (r : RequestResults) : (s.withResults r).err = s.err := rfl
@[simp] theorem State.withResults_matched (r : RequestResults) : (s.withResults r).matched = s.matched := rfl
@[simp] theorem State.withResults_src (r : RequestResults) : (s.withResults r).src = s.src := rfl
@[simp] theorem State.withResults_dst (r : RequestResults) : (s.withResults r).dst = s.dst := rfl
@[simp] theorem State.withResults_len (r : RequestResults) : (s.withResults r).len = s.len := rfl
@[simp] theorem State.withResults_ctx (r : RequestResults) : (s.withResults r).ctx = s.ctx := rfl
@[simp] theorem State.withResults_mem (r : RequestResults) : (s.withResults r).mem = s.mem := rfl
@[simp] theorem State.withResults_cfg (r : RequestResults) : (s.withResults r).cfg = s.cfg := rfl
@[simp] theorem State.withResults_pending (r : RequestResults) : (s.withResults r).pending = s.pending := rfl
@[simp] theorem State.withResults_hostData (r : RequestResults) : (s.withResults r).hostData = s.hostData := rfl
@[simp] theorem State.withResults_port (r : RequestResults) : (s.withResults r).port = { s.port with res := r } := rfl
@[simp] theorem State.withResults_resets (r : RequestResults) : (s.withResults r).resets = s.resets := rfl

/-! ### `State.raise` -/

@[simp] theorem State.raise_phase (e : ErrCode) : (s.raise e).phase = s.phase := rfl
@[simp] theorem State.raise_err (e : ErrCode) : (s.raise e).err = e := rfl
@[simp] theorem State.raise_matched (e : ErrCode) : (s.raise e).matched = false := rfl
@[simp] theorem State.raise_src (e : ErrCode) : (s.raise e).src = s.src := rfl
@[simp] theorem State.raise_dst (e : ErrCode) : (s.raise e).dst = s.dst := rfl
@[simp] theorem State.raise_len (e : ErrCode) : (s.raise e).len = s.len := rfl
@[simp] theorem State.raise_ctx (e : ErrCode) : (s.raise e).ctx = s.ctx := rfl
@[simp] theorem State.raise_mem (e : ErrCode) : (s.raise e).mem = s.mem := rfl
@[simp] theorem State.raise_cfg (e : ErrCode) : (s.raise e).cfg = s.cfg := rfl
@[simp] theorem State.raise_pending (e : ErrCode) : (s.raise e).pending = s.pending := rfl
@[simp] theorem State.raise_hostData (e : ErrCode) : (s.raise e).hostData = s.hostData := rfl
@[simp] theorem State.raise_port (e : ErrCode) : (s.raise e).port = s.port := rfl
@[simp] theorem State.raise_resets (e : ErrCode) : (s.raise e).resets = s.resets := rfl

/-! ### `State.succeed` -/

@[simp] theorem State.succeed_phase (p : Phase) : (s.succeed p).phase = p := rfl
@[simp] theorem State.succeed_err (p : Phase) : (s.succeed p).err = .ok := rfl
@[simp] theorem State.succeed_matched (p : Phase) : (s.succeed p).matched = false := rfl
@[simp] theorem State.succeed_src (p : Phase) : (s.succeed p).src = s.src := rfl
@[simp] theorem State.succeed_dst (p : Phase) : (s.succeed p).dst = s.dst := rfl
@[simp] theorem State.succeed_len (p : Phase) : (s.succeed p).len = s.len := rfl
@[simp] theorem State.succeed_ctx (p : Phase) : (s.succeed p).ctx = s.ctx := rfl
@[simp] theorem State.succeed_mem (p : Phase) : (s.succeed p).mem = s.mem := rfl
@[simp] theorem State.succeed_cfg (p : Phase) : (s.succeed p).cfg = s.cfg := rfl
@[simp] theorem State.succeed_pending (p : Phase) : (s.succeed p).pending = s.pending := rfl
@[simp] theorem State.succeed_hostData (p : Phase) : (s.succeed p).hostData = s.hostData := rfl
@[simp] theorem State.succeed_port (p : Phase) : (s.succeed p).port = s.port := rfl
@[simp] theorem State.succeed_resets (p : Phase) : (s.succeed p).resets = s.resets := rfl

/-! ### `State.storeOutput` -/

@[simp] theorem State.storeOutput_phase (out : List Byte) : (s.storeOutput out).phase = s.phase := rfl
@[simp] theorem State.storeOutput_err (out : List Byte) : (s.storeOutput out).err = s.err := rfl
@[simp] theorem State.storeOutput_matched (out : List Byte) : (s.storeOutput out).matched = s.matched := rfl
@[simp] theorem State.storeOutput_src (out : List Byte) : (s.storeOutput out).src = s.src := rfl
@[simp] theorem State.storeOutput_dst (out : List Byte) : (s.storeOutput out).dst = s.dst := rfl
@[simp] theorem State.storeOutput_len (out : List Byte) : (s.storeOutput out).len = s.len := rfl
@[simp] theorem State.storeOutput_ctx (out : List Byte) : (s.storeOutput out).ctx = s.ctx := rfl
@[simp] theorem State.storeOutput_mem (out : List Byte) : (s.storeOutput out).mem = s.mem.writeBytes s.dst.toNat out := rfl
@[simp] theorem State.storeOutput_cfg (out : List Byte) : (s.storeOutput out).cfg = s.cfg := rfl
@[simp] theorem State.storeOutput_pending (out : List Byte) : (s.storeOutput out).pending = s.pending := rfl
@[simp] theorem State.storeOutput_hostData (out : List Byte) : (s.storeOutput out).hostData = s.hostData := rfl
@[simp] theorem State.storeOutput_port (out : List Byte) : (s.storeOutput out).port = s.port := rfl
@[simp] theorem State.storeOutput_resets (out : List Byte) : (s.storeOutput out).resets = s.resets := rfl

/-! ### `State.applyReset` -/

@[simp] theorem State.applyReset_phase : (s.applyReset).phase = .reset := rfl
@[simp] theorem State.applyReset_err : (s.applyReset).err = .ok := rfl
@[simp] theorem State.applyReset_matched : (s.applyReset).matched = false := rfl
@[simp] theorem State.applyReset_src : (s.applyReset).src = 0 := rfl
@[simp] theorem State.applyReset_dst : (s.applyReset).dst = 0 := rfl
@[simp] theorem State.applyReset_len : (s.applyReset).len = 0 := rfl
@[simp] theorem State.applyReset_ctx : (s.applyReset).ctx = Config.contextAfterReset s.resets := rfl
@[simp] theorem State.applyReset_mem : (s.applyReset).mem = s.mem := rfl
@[simp] theorem State.applyReset_cfg : (s.applyReset).cfg = s.cfg := rfl
@[simp] theorem State.applyReset_pending : (s.applyReset).pending = s.pending := rfl
@[simp] theorem State.applyReset_hostData : (s.applyReset).hostData = s.hostData := rfl
@[simp] theorem State.applyReset_port : (s.applyReset).port = s.port := rfl
@[simp] theorem State.applyReset_resets : (s.applyReset).resets = s.resets + 1 := rfl

end Sys2Proof.Machine
end

