-- ==== Sys2Proof/Laws/Bytes.lean ====
section
/-! SUPPORT. Byte strings and blocks: lengths, the two directions between a block and its 16 bytes, bytes
of an exclusive-or, the fields of a counter block. -/

namespace Sys2Proof.Machine

open Sys2Proof

@[simp] theorem bytesOfBlock_length (b : Block) : (bytesOfBlock b).length = 16 := by
  simp [bytesOfBlock]

theorem beNat_foldl (s : List Byte) (n : Nat) :
    s.foldl (fun n b => 256 * n + b.toNat) n = n * 256 ^ s.length + beNat s := by
  induction s generalizing n with
  | nil => simp [beNat]
  | cons b s ih =>
    have h := ih (256 * 0 + b.toNat)
    have e : beNat (b :: s) = s.foldl (fun n b => 256 * n + b.toNat) (256 * 0 + b.toNat) := rfl
    rw [List.foldl_cons, ih, e, h, List.length_cons, pow_succ]
    ring

/-- The value of a string is its first byte above the value of the rest. -/
theorem beNat_cons (b : Byte) (s : List Byte) : beNat (b :: s) = b.toNat * 256 ^ s.length + beNat s := by
  simp [beNat, beNat_foldl s b.toNat]

theorem beNat_append (a b : List Byte) : beNat (a ++ b) = beNat a * 256 ^ b.length + beNat b := by
  simp only [beNat, List.foldl_append]
  exact beNat_foldl b _

theorem beNat_lt (s : List Byte) : beNat s < 256 ^ s.length := by
  induction s with
  | nil => simp [beNat]
  | cons b s ih =>
    have hb := b.isLt
    rw [beNat_cons, List.length_cons, pow_succ]
    nlinarith [Nat.pow_pos (n := s.length) (show 0 < 256 by decide)]

/-- Byte `i` of a string, read off its value. -/
theorem beNat_byte (s : List Byte) (i : Nat) (h : i < s.length) :
    beNat s / 256 ^ (s.length - 1 - i) % 256 = (s.getD i 0).toNat := by
  induction s generalizing i with
  | nil => simp at h
  | cons b s ih =>
    rw [beNat_cons]
    have hb := b.isLt
    have hs := beNat_lt s
    have hp : 0 < 256 ^ s.length := Nat.pow_pos (by decide)
    cases i with
    | zero =>
      simp only [List.length_cons, Nat.add_sub_cancel, Nat.sub_zero, List.getD_cons_zero]
      rw [mul_comm, Nat.mul_add_div hp, Nat.div_eq_of_lt hs]
      omega
    | succ i =>
      simp only [List.length_cons, List.getD_cons_succ] at *
      have hi : i < s.length := by omega
      have e : s.length + 1 - 1 - (i + 1) = s.length - 1 - i := by omega
      rw [e, ← ih i hi]
      have split : 256 ^ s.length = 256 ^ (s.length - 1 - i) * (256 ^ i * 256) := by
        rw [← pow_succ, ← pow_add]
        congr 1
        omega
      have hq : 0 < 256 ^ (s.length - 1 - i) := Nat.pow_pos (by decide)
      rw [split, show b.toNat * (256 ^ (s.length - 1 - i) * (256 ^ i * 256)) =
        256 ^ (s.length - 1 - i) * (b.toNat * 256 ^ i * 256) by ring, Nat.mul_add_div hq]
      omega

/-- Byte `i` of a block as a number. -/
theorem byteAt_toNat (b : Block) (i : Nat) : (byteAt b i).toNat = b.toNat / 256 ^ (15 - i) % 256 := by
  simp only [byteAt, BitVec.extractLsb'_toNat, Nat.shiftRight_eq_div_pow]
  rw [show (2 : Nat) ^ (8 * (15 - i)) = 256 ^ (15 - i) by rw [pow_mul]; norm_num]

/-- Byte `i` of the block that a string of 16 bytes is. -/
theorem byteAt_blockOfBytes (s : List Byte) (hs : s.length = 16) (i : Nat) (h : i < 16) :
    byteAt (blockOfBytes s) i = s.getD i 0 := by
  apply BitVec.eq_of_toNat_eq
  have hlt := beNat_lt s
  rw [hs] at hlt
  rw [byteAt_toNat, blockOfBytes, BitVec.toNat_ofNat, ← beNat_byte s i (by omega), hs,
    Nat.mod_eq_of_lt (show beNat s < 2 ^ 128 by omega)]

/-- Two blocks with the same 16 bytes are equal. -/
theorem block_ext {a b : Block} (h : ∀ i < 16, byteAt a i = byteAt b i) : a = b := by
  apply BitVec.eq_of_getLsbD_eq
  intro j hj
  have := congrArg (fun v : Byte => v.getLsbD (j % 8)) (h (15 - j / 8) (by omega))
  simp only [byteAt, BitVec.getLsbD_extractLsb'] at this
  have e : 8 * (15 - (15 - j / 8)) + j % 8 = j := by omega
  simpa [e, Nat.mod_lt] using this

@[simp] theorem byteAt_blockOfFn (f : Nat → Byte) (i : Nat) (h : i < 16) : byteAt (blockOfFn f) i = f i := by
  rw [blockOfFn, byteAt_blockOfBytes _ (by simp) _ h]
  simp [List.getD_eq_getElem?_getD, h]

theorem bytesOfBlock_getD (b : Block) (i : Nat) (h : i < 16) : (bytesOfBlock b).getD i 0 = byteAt b i := by
  simp [bytesOfBlock, List.getD_eq_getElem?_getD, h]

/-- A block is the block of its bytes. -/
@[simp] theorem blockOfBytes_bytesOfBlock (b : Block) : blockOfBytes (bytesOfBlock b) = b :=
  block_ext fun i h => by rw [byteAt_blockOfBytes _ (by simp) _ h, bytesOfBlock_getD _ _ h]

/-- A string of 16 bytes is the bytes of its block. -/
theorem bytesOfBlock_blockOfBytes (s : List Byte) (h : s.length = 16) : bytesOfBlock (blockOfBytes s) = s := by
  apply List.ext_getElem (by simp [h])
  intro i h1 h2
  have hi : i < 16 := by simpa using h1
  have := bytesOfBlock_getD (blockOfBytes s) i hi
  rw [byteAt_blockOfBytes s h i hi, List.getD_eq_getElem _ _ h1, List.getD_eq_getElem _ _ h2] at this
  exact this

@[simp] theorem byteAt_xor (a b : Block) (i : Nat) : byteAt (a ^^^ b) i = byteAt a i ^^^ byteAt b i := by
  simp [byteAt, BitVec.extractLsb'_xor]

@[simp] theorem byteAt_zero (i : Nat) : byteAt 0 i = 0 := by
  apply BitVec.eq_of_getLsbD_eq
  intro j _
  simp [byteAt]

/-- Bytes of a block with one byte exclusive-ored in. -/
theorem byteAt_xorByte (x : Block) (i : Nat) (c : Byte) (j : Nat) (hi : i < 16) (hj : j < 16) :
    byteAt (xorByte x i c) j = if i = j then byteAt x j ^^^ c else byteAt x j := by
  apply BitVec.eq_of_getLsbD_eq
  intro k hk
  simp only [xorByte, byteAt, BitVec.getLsbD_extractLsb', BitVec.getLsbD_xor, BitVec.getLsbD_shiftLeft,
    BitVec.getLsbD_setWidth, hk, decide_true, Bool.true_and]
  by_cases h : i = j
  · subst h
    simp [hk, show 8 * (15 - i) + k < 128 by omega, show k < 128 by omega]
  · rw [if_neg h]
    simp only [BitVec.getLsbD_extractLsb', hk, decide_true, Bool.true_and]
    rcases Nat.lt_or_gt_of_ne h with h' | h'
    · have : 8 * (15 - j) + k < 8 * (15 - i) := by omega
      simp [this]
    · have : 8 ≤ 8 * (15 - j) + k - 8 * (15 - i) := by omega
      simp [BitVec.getLsbD_of_ge c _ this]

/-- Exclusive-oring bytes in one string after another is doing it in one string. -/
theorem xorBytes_append (x : Block) (i : Nat) (a b : List Byte) :
    xorBytes x i (a ++ b) = xorBytes (xorBytes x i a) (i + a.length) b := by
  induction a generalizing x i with
  | nil => simp [xorBytes]
  | cons c a ih => simp [xorBytes, ih, Nat.add_assoc, Nat.add_comm 1]

/-- Bytes of a block with a string exclusive-ored in from byte `i` on. -/
theorem byteAt_xorBytes (x : Block) (i : Nat) (s : List Byte) (j : Nat) (hj : j < 16) (h : i + s.length ≤ 16) :
    byteAt (xorBytes x i s) j =
      if i ≤ j ∧ j < i + s.length then byteAt x j ^^^ s.getD (j - i) 0 else byteAt x j := by
  induction s generalizing x i with
  | nil => simp [xorBytes]
  | cons c s ih =>
    simp only [List.length_cons] at h
    rw [xorBytes, ih _ _ (by omega), byteAt_xorByte _ _ _ _ (by omega) hj]
    by_cases h1 : i = j
    · subst h1
      simp
    · by_cases h2 : i + 1 ≤ j ∧ j < i + 1 + s.length
      · have e : j - i = (j - (i + 1)) + 1 := by omega
        rw [if_pos h2, if_neg h1, if_pos (by simp only [List.length_cons]; omega), e, List.getD_cons_succ]
      · rw [if_neg h2, if_neg h1, if_neg (by simp only [List.length_cons]; omega)]

/-- A whole block of 16 bytes exclusive-ored in byte by byte. -/
theorem xorBytes_block (x : Block) (s : List Byte) (h : s.length = 16) :
    xorBytes x 0 s = x ^^^ blockOfBytes s := by
  apply block_ext
  intro j hj
  rw [byteAt_xorBytes _ _ _ _ hj (by omega), if_pos (by omega), byteAt_xor, byteAt_blockOfBytes _ h _ hj]
  simp

/-! ## Counter blocks -/

@[simp] theorem fixedField_counterBlock (f : BitVec 96) (c : Word32) : fixedField (counterBlock f c) = f := by
  apply BitVec.eq_of_getLsbD_eq
  intro i hi
  rw [fixedField, counterBlock, BitVec.getLsbD_extractLsb', BitVec.getLsbD_append]
  simp [hi]

@[simp] theorem ctrField_counterBlock (f : BitVec 96) (c : Word32) : ctrField (counterBlock f c) = c := by
  apply BitVec.eq_of_getLsbD_eq
  intro i hi
  rw [ctrField, counterBlock, BitVec.getLsbD_extractLsb', BitVec.getLsbD_append]
  simp [hi]

/-- A counter block is its two fields. -/
@[simp] theorem counterBlock_fields (y : Block) : counterBlock (fixedField y) (ctrField y) = y := by
  apply BitVec.eq_of_getLsbD_eq
  intro i hi
  simp only [fixedField, ctrField, counterBlock, BitVec.getLsbD_append, BitVec.getLsbD_extractLsb']
  by_cases h : i < 32
  · simp [h]
  · have e : 32 + (i - 32) = i := by omega
    simp [h, e, show i - 32 < 96 by omega]

@[simp] theorem fixedField_inc32 (y : Block) : fixedField (inc32 y) = fixedField y := by simp [inc32]

@[simp] theorem ctrField_inc32 (y : Block) : ctrField (inc32 y) = ctrField y + 1 := by simp [inc32]

/-- Byte `i` of the counter block of 12 bytes is byte `i` of those, bits `127 - 8i` to `120 - 8i`
(10_state.md R21). -/
theorem counterBlock_fixedOfBytes_byte (s : List Byte) (c : Word32) (i : Nat) (hs : s.length = 12) (hi : i < 12) :
    (counterBlock (fixedOfBytes s) c).extractLsb' (120 - 8 * i) 8 = s.getD i 0 := by
  have hb := beNat_byte s i (by omega)
  have hl := beNat_lt s
  rw [hs] at hb hl
  have hl' : beNat s < 2 ^ 96 := by norm_num at hl ⊢; exact hl
  have hc := c.isLt
  have hp : 2 ^ (120 - 8 * i) = 2 ^ 32 * 256 ^ (12 - 1 - i) := by
    rw [show (256 : Nat) = 2 ^ 8 by rfl, ← pow_mul, ← pow_add]
    congr 1
    omega
  rw [← BitVec.toNat_inj, ← hb, BitVec.extractLsb'_toNat]
  simp only [counterBlock, fixedOfBytes, BitVec.toNat_append, BitVec.toNat_ofNat]
  rw [Nat.mod_eq_of_lt hl', ← Nat.shiftLeft_add_eq_or_of_lt hc, Nat.shiftRight_eq_div_pow, Nat.shiftLeft_eq, hp,
    ← Nat.div_div_eq_div_mul, show (beNat s * 2 ^ 32 + c.toNat) / 2 ^ 32 = beNat s by omega]

end Sys2Proof.Machine
end

