-- ==== Sys2Proof/Laws/Memory.lean ====
section
/-! SUPPORT. The data memory: what a read gives after a write, and that every operation keeps the
canonical form. -/

namespace Sys2Proof.Machine

open Sys2Proof

variable (m : Memory)

@[simp] theorem Memory.read_cons (a : Nat) (b : Byte) (a' : Nat) (h : ∀ c ∈ m, a < c.1) :
    Memory.read (Memory.cons a b m) a' = if a = a' then b else Memory.read m a' := by
  unfold Memory.cons
  split
  · next hb =>
    split
    · next e =>
      subst e hb
      induction m with
      | nil => rfl
      | cons c m ih =>
        have hc := h c (by simp)
        rw [Memory.read, if_neg (by omega), ih fun d hd => h d (by simp [hd])]
    · rfl
  · simp [Memory.read]

/-- What a read gives after one byte is written, in a memory whose addresses rise. -/
theorem Memory.read_write (a : Nat) (b : Byte) (a' : Nat) (h : m.Pairwise (fun p q => p.1 < q.1)) :
    Memory.read (Memory.write m a b) a' = if a = a' then b else Memory.read m a' := by
  induction m with
  | nil => exact Memory.read_cons [] a b a' (by simp)
  | cons c m ih =>
    rw [List.pairwise_cons] at h
    rw [Memory.write]
    split
    · next h1 =>
      rw [Memory.read, Memory.read, ih h.2]
      by_cases e : c.1 = a'
      · simp [e, show ¬ a = a' by omega]
      · simp [e]
    · next h1 =>
      split
      · next h2 =>
        rw [Memory.read_cons _ _ _ _ fun d hd => by have := h.1 d hd; omega, Memory.read]
        by_cases e : a = a'
        · simp [e]
        · simp [e, show ¬ c.1 = a' by omega]
      · next h2 =>
        exact Memory.read_cons (c :: m) a b a' fun d hd => by
          rcases List.mem_cons.1 hd with rfl | hd
          · omega
          · have := h.1 d hd
            omega

theorem Memory.write_mem (a : Nat) (b : Byte) (p : Host.Cell) (h : p ∈ Memory.write m a b) :
    p ∈ m ∨ (p = (a, b) ∧ b ≠ unlistedByte) := by
  have key : ∀ l : Memory, p ∈ Memory.cons a b l → p ∈ l ∨ (p = (a, b) ∧ b ≠ unlistedByte) := by
    intro l hl
    unfold Memory.cons at hl
    split at hl
    · exact .inl hl
    · next hb =>
      rcases List.mem_cons.1 hl with rfl | hl
      · exact .inr ⟨rfl, hb⟩
      · exact .inl hl
  induction m with
  | nil => exact key [] h
  | cons c m ih =>
    rw [Memory.write] at h
    split at h
    · rcases List.mem_cons.1 h with rfl | h
      · simp
      · rcases ih h with h | h
        · exact .inl (List.mem_cons_of_mem _ h)
        · exact .inr h
    · split at h
      · rcases key m h with h | h
        · exact .inl (List.mem_cons_of_mem _ h)
        · exact .inr h
      · exact key _ h

theorem Memory.write_rising (a : Nat) (b : Byte) (h : m.Pairwise (fun p q => p.1 < q.1)) :
    (Memory.write m a b).Pairwise (fun p q => p.1 < q.1) := by
  have key : ∀ l : Memory, l.Pairwise (fun p q => p.1 < q.1) → (∀ c ∈ l, a < c.1) →
      (Memory.cons a b l).Pairwise (fun p q => p.1 < q.1) := by
    intro l hl ha
    unfold Memory.cons
    split
    · exact hl
    · exact List.pairwise_cons.2 ⟨ha, hl⟩
  induction m with
  | nil => exact key [] .nil (by simp)
  | cons c m ih =>
    rw [List.pairwise_cons] at h
    rw [Memory.write]
    split
    · next h1 =>
      refine List.pairwise_cons.2 ⟨fun p hp => ?_, ih h.2⟩
      rcases Memory.write_mem m a b p hp with hp | ⟨rfl, -⟩
      · exact h.1 p hp
      · exact h1
    · next h1 =>
      split
      · next h2 => exact key m h.2 fun d hd => by have := h.1 d hd; omega
      · next h2 =>
        refine key _ (List.pairwise_cons.2 h) fun d hd => ?_
        rcases List.mem_cons.1 hd with rfl | hd
        · omega
        · have := h.1 d hd
          omega

/-- Writing one byte keeps the canonical form. -/
theorem Memory.write_wf (a : Nat) (b : Byte) (ha : a < 2 ^ 64) (h : m.wf) : Memory.wf (Memory.write m a b) := by
  refine ⟨Memory.write_rising m a b h.1, fun p hp => ?_⟩
  rcases Memory.write_mem m a b p hp with hp | ⟨rfl, hb⟩
  · exact h.2 p hp
  · exact ⟨ha, hb⟩

theorem Memory.writeBytes_rising (a : Nat) (s : List Byte) (h : m.Pairwise (fun p q => p.1 < q.1)) :
    (Memory.writeBytes m a s).Pairwise (fun p q => p.1 < q.1) := by
  induction s generalizing m a with
  | nil => exact h
  | cons b s ih => exact ih _ _ (Memory.write_rising m a b h)

/-- Writing a string that fits in the address space keeps the canonical form. -/
theorem Memory.writeBytes_wf (a : Nat) (s : List Byte) (ha : s = [] ∨ a + s.length ≤ 2 ^ 64) (h : m.wf) :
    Memory.wf (Memory.writeBytes m a s) := by
  induction s generalizing m a with
  | nil => exact h
  | cons b s ih =>
    simp only [reduceCtorEq, List.length_cons, false_or] at ha
    exact ih _ _ (.inr (by omega)) (Memory.write_wf m a b (by omega) h)

/-- What a read gives after a string is written. -/
theorem Memory.read_writeBytes (a : Nat) (s : List Byte) (a' : Nat) (h : m.Pairwise (fun p q => p.1 < q.1)) :
    Memory.read (Memory.writeBytes m a s) a' =
      if a ≤ a' ∧ a' < a + s.length then s.getD (a' - a) 0 else Memory.read m a' := by
  induction s generalizing m a with
  | nil => simp [Memory.writeBytes, show ¬ (a ≤ a' ∧ a' < a) by omega]
  | cons b s ih =>
    rw [Memory.writeBytes, ih _ _ (Memory.write_rising m a b h), Memory.read_write m a b a' h, List.length_cons]
    by_cases e : a = a'
    · subst e
      simp
    · by_cases h1 : a + 1 ≤ a' ∧ a' < a + 1 + s.length
      · rw [if_pos h1, if_pos (by omega), show a' - a = (a' - (a + 1)) + 1 by omega, List.getD_cons_succ]
      · rw [if_neg h1, if_neg e, if_neg (by omega)]

@[simp] theorem Memory.readBytes_length (a n : Nat) : (Memory.readBytes m a n).length = n := by
  induction n generalizing a with
  | zero => rfl
  | succ n ih => simp [Memory.readBytes, ih]

/-- Byte `i` of a string read. -/
theorem Memory.readBytes_getD (a n i : Nat) (h : i < n) :
    (Memory.readBytes m a n).getD i 0 = Memory.read m (a + i) := by
  induction n generalizing a i with
  | zero => omega
  | succ n ih =>
    cases i with
    | zero => simp [Memory.readBytes]
    | succ i => rw [Memory.readBytes, List.getD_cons_succ, ih _ _ (by omega)]; congr 1; omega

/-- A string read depends on the bytes at its addresses alone. -/
theorem Memory.readBytes_congr {m m' : Memory} (a n : Nat)
    (h : ∀ i < n, Memory.read m (a + i) = Memory.read m' (a + i)) :
    Memory.readBytes m a n = Memory.readBytes m' a n := by
  induction n generalizing a with
  | zero => rfl
  | succ n ih =>
    rw [Memory.readBytes, Memory.readBytes, ih (a + 1) fun i hi => by
      have := h (i + 1) (by omega)
      rwa [show a + (i + 1) = a + 1 + i by omega] at this]
    congr 1
    exact h 0 (by omega)

/-- A string is read in pieces. -/
theorem Memory.readBytes_add (a n k : Nat) :
    Memory.readBytes m a (n + k) = Memory.readBytes m a n ++ Memory.readBytes m (a + n) k := by
  induction n generalizing a with
  | zero => simp [Memory.readBytes]
  | succ n ih =>
    rw [show n + 1 + k = (n + k) + 1 by omega, Memory.readBytes, Memory.readBytes, ih, List.cons_append]
    congr 3
    omega

/-- A string is written in pieces. -/
theorem Memory.writeBytes_append (a : Nat) (s t : List Byte) :
    Memory.writeBytes m a (s ++ t) = Memory.writeBytes (Memory.writeBytes m a s) (a + s.length) t := by
  induction s generalizing m a with
  | nil => simp [Memory.writeBytes]
  | cons b s ih =>
    rw [List.cons_append, Memory.writeBytes, Memory.writeBytes, ih, List.length_cons]
    congr 1
    omega

/-- A string just written is read back. -/
theorem Memory.readBytes_writeBytes (a : Nat) (s : List Byte) (h : m.Pairwise (fun p q => p.1 < q.1)) :
    Memory.readBytes (Memory.writeBytes m a s) a s.length = s := by
  apply List.ext_getElem (by simp)
  intro i h1 h2
  have := Memory.readBytes_getD (Memory.writeBytes m a s) a s.length i h2
  rw [Memory.read_writeBytes m a s _ h, if_pos (by omega), List.getD_eq_getElem _ _ h1,
    show a + i - a = i by omega, List.getD_eq_getElem _ _ h2] at this
  exact this

/-- A string is read as before where nothing is written. -/
theorem Memory.readBytes_writeBytes_of_disjoint (a : Nat) (s : List Byte) (a' n : Nat)
    (h : m.Pairwise (fun p q => p.1 < q.1)) (hd : a' + n ≤ a ∨ a + s.length ≤ a') :
    Memory.readBytes (Memory.writeBytes m a s) a' n = Memory.readBytes m a' n :=
  Memory.readBytes_congr _ _ fun i hi => by
    rw [Memory.read_writeBytes m a s _ h, if_neg (by omega)]

end Sys2Proof.Machine
end

