-- ==== Sys2Proof/Laws/Command.lean ====
section
/-! SUPPORT. What a command can do: the inversion of `runCommand` and when each of its checks passes. -/

namespace Sys2Proof.Machine

open Sys2Proof

/-! The checks that are computed as a Bool, as the propositions they decide. -/

theorem aadTooLong_iff (s : State) :
    aadTooLong s = true ↔ s.cfg.aadMaxBits.toNat < s.ctx.aadLenBits.toNat + 8 * s.len.toNat := by
  rw [aadTooLong, decide_eq_true_eq]

theorem dataTooLong_iff (s : State) :
    dataTooLong s = true ↔ s.cfg.dataMaxBits.toNat < s.ctx.dataLenBits.toNat + 8 * s.len.toNat := by
  rw [dataTooLong, decide_eq_true_eq]

theorem keyLength_iff (n : Nat) : keyLength n = true ↔ n = 16 ∨ n = 24 ∨ n = 32 := by
  simp only [keyLength, Bool.or_eq_true, decide_eq_true_eq, or_assoc]

theorem bulkDomain_iff (o : RequestOps) :
    bulkDomain o = true ↔ o.s.length % 16 = 0 ∧ o.s.length / 16 ≤ 2 ^ 32 - (ctrField o.y).toNat := by
  rw [bulkDomain, Bool.and_eq_true, decide_eq_true_eq, decide_eq_true_eq, blocksUntilWrap]

/-- The four ways a command answers a next state (43_sequencing.md R190). -/
theorem runCommand_next {c : Command} {body : Phase → State → State} {s t : State}
    (h : runCommand c body s = .next t) :
    (phaseTable c s.phase = none ∧ t = s.raise .protocolOrderError) ∨
    (∃ p e, phaseTable c s.phase = some p ∧ lengthError c s = some e ∧ t = s.raise e) ∨
    (∃ p, phaseTable c s.phase = some p ∧ lengthError c s = none ∧ accessDenied c s = true ∧
      t = s.raise .accessError) ∨
    (∃ p, phaseTable c s.phase = some p ∧ lengthError c s = none ∧ accessDenied c s = false ∧
      touchesWindow c s = false ∧ t = body p s) := by
  unfold runCommand at h
  split at h
  · next hp => exact .inl ⟨hp, by simpa using h.symm⟩
  · next p hp =>
    split at h
    · next e he => exact .inr (.inl ⟨p, e, hp, he, by simpa using h.symm⟩)
    · next he =>
      split at h
      · next ha => exact .inr (.inr (.inl ⟨p, hp, he, ha, by simpa using h.symm⟩))
      · next ha =>
        split at h
        · cases h
        · next hw =>
          exact .inr (.inr (.inr ⟨p, hp, he, by simpa using ha, by simpa using hw, by simpa using h.symm⟩))

/-- The one way a command is refused (20_memory.md R68). -/
theorem runCommand_refused {c : Command} {body : Phase → State → State} {s : State} {r : Refusal}
    (h : runCommand c body s = .refused r) : r = .ownWindowRange ∧ touchesWindow c s = true := by
  unfold runCommand at h
  split at h
  · cases h
  · split at h
    · cases h
    · split at h
      · cases h
      · split at h
        · next hw => exact ⟨by simpa using h.symm, hw⟩
        · cases h

/-- A command whose checks all pass runs its body. -/
theorem runCommand_accepted {c : Command} {body : Phase → State → State} {s : State} {p : Phase}
    (hp : phaseTable c s.phase = some p) (hl : lengthError c s = none) (ha : accessDenied c s = false)
    (hw : touchesWindow c s = false) : runCommand c body s = .next (body p s) := by
  simp [runCommand, hp, hl, ha, hw]

/-- A range is usable when it is admitted and clear of the block's own window. -/
theorem usable_iff (cfg : Config) (g : Range) :
    usable cfg g ↔ rangeAdmitted cfg g = true ∧ coversWindow cfg g = false := by
  simp only [usable, rangeAdmitted, coversWindow, Bool.or_eq_true, Bool.and_eq_true, decide_eq_true_eq,
    Bool.and_eq_false_iff, decide_eq_false_iff_not]
  constructor
  · rintro (h | ⟨h1, h2, h3⟩)
    · exact ⟨.inl h, .inl (.inl (by omega))⟩
    · exact ⟨.inr ⟨h1, h2⟩, by omega⟩
  · rintro ⟨h | ⟨h1, h2⟩, h3⟩
    · exact .inl h
    · by_cases h0 : g.len = 0
      · exact .inl h0
      · exact .inr ⟨h1, h2, by omega⟩

theorem partialOverlap_eq_false (s : State) : partialOverlap s = false ↔ s.len.toNat = 0 ∨ identicalOrDisjoint s := by
  simp only [partialOverlap, identicalOrDisjoint, Bool.and_eq_false_iff, decide_eq_false_iff_not]
  constructor
  · rintro (((h | h) | h) | h)
    · exact .inl (by omega)
    · exact .inr (.inl (not_not.1 h))
    · exact .inr (.inr (.inr (by omega)))
    · exact .inr (.inr (.inl (by omega)))
  · rintro (h | h | h | h)
    · exact .inl (.inl (.inl (by omega)))
    · exact .inl (.inl (.inr (not_not.2 h)))
    · exact .inr (by omega)
    · exact .inl (.inr (by omega))

/-- Step 4 passes, and the window is clear, exactly when every range is usable and the two ranges of a
data command do not overlap illegally. -/
theorem memory_checks_pass (c : Command) (s : State) :
    (accessDenied c s = false ∧ touchesWindow c s = false) ↔
      (∀ g ∈ commandRanges c s, usable s.cfg g) ∧ illegalOverlap c s = false := by
  simp only [accessDenied, touchesWindow, Bool.or_eq_false_iff, List.any_eq_false, usable_iff]
  constructor
  · rintro ⟨⟨h1, h2⟩, h3⟩
    exact ⟨fun g hg => ⟨by simpa using h1 g hg, by simpa using h3 g hg⟩, h2⟩
  · rintro ⟨h1, h2⟩
    exact ⟨⟨fun g hg => by simp [(h1 g hg).1], h2⟩, fun g hg => by simp [(h1 g hg).2]⟩

end Sys2Proof.Machine
end

