-- ==== Sys2Proof/Laws/PerInstr.lean ====
section
/-! SUPPORT. What holds of every instruction as syntax, a lemma for each constructor. -/

namespace Sys2Proof.Laws.CodeShape

open Sys2Proof Sys2Proof.Machine

/-- The shape of a code, given the command it stands for if any: a format C word has its reserved bits 0
and an opcode from 1 to 7, and is a command's (30_encoding.md R91, R93); a format P code names one of
the three units and a function from 0 to 2, and is no command's (R95). -/
def shape : Code → Option Command → Bool
  | .command w, c => rsvdField w == 0 && decide (1 ≤ (opField w).toNat ∧ (opField w).toNat ≤ 7) && c.isSome
  | .request r, c =>
    decide (1 ≤ (unitField r).toNat ∧ (unitField r).toNat ≤ 3 ∧ (funcField r).toNat ≤ 2) && c.isNone

/-- An instruction is well formed, and its code has the shape of its kind. -/
def Statement (i : Instr) : Prop := i.wf = true ∧ shape (encode i) (commandOfInstr i) = true

theorem init : Statement .init := ⟨rfl, by decide⟩
theorem setiv : Statement .setiv := ⟨rfl, by decide⟩
theorem aad : Statement .aad := ⟨rfl, by decide⟩
theorem enc : Statement .enc := ⟨rfl, by decide⟩
theorem dec : Statement .dec := ⟨rfl, by decide⟩
theorem finish : Statement .finish := ⟨rfl, by decide⟩
theorem verify : Statement .verify := ⟨rfl, by decide⟩
theorem aesExpand : Statement .aesExpand := ⟨rfl, by decide⟩
theorem aesEncrypt : Statement .aesEncrypt := ⟨rfl, by decide⟩
theorem ghashBuild : Statement .ghashBuild := ⟨rfl, by decide⟩
theorem ghashMul : Statement .ghashMul := ⟨rfl, by decide⟩
theorem ghashMulrange : Statement .ghashMulrange := ⟨rfl, by decide⟩
theorem ctrBlocks : Statement .ctrBlocks := ⟨rfl, by decide⟩
theorem bulkEnc : Statement .bulkEnc := ⟨rfl, by decide⟩
theorem bulkDec : Statement .bulkDec := ⟨rfl, by decide⟩

end Sys2Proof.Laws.CodeShape
end

