-- ==== Sys2Proof/Laws/Streams.lean ====
section
/-! SUPPORT. The streams: absorbing a string byte by byte and by whole blocks, and a data string under its
keystream (45_aad.md, 46_data.md). -/

namespace Sys2Proof.Machine

open Sys2Proof

variable (dir : Dir) (k : RoundKeys) (hT : Block)

theorem residue_succ_eq_zero (r : BitVec 4) : r + 1 = 0 ↔ r = 15 := by
  revert r
  decide

/-! ## Absorbing -/

@[simp] theorem absorb_nil (a : Absorber) : absorb hT a [] = a := rfl

theorem absorb_cons (a : Absorber) (b : Byte) (s : List Byte) :
    absorb hT a (b :: s) = absorb hT (absorbByte hT a b) s := rfl

theorem absorb_append (a : Absorber) (s t : List Byte) :
    absorb hT a (s ++ t) = absorb hT (absorb hT a s) t := List.foldl_append ..

/-- A string that does not complete the block is exclusive-ored in at the residue. -/
theorem absorb_partial (x : Block) (r : Nat) (s : List Byte) (h : r + s.length < 16) :
    absorb hT ⟨x, BitVec.ofNat 4 r⟩ s = ⟨xorBytes x r s, BitVec.ofNat 4 (r + s.length)⟩ := by
  induction s generalizing x r with
  | nil => rfl
  | cons b s ih =>
    rw [List.length_cons] at h
    have hr : (BitVec.ofNat 4 r).toNat = r := by simp [BitVec.toNat_ofNat]; omega
    have h15 : ¬ BitVec.ofNat 4 r = 15 := fun e => by
      have := congrArg BitVec.toNat e
      rw [hr] at this
      have : r = 15 := this
      omega
    have hs : (BitVec.ofNat 4 r + 1 : BitVec 4) = BitVec.ofNat 4 (r + 1) := by
      simp [BitVec.ofNat_add]
    rw [absorb_cons, absorbByte, if_neg h15, hs, hr, ih _ _ (by omega), xorBytes]
    congr 2
    rw [List.length_cons]
    omega

/-- A whole block absorbed byte by byte is one exclusive-or and one multiply. -/
theorem absorb_block (x : Block) (s : List Byte) (h : s.length = 16) :
    absorb hT ⟨x, 0⟩ s = ⟨ghashMul (x ^^^ blockOfBytes s) hT, 0⟩ := by
  rw [← List.dropLast_concat_getLast (l := s) (by intro e; simp [e] at h)]
  have hl : s.dropLast.length = 15 := by simp [h]
  have hp := absorb_partial hT x 0 s.dropLast (by omega)
  rw [hl] at hp
  rw [absorb_append, show (⟨x, 0⟩ : Absorber) = ⟨x, BitVec.ofNat 4 0⟩ from rfl, hp, absorb_cons, absorb_nil,
    absorbByte]
  have e : xorByte (xorBytes x 0 s.dropLast) 15 (s.getLast (by intro e; simp [e] at h)) =
      x ^^^ blockOfBytes s := by
    rw [← xorBytes_block x s h]
    conv_rhs => rw [← List.dropLast_concat_getLast (l := s) (by intro e; simp [e] at h)]
    rw [xorBytes_append, hl]
    rfl
  rw [List.dropLast_concat_getLast]
  simp only [BitVec.toNat_ofNat]
  exact congrArg (fun v => (⟨ghashMul v hT, 0⟩ : Absorber)) e

/-- Whole blocks absorbed byte by byte are one `GHASH.MULRANGE` (41_ghash.md R158). -/
theorem absorb_blocks (n : Nat) (x : Block) (s : List Byte) (h : s.length = 16 * n) :
    absorb hT ⟨x, 0⟩ s = ⟨mulRange hT n s x, 0⟩ := by
  induction n generalizing x s with
  | zero =>
    have e : s = [] := List.length_eq_zero_iff.1 (by omega)
    subst e
    rfl
  | succ n ih =>
    conv_lhs => rw [← List.take_append_drop 16 s]
    rw [absorb_append, absorb_block hT x _ (by simp; omega), ih _ _ (by simp; omega), mulRange]

/-- What step 1 of `AAD` does: it absorbs the front of the input, and stops at its end or at a block
boundary. -/
theorem aadFill_spec (a : List Byte) (x : Block) (r : BitVec 4) :
    ∃ used, a = used ++ (aadFill hT a x r).rest ∧
      absorb hT ⟨x, r⟩ used = ⟨(aadFill hT a x r).x, (aadFill hT a x r).residue⟩ ∧
      ((aadFill hT a x r).rest = [] ∨ (aadFill hT a x r).residue = 0) := by
  induction a generalizing x r with
  | nil => exact ⟨[], rfl, rfl, .inl rfl⟩
  | cons b a ih =>
    by_cases h : r = 0
    · exact ⟨[], by simp [aadFill, h]⟩
    · obtain ⟨used, h1, h2, h3⟩ :=
        ih (if r + 1 = 0 then ghashMul (xorByte x r.toNat b) hT else xorByte x r.toNat b) (r + 1)
      have e : aadFill hT (b :: a) x r =
          aadFill hT a (if r + 1 = 0 then ghashMul (xorByte x r.toNat b) hT else xorByte x r.toNat b)
            (r + 1) := by
        rw [aadFill, if_neg h]
      rw [e]
      refine ⟨b :: used, by rw [List.cons_append, ← h1], ?_, h3⟩
      rw [absorb_cons, absorbByte, ← h2]
      simp only [residue_succ_eq_zero]

/-! ## A data string -/

@[simp] theorem streamBytes_nil (st : Stream) : streamBytes dir k hT st [] = ([], st) := rfl

theorem streamBytes_cons (st : Stream) (b : Byte) (d : List Byte) :
    streamBytes dir k hT st (b :: d) =
      ((streamByte dir k hT st b).1 :: (streamBytes dir k hT (streamByte dir k hT st b).2 d).1,
        (streamBytes dir k hT (streamByte dir k hT st b).2 d).2) := rfl

theorem streamBytes_append (st : Stream) (d e : List Byte) :
    streamBytes dir k hT st (d ++ e) =
      ((streamBytes dir k hT st d).1 ++ (streamBytes dir k hT (streamBytes dir k hT st d).2 e).1,
        (streamBytes dir k hT (streamBytes dir k hT st d).2 e).2) := by
  induction d generalizing st with
  | nil => simp
  | cons b d ih => simp [streamBytes_cons, ih]

@[simp] theorem streamBytes_length (st : Stream) (d : List Byte) :
    (streamBytes dir k hT st d).1.length = d.length := by
  induction d generalizing st with
  | nil => rfl
  | cons b d ih => simp [streamBytes_cons, ih]

/-- What step C does: it runs the front of the input under the open block's keystream, and stops at the
input's end or at the block's. -/
theorem headPartial_spec (y eki : Block) (d : List Byte) (x : Block) (r : BitVec 4) :
    ∃ used, d = used ++ (headPartial dir hT eki d x r).rest ∧
      streamBytes dir k hT ⟨y, eki, ⟨x, r⟩⟩ used =
        ((headPartial dir hT eki d x r).out,
          ⟨y, eki, ⟨(headPartial dir hT eki d x r).x, (headPartial dir hT eki d x r).residue⟩⟩) ∧
      ((headPartial dir hT eki d x r).rest = [] ∨ (headPartial dir hT eki d x r).residue = 0) := by
  induction d generalizing x r with
  | nil => exact ⟨[], rfl, rfl, .inl rfl⟩
  | cons b d ih =>
    by_cases h : r = 0
    · exact ⟨[], by simp [headPartial, h]⟩
    · let o := b ^^^ byteAt eki r.toNat
      let x' := xorByte x r.toNat (cipherOf dir b o)
      obtain ⟨used, h1, h2, h3⟩ := ih (if r + 1 = 0 then ghashMul x' hT else x') (r + 1)
      have e : headPartial dir hT eki (b :: d) x r =
          { headPartial dir hT eki d (if r + 1 = 0 then ghashMul x' hT else x') (r + 1) with
            out := o :: (headPartial dir hT eki d (if r + 1 = 0 then ghashMul x' hT else x') (r + 1)).out } := by
        rw [headPartial, if_neg h]
      rw [e]
      refine ⟨b :: used, by rw [List.cons_append, ← h1], ?_, h3⟩
      have hb : streamByte dir k hT ⟨y, eki, ⟨x, r⟩⟩ b =
          (o, ⟨y, eki, ⟨if r + 1 = 0 then ghashMul x' hT else x', r + 1⟩⟩) := by
        simp only [streamByte, h, if_false, absorbByte, residue_succ_eq_zero]
        rfl
      rw [streamBytes_cons, hb, h2]

/-- The bytes of a string that opens a block and does not complete it. -/
theorem streamBytes_open (y eki ks x : Block) (r : Nat) (d : List Byte) (h0 : 0 < r) (h : r + d.length < 16)
    (he : eki = ks) :
    streamBytes dir k hT ⟨y, eki, ⟨x, BitVec.ofNat 4 r⟩⟩ d =
      (xorStrings d ((bytesOfBlock ks).drop r),
        ⟨y, eki, absorb hT ⟨x, BitVec.ofNat 4 r⟩ (cipherOf dir d (xorStrings d ((bytesOfBlock ks).drop r)))⟩) := by
  subst he
  induction d generalizing x r with
  | nil => cases dir <;> rfl
  | cons b d ih =>
    rw [List.length_cons] at h
    have hr : (BitVec.ofNat 4 r).toNat = r := by simp [BitVec.toNat_ofNat]; omega
    have hr0 : ¬ BitVec.ofNat 4 r = 0 := fun e => by
      have := congrArg BitVec.toNat e
      rw [hr] at this
      have : r = 0 := this
      omega
    have hs : (BitVec.ofNat 4 r + 1 : BitVec 4) = BitVec.ofNat 4 (r + 1) := by simp [BitVec.ofNat_add]
    have hd : (bytesOfBlock eki).drop r = byteAt eki r :: (bytesOfBlock eki).drop (r + 1) := by
      rw [List.drop_eq_getElem_cons (by simp; omega), ← bytesOfBlock_getD eki r (by omega),
        List.getD_eq_getElem]
    have hx : xorStrings (b :: d) ((bytesOfBlock eki).drop r) =
        (b ^^^ byteAt eki r) :: xorStrings d ((bytesOfBlock eki).drop (r + 1)) := by
      rw [hd]; rfl
    have hstep : streamByte dir k hT ⟨y, eki, ⟨x, BitVec.ofNat 4 r⟩⟩ b =
        (b ^^^ byteAt eki r, ⟨y, eki, absorbByte hT ⟨x, BitVec.ofNat 4 r⟩ (cipherOf dir b (b ^^^ byteAt eki r))⟩) := by
      simp only [streamByte, hr0, if_false, hr]
    have h15 : ¬ BitVec.ofNat 4 r = 15 := fun e => by
      have := congrArg BitVec.toNat e
      rw [hr] at this
      have : r = 15 := this
      omega
    rw [streamBytes_cons, hstep, hx]
    have ha : absorbByte hT ⟨x, BitVec.ofNat 4 r⟩ (cipherOf dir b (b ^^^ byteAt eki r)) =
        ⟨xorByte x r (cipherOf dir b (b ^^^ byteAt eki r)), BitVec.ofNat 4 (r + 1)⟩ := by
      rw [absorbByte, if_neg h15, hs, hr]
    rw [ha, ih _ _ (by omega) (by omega)]
    cases dir <;> simp only [cipherOf, absorb_cons] at ha ⊢ <;> rw [ha]

/-- A string shorter than a block, from a block boundary: step E (46_data.md R239). -/
theorem streamBytes_tail (y eki x : Block) (d : List Byte) (h0 : d ≠ []) (h : d.length < 16) :
    streamBytes dir k hT ⟨y, eki, ⟨x, 0⟩⟩ d =
      (xorStrings d (bytesOfBlock (encryptBlock k y)),
        ⟨inc32 y, encryptBlock k y,
          ⟨xorBytes x 0 (cipherOf dir d (xorStrings d (bytesOfBlock (encryptBlock k y)))),
            BitVec.ofNat 4 d.length⟩⟩) := by
  obtain ⟨b, d, rfl⟩ := List.exists_cons_of_ne_nil h0
  rw [List.length_cons] at h
  have hb : bytesOfBlock (encryptBlock k y) =
      byteAt (encryptBlock k y) 0 :: (bytesOfBlock (encryptBlock k y)).drop 1 := rfl
  have hstep : streamByte dir k hT ⟨y, eki, ⟨x, 0⟩⟩ b =
      (b ^^^ byteAt (encryptBlock k y) 0,
        ⟨inc32 y, encryptBlock k y,
          ⟨xorByte x 0 (cipherOf dir b (b ^^^ byteAt (encryptBlock k y) 0)), BitVec.ofNat 4 1⟩⟩) := by
    simp [streamByte, absorbByte]
  rw [streamBytes_cons, hstep, streamBytes_open dir k hT _ _ _ _ 1 d (by omega) (by omega) rfl]
  have hl : ∀ s : List Byte, s.length = d.length → absorb hT ⟨xorByte x 0 (cipherOf dir b (b ^^^ byteAt (encryptBlock k y) 0)),
      BitVec.ofNat 4 1⟩ s = ⟨xorBytes (xorByte x 0 (cipherOf dir b (b ^^^ byteAt (encryptBlock k y) 0))) 1 s,
        BitVec.ofNat 4 (1 + s.length)⟩ := fun s hs => absorb_partial hT _ 1 s (by omega)
  have hlen : (cipherOf dir d (xorStrings d ((bytesOfBlock (encryptBlock k y)).drop 1))).length = d.length := by
    cases dir <;> simp [cipherOf, xorStrings]
    omega
  have hx : xorStrings (b :: d) (bytesOfBlock (encryptBlock k y)) =
      (b ^^^ byteAt (encryptBlock k y) 0) :: xorStrings d ((bytesOfBlock (encryptBlock k y)).drop 1) := by
    rw [hb]; rfl
  rw [hl _ hlen, hlen, hx, List.length_cons, Nat.add_comm 1]
  cases dir <;> rfl

end Sys2Proof.Machine
end

