-- ==== Sys2Proof/Laws/Tag.lean ====
section
/-! SUPPORT. The tag: what the comparison of `VERIFY` finds (47_finish.md R264, R267). -/

namespace Sys2Proof.Machine

open Sys2Proof

theorem byte_or_eq_zero (a b : Byte) : a ||| b = 0 ↔ a = 0 ∧ b = 0 := BitVec.or_eq_zero_iff

theorem byte_xor_eq_zero (a b : Byte) : a ^^^ b = 0 ↔ a = b := BitVec.xor_eq_zero_iff

/-- Bytes or-ed together are 0 exactly when each of them is. -/
theorem foldl_or_eq_zero (l : List Byte) (a : Byte) :
    l.foldl (fun d e => d ||| e) a = 0 ↔ a = 0 ∧ ∀ b ∈ l, b = 0 := by
  induction l generalizing a with
  | nil => simp
  | cons b l ih => rw [List.foldl_cons, ih, byte_or_eq_zero, List.forall_mem_cons, and_assoc]

/-- The exclusive-or of a string and a shorter one is all zeros exactly when the shorter is its front. -/
theorem xorStrings_eq_zero_iff (a b : List Byte) (h : b.length ≤ a.length) :
    (∀ z ∈ xorStrings a b, z = 0) ↔ a.take b.length = b := by
  induction a generalizing b with
  | nil =>
    have e : b = [] := List.length_eq_zero_iff.1 (by simpa using h)
    subst e
    simp [xorStrings]
  | cons x a ih =>
    cases b with
    | nil => simp [xorStrings]
    | cons y b =>
      have ih := ih b (by simpa using h)
      simp only [xorStrings] at ih
      simp only [xorStrings, List.zipWith_cons_cons, List.forall_mem_cons, List.length_cons, List.take_succ_cons,
        List.cons.injEq, ih, byte_xor_eq_zero]

/-- The comparison of `VERIFY` finds no difference exactly when the expected bytes are the front of the tag: a
flipped tag bit within the compared bytes is always found (47_finish.md R264, R267). -/
theorem tagDiff_eq_zero_iff (tag : Block) (e : List Byte) (h : e.length ≤ 16) :
    tagDiff tag e = 0 ↔ (bytesOfBlock tag).take e.length = e := by
  rw [tagDiff, foldl_or_eq_zero, xorStrings_eq_zero_iff _ _ (by simpa using h)]
  simp

/-- `VERIFY` reports a match exactly when the expected bytes are the front of the tag, and writes `X` and
`PHASE` either way (47_finish.md R264, R267). -/
theorem verifyBody_matched (p : Phase) (s : State) (h : s.len.toNat ≤ 16) :
    (verifyBody p s).matched = true ↔
      (bytesOfBlock (tagOf s.ctx)).take s.len.toNat = inputBytes s s.len.toNat := by
  have hd := tagDiff_eq_zero_iff (tagOf s.ctx) (inputBytes s s.len.toNat) (by simpa [inputBytes] using h)
  rw [show (inputBytes s s.len.toNat).length = s.len.toNat by simp [inputBytes]] at hd
  rw [← hd, verifyBody, verifyReport]
  split
  · next h0 => simp [h0]
  · next h0 => simpa using h0

end Sys2Proof.Machine
end

