-- ==== Sys2Proof/Tests/Slice0.lean ====
section
/-! SUPPORT. The model's own tests: the checks of well-formedness refuse ill-formed terms, each constructor's
code is decoded from a word written out from 30_encoding.md, one step of each instruction gives the value
of a vector V<n> of 95_test_vectors.md, and the hypotheses of each obligation are met somewhere. -/

namespace Sys2Proof.Tests

open Sys2Proof Sys2Proof.Machine Sys2Proof.Spec

/-! ## Helpers -/

/-- The `n` bytes of a number, the most significant first. -/
def bytes (n v : Nat) : List Byte := (List.range n).map fun i => BitVec.ofNat 8 (v / 256 ^ (n - 1 - i))

/-- A next state that passes a check. -/
def after (o : Host.Outcome State Fault Refusal) (p : State → Bool) : Bool :=
  match o with
  | .next t => p t
  | .fault _ => false
  | .refused _ => false

/-- What `after` says. -/
theorem exists_of_after {o : Host.Outcome State Fault Refusal} {p : State → Bool} (h : after o p = true) :
    ∃ t, o = .next t ∧ p t = true := by
  cases o with
  | next t => exact ⟨t, rfl, h⟩
  | fault f => cases h
  | refused r => cases h

/-- A state in a phase, with its operands. -/
def stateAt (p : Phase) (src dst len : Nat) : State :=
  { State.reset with
    phase := p, src := BitVec.ofNat 64 src, dst := BitVec.ofNat 64 dst, len := BitVec.ofNat 64 len }

/-- The context after `INIT` with the zero key and `SETIV` with the zero IV (V50, V52). -/
def zeroContext : Context :=
  { Context.atReset with
    roundKeys := expandKey (List.replicate 16 0), hTable := 0x66e94bd4ef8a2c3b884cfa59ca342b2e, y := 2,
    ek0 := 0x58e2fccefa7e3061367f1d57a4e7455a }

/-- A state with a string in the data memory. -/
def withBytes (a : Nat) (b : List Byte) (s : State) : State := s.withMem (s.mem.writeBytes a b)

/-- A state whose request port holds operands. -/
def portWith (f : RequestOps → RequestOps) : State := State.reset.withOps (f State.reset.port.ops)

/-- A state with one event to come. -/
def withEvent (e : HostEvent) : State := State.reset.withPending [e]

/-- A short stand-in for a schedule, for tests of what does not depend on the cipher. -/
def anyKeys : RoundKeys := ⟨.r10, []⟩

/-! ## Well-formedness -/

theorem test_wf_config : Config.atReset.wf = true := by decide
theorem test_wf_unaligned_window : Config.wf { Config.atReset with regBase := 2 } = false := by decide
theorem test_wf_zero_threshold : Config.wf { Config.atReset with bulkMinBlocks := 0 } = false := by decide
theorem test_wf_take_too_much : Config.wf { Config.atReset with bulkTakes := [(3, 4)] } = false := by decide
theorem test_wf_round_keys : RoundKeys.wf ⟨.r10, List.replicate 11 0⟩ = true := by decide
theorem test_wf_missing_round_key : RoundKeys.wf ⟨.r12, List.replicate 12 0⟩ = false := by decide
theorem test_wf_memory_order : ¬ Memory.wf [(5, 1), (4, 1)] := by decide
theorem test_wf_memory_zero : ¬ Memory.wf [(5, 0)] := by decide

/-! ## Decoding: every code written out from 30_encoding.md R91, R93 and R95 -/

theorem test_decode_init : decode (.command 0b00000000000000000000000000000001) = .ok .init := by decide
theorem test_decode_setiv : decode (.command 0b00000000000000000000000000000010) = .ok .setiv := by decide
theorem test_decode_aad : decode (.command 0b00000000000000000000000000000011) = .ok .aad := by decide
theorem test_decode_enc : decode (.command 0b00000000000000000000000000000100) = .ok .enc := by decide
theorem test_decode_dec : decode (.command 0b00000000000000000000000000000101) = .ok .dec := by decide
theorem test_decode_finish : decode (.command 0b00000000000000000000000000000110) = .ok .finish := by decide
theorem test_decode_verify : decode (.command 0b00000000000000000000000000000111) = .ok .verify := by decide
theorem test_decode_aesExpand : decode (.request 0b00010000) = .ok .aesExpand := by decide
theorem test_decode_aesEncrypt : decode (.request 0b00010001) = .ok .aesEncrypt := by decide
theorem test_decode_ghashBuild : decode (.request 0b00100000) = .ok .ghashBuild := by decide
theorem test_decode_ghashMul : decode (.request 0b00100001) = .ok .ghashMul := by decide
theorem test_decode_ghashMulrange : decode (.request 0b00100010) = .ok .ghashMulrange := by decide
theorem test_decode_ctrBlocks : decode (.request 0b00110000) = .ok .ctrBlocks := by decide
theorem test_decode_bulkEnc : decode (.request 0b00110001) = .ok .bulkEnc := by decide
theorem test_decode_bulkDec : decode (.request 0b00110010) = .ok .bulkDec := by decide

/-- V91: the illegal command words name no command, and leave `STATUS` 0x206 in `P_AAD`. -/
theorem test_decode_illegal :
    ([0, 8, 9, 0xF, 0x10, 0x11, 0x13, 0x101, 0x80000001, 0xFFFFFFFF] : List Word32).all
      (fun w => (decode (.command w)).toOption.isNone &&
        after (submitCommand w (stateAt .aad 0 0 0)) fun t => statusWord t == 0x206) = true := by decide

/-! ## One step of each instruction -/

/-- V50, row 1, and R210's example. -/
theorem test_init_zero_key :
    after (exec .init (stateAt .reset 0 0 16)) (fun t =>
      t.ctx.hTable == 0x66e94bd4ef8a2c3b884cfa59ca342b2e &&
      t.ctx.roundKeys.key 10 == 0xb4ef5bcb3e92e21123e951cf6f8f188e && statusWord t == 0x100) = true := by
  decide +kernel

/-- V51: `LEN = 2^32 + 16` is no key length. -/
theorem test_init_bad_length :
    after (exec .init (stateAt .enc 0 0 4294967312)) (fun t => statusWord t == 0x301) = true := by
  decide +kernel

/-- V52, the row of `K1` and `IV1`: the IV's bytes in the order they lie at `SRC`. -/
theorem test_setiv_iv1 :
    after (exec .setiv (withBytes 0 (bytes 12 0xcafebabefacedbaddecaf888)
      { stateAt .keyed 0 0 12 with
        ctx := { zeroContext with roundKeys := expandKey (bytes 16 0xfeffe9928665731c6d6a8f9467308308) } })) (fun t =>
      t.ctx.ek0 == 0x3247184b3c4f69a44dbcd22887bbb418 && t.ctx.y == 0xcafebabefacedbaddecaf88800000002 &&
      statusWord t == 0x200) = true := by
  decide +kernel

/-- V53: a bad `LEN`, and that in `P_RESET` the order error comes first. -/
theorem test_setiv_bad_length :
    ([0, 1, 8, 11, 13, 16, 4294967308] : List Nat).all (fun n =>
      after (exec .setiv (stateAt .keyed 0 0 n)) (fun t => statusWord t == 0x102) &&
      after (exec .setiv (stateAt .reset 0 0 n)) (fun t => statusWord t == 3)) = true := by decide +kernel

/-- V60: 20 bytes under the subkey of `K1`. -/
theorem test_aad_twenty_bytes :
    after (exec .aad (withBytes 0x1100 (bytes 20 0xfeedfacedeadbeeffeedfacedeadbeefabaddad2)
      { stateAt .aad 0x1100 0 20 with
        ctx := { zeroContext with hTable := 0xb83b533708bf535d0aa6e52980d53b78 } })) (fun t =>
      t.ctx.x == 0x46fb702aa72d67049fdb9228edba1322 && t.ctx.aadResidue == 4 && t.ctx.aadLenBits == 160 &&
      statusWord t == 0x200) = true := by
  decide +kernel

/-- V101: `8*LEN` is not reduced modulo 2^64. -/
theorem test_aad_limit :
    after (exec .aad { stateAt .aad 0 0 (2 ^ 64 - 1) with ctx := { zeroContext with aadLenBits := 8 } })
      (fun t => statusWord t == 0x204) = true := by decide +kernel

/-- V70. -/
theorem test_enc_block :
    after (exec .enc { stateAt .aad 0x2000 0x3000 16 with ctx := zeroContext }) (fun t =>
      t.mem.readBytes 0x3000 16 == bytes 16 0x0388dace60b6a392f328c2b971b2fe78 &&
      t.ctx.x == 0x5e2ec746917062882c85b0685353deb7 && t.ctx.y == 3 && statusWord t == 0x300) = true := by
  decide +kernel

/-- V44: a whole block at counter ffffffff, then a partial block across the wrap. -/
theorem test_enc_wrap :
    after (exec .enc { stateAt .enc 0x2000 0x3000 21 with
      ctx := { zeroContext with y := 0xcafebabefacedbaddecaf888ffffffff } }) (fun t =>
      t.mem.readBytes 0x3000 21 == bytes 21 0x68fe7069ff7df99f87f5908992346b2205541be534 &&
      t.ctx.eki == 0x05541be53445b4e50150f063a186c884 &&
      t.ctx.y == 0xcafebabefacedbaddecaf88800000001 && t.ctx.dataResidue == 5) = true := by
  decide +kernel

/-- R241's example, in place. -/
theorem test_dec_block :
    after (exec .dec (withBytes 0x2000 (bytes 16 0x0388dace60b6a392f328c2b971b2fe78)
      { stateAt .aad 0x2000 0x2000 16 with ctx := zeroContext })) (fun t =>
      t.mem == [] && t.ctx.x == 0x5e2ec746917062882c85b0685353deb7 && t.ctx.dataLenBits == 128 &&
      statusWord t == 0x400) = true := by
  decide +kernel

/-- V103: the data ceiling. -/
theorem test_dec_limit :
    after (exec .dec (stateAt .dec 0 0 (2 ^ 61))) (fun t => statusWord t == 0x404) = true := by decide +kernel

/-- V1: the tag of the source's example. -/
theorem test_finish_empty_message :
    after (exec .finish { stateAt .aad 0 0x4000 0 with ctx := zeroContext }) (fun t =>
      t.mem.readBytes 0x4000 16 == bytes 16 0x58e2fccefa7e3061367f1d57a4e7455a && statusWord t == 0x500) =
      true := by
  decide +kernel

/-- V92: the 16 bytes at `DST` pass the platform's bound. -/
theorem test_finish_access :
    after (exec .finish { stateAt .aad 0 0xFFF8 0 with
      cfg := { Config.atReset with admitRules := [⟨.write, 0, 0x10000, 0, 0x10000⟩] } })
      (fun t => statusWord t == 0x207) = true := by decide +kernel

/-- V90, row `VERIFY`: zero bytes are not the tag. -/
theorem test_verify_mismatch :
    after (exec .verify { stateAt .aad 0x4000 0 16 with ctx := zeroContext })
      (fun t => statusWord t == 0x505) = true := by decide +kernel

/-! ## Whole messages (47_finish.md R267)

A few commands in a row, the host placing each one's input and operands before it. -/

/-- The state the host hands to a command: its input at 0x1000, the output to go to 0x2000. -/
def ready (input : List Byte) (s : State) : State :=
  { s with
    mem := Memory.writeBytes [] 0x1000 input, src := 0x1000, dst := 0x2000,
    len := BitVec.ofNat 64 input.length }

/-- A command on an input, `none` unless it is accepted and writes `output`. -/
def go (c : Command) (input output : List Byte) (s : State) : Option State :=
  match exec c.instr (ready input s) with
  | .next t =>
    if (ready input s).mem.wf ∧ (ready input s).mem.readBytes 0x1000 (readLength c (ready input s)) = input ∧
        t.err = .ok ∧ t.mem.readBytes 0x2000 (writeLength c (ready input s)) = output
    then some t else none
  | .fault _ => none
  | .refused _ => none

/-- A session opened. -/
def opens (key iv aad : List Byte) (s : State) : Option State :=
  (go .init key [] s).bind fun a => (go .setiv iv [] a).bind fun b => go .aad aad [] b

/-- A message sent. -/
def sends (key iv aad plain cipher tag : List Byte) (s : State) : Option State :=
  (opens key iv aad s).bind fun a => (go .enc plain cipher a).bind fun b => go .finish [] tag b

/-- A message received, up to its `VERIFY`. -/
def receives (key iv aad cipher plain : List Byte) (s : State) : Option State :=
  (opens key iv aad s).bind fun a => go .dec cipher plain a

/-- `STATUS` after a `VERIFY` of `tag` is `w`. -/
def verifies (tag : List Byte) (w : Word32) (s : State) : Bool :=
  after (exec .verify (ready tag s)) fun t => statusWord t == w

theorem issued_of_go {c : Command} {input output : List Byte} {s t : State} (h : go c input output s = some t) :
    issued c input s t output := by
  unfold go at h
  split at h
  · next u hu =>
    split at h
    · next hc =>
      cases h
      exact ⟨ready input s, ⟨rfl, rfl, rfl⟩, hc.1, hc.2.1, hu, hc.2.2.1, hc.2.2.2⟩
    · cases h
  · cases h
  · cases h

theorem opened_of_opens {key iv aad : List Byte} {s t : State} (h : opens key iv aad s = some t) :
    opened key iv aad s t := by
  obtain ⟨a, ha, h⟩ := Option.bind_eq_some_iff.1 h
  obtain ⟨b, hb, h⟩ := Option.bind_eq_some_iff.1 h
  exact ⟨a, b, issued_of_go ha, issued_of_go hb, issued_of_go h⟩

theorem sent_of_sends {key iv aad plain cipher tag : List Byte} {s t : State}
    (h : sends key iv aad plain cipher tag s = some t) : sent key iv aad plain cipher tag s t := by
  obtain ⟨a, ha, h⟩ := Option.bind_eq_some_iff.1 h
  obtain ⟨b, hb, h⟩ := Option.bind_eq_some_iff.1 h
  exact ⟨a, b, opened_of_opens ha, issued_of_go hb, issued_of_go h⟩

theorem received_of_receives {key iv aad cipher plain : List Byte} {s t : State}
    (h : receives key iv aad cipher plain s = some t) : received key iv aad cipher plain s t := by
  obtain ⟨a, ha, h⟩ := Option.bind_eq_some_iff.1 h
  exact ⟨a, opened_of_opens ha, issued_of_go h⟩

/-- The key `K1`, the IV `IV1`, the AAD `A20`, the plaintext `PT60`, its ciphertext and tag (V80, row 4). -/
def k1 : List Byte := bytes 16 0xfeffe9928665731c6d6a8f9467308308
@[inherit_doc k1]
def iv1 : List Byte := bytes 12 0xcafebabefacedbaddecaf888
@[inherit_doc k1]
def a20 : List Byte := bytes 20 0xfeedfacedeadbeeffeedfacedeadbeefabaddad2
@[inherit_doc k1]
def pt60 : List Byte := bytes 60
  0xd9313225f88406e5a55909c5aff5269a86a7a9531534f7da2e4c303d8a318a721c3c0c95956809532fcf0e2449a6b525b16aedf5aa0de657ba637b39
@[inherit_doc k1]
def ct60 : List Byte := bytes 60
  0x42831ec2217774244b7221b784d0d49ce3aa212f2c02a4e035c17e2329aca12e21d514b25466931c7d8f6a5aac84aa051ba30b396a0aac973d58e091
@[inherit_doc k1]
def tag60 : List Byte := bytes 16 0x5bc94fbc3221a5db94fae95ae7121a47

/-- A string with `e` exclusive-ored into byte `j`. -/
def flip (j : Nat) (e : Byte) (s : List Byte) : List Byte := s.modify j fun b => b ^^^ e

/-- The bytes `b` placed for `VERIFY` are usable and read back. -/
def placed (b : List Byte) (d : State) : Bool :=
  decide (usable (ready b d).cfg ⟨0x1000, b.length, .read⟩) && (ready b d).mem.readBytes 0x1000 b.length == b

/-- V80, row 4, as it is sent. -/
theorem test_message_sent : (sends k1 iv1 a20 pt60 ct60 tag60 State.reset).any (fun _ => true) = true := by
  decide +kernel

/-- V82 and V83: the message received, its plaintext written, and `VERIFY` with each row's bytes. -/
theorem test_message_received :
    (receives k1 iv1 a20 ct60 pt60 State.reset).any (fun d =>
      placed tag60 d && placed (tag60.take 1) d && placed [0] d &&
      ([16, 12, 4, 1] : List Nat).all (fun n => verifies (tag60.take n) 0x510 d) &&
      verifies (flip 15 1 tag60) 0x505 d && verifies ((flip 15 1 tag60).take 15) 0x510 d &&
      verifies ((flip 0 0x80 tag60).take 1) 0x505 d && verifies (List.replicate 16 0) 0x505 d &&
      verifies [] 0x408 d && verifies (tag60 ++ [0]) 0x408 d) = true := by
  decide +kernel

/-- The tag of V81: an empty plaintext with AAD. -/
def tag0 : List Byte := bytes 16 0x346434fd51d5cd0c5887ec63e39b907a

/-- V81, with an `ENC` of length 0 and a `DEC` of length 0. -/
theorem test_aad_only_sent : (sends k1 iv1 a20 [] [] tag0 State.reset).any (fun _ => true) = true := by
  decide +kernel

@[inherit_doc test_aad_only_sent]
theorem test_aad_only_received :
    (receives k1 iv1 a20 [] [] State.reset).any (fun d => placed tag0 d && verifies tag0 0x510 d) = true := by
  decide +kernel

/-- V81, without a data command. -/
theorem test_aad_only_session :
    (opens k1 iv1 a20 State.reset).any (fun a => (go .finish [] tag0 a).isSome && verifies tag0 0x510 a) = true := by
  decide +kernel

/-- V84: the message of V80, row 4, changed before it is received. The true tag does not match. -/
theorem test_tampered_first_byte :
    (receives k1 iv1 a20 (flip 0 0x01 ct60) (flip 0 0x01 pt60) State.reset).any (fun d =>
      placed tag60 d && verifies tag60 0x505 d) = true := by
  decide +kernel

@[inherit_doc test_tampered_first_byte]
theorem test_tampered_last_byte :
    (receives k1 iv1 a20 (flip 59 0x80 ct60) (flip 59 0x80 pt60) State.reset).any (fun d =>
      placed tag60 d && verifies tag60 0x505 d) = true := by
  decide +kernel

@[inherit_doc test_tampered_first_byte]
theorem test_tampered_aad :
    (receives k1 iv1 (flip 19 0x10 a20) ct60 pt60 State.reset).any (fun d =>
      placed tag60 d && verifies tag60 0x505 d) = true := by
  decide +kernel

@[inherit_doc test_tampered_first_byte]
theorem test_tampered_lengths :
    ((receives k1 iv1 a20 (ct60.take 59) (pt60.take 59) State.reset).any (verifies tag60 0x505) &&
      (receives k1 iv1 (a20 ++ [0]) ct60 pt60 State.reset).any (verifies tag60 0x505)) = true := by
  decide +kernel

/-- V12, row 5: a key of 24 bytes. -/
theorem test_aesExpand :
    after (exec .aesExpand
      (portWith fun o => { o with key := bytes 24 0x8e73b0f7da0e6452c810f32b809079e562f8ead2522c6b7b }))
      (fun t =>
        t.port.res.roundKeys.nr == .r12 &&
        t.port.res.roundKeys.key 1 == 0x62f8ead2522c6b7bfe0c91f72402f5a5 &&
        t.port.res.roundKeys.key 12 == 0xe98ba06f448c773c8ecc720401002202) = true := by
  decide +kernel

/-- V13, row 4: a key of 32 bytes. -/
theorem test_aesEncrypt :
    after (exec .aesEncrypt (portWith fun o =>
      { o with
        roundKeys := expandKey (bytes 32 0x000102030405060708090a0b0c0d0e0f101112131415161718191a1b1c1d1e1f),
        b := 0x00112233445566778899aabbccddeeff }))
      (fun t => t.port.res.block == 0x8ea2b7ca516745bfeafc49904b496089) = true := by
  decide +kernel

/-- V22, V23: the table of `h` is used by the multiply. -/
theorem test_ghashBuild :
    after (exec .ghashBuild (portWith fun o => { o with h := 0x66e94bd4ef8a2c3b884cfa59ca342b2e })) (fun t =>
      ghashMul 0x0388dace60b6a392f328c2b971b2fe78 t.port.res.hTable == 0x5e2ec746917062882c85b0685353deb7 &&
      tableEntry t.port.res.hTable 15 == 0x307a95b13e5cf4afdf7026a864e5b117) = true := by
  decide +kernel

/-- V23, the last row. -/
theorem test_ghashMul :
    after (exec .ghashMul (portWith fun o => { o with x := 0x80, hTable := 0x66e94bd4ef8a2c3b884cfa59ca342b2e }))
      (fun t => t.port.res.x == 0xa66e5c0a72a570d9692017ee375c24ba) = true := by decide +kernel

/-- V24, row 2. -/
theorem test_ghashMulrange :
    after (exec .ghashMulrange (portWith fun o =>
      { o with
        hTable := 0x66e94bd4ef8a2c3b884cfa59ca342b2e,
        s := bytes 32 0x0388dace60b6a392f328c2b971b2fe7800000000000000000000000000000080 }))
      (fun t => t.port.res.x == 0xf38cbb1ad69223dcc3457ae5b6b0f885) = true := by decide +kernel

/-- V32. -/
theorem test_ctrBlocks :
    after (exec .ctrBlocks (portWith fun o =>
      { o with roundKeys := zeroContext.roundKeys, y := 2, s := List.replicate 32 0 })) (fun t =>
      t.port.res.out == bytes 32 0x0388dace60b6a392f328c2b971b2fe78f795aaab494b5923f7fd89ff948bc1e0 &&
      t.port.res.y == 4) = true := by
  decide +kernel

/-- The operands of V34. -/
def bulkOps (s : List Byte) (o : RequestOps) : RequestOps :=
  { o with
    roundKeys := expandKey (bytes 16 0xfeffe9928665731c6d6a8f9467308308),
    hTable := 0xb83b533708bf535d0aa6e52980d53b78, y := 0xcafebabefacedbaddecaf88800000002, x := 0, s := s }

/-- V34, row 2: the engine takes two blocks of three. -/
theorem test_bulkEnc :
    after (exec .bulkEnc { portWith (bulkOps (bytes 48
        0xd9313225f88406e5a55909c5aff5269a86a7a9531534f7da2e4c303d8a318a721c3c0c95956809532fcf0e2449a6b525))
        with cfg := { Config.atReset with bulkTakes := [(3, 2)] } }) (fun t =>
      t.port.res.out == bytes 32 0x42831ec2217774244b7221b784d0d49ce3aa212f2c02a4e035c17e2329aca12e &&
      t.port.res.consumed == 32 && t.port.res.x == 0xb714c9048389afd9f9bc5c1d4378e052) = true := by
  decide +kernel

/-- V34: the 48 ciphertext bytes of row 1 decrypted. -/
theorem test_bulkDec :
    after (exec .bulkDec (portWith (bulkOps (bytes 48
        0x42831ec2217774244b7221b784d0d49ce3aa212f2c02a4e035c17e2329aca12e21d514b25466931c7d8f6a5aac84aa05))))
      (fun t =>
        t.port.res.out == bytes 48
          0xd9313225f88406e5a55909c5aff5269a86a7a9531534f7da2e4c303d8a318a721c3c0c95956809532fcf0e2449a6b525 &&
        t.port.res.consumed == 48 && t.port.res.x == 0x47400c6577b1ee8d8f40b2721e86ff10) = true := by
  decide +kernel

/-- V34, rows 4 and 1: the counter field of a request that takes nothing, and of one that takes all. (The
fixed field it returns is a free value, log 10.) -/
theorem test_bulk_counter :
    (bulk { Config.atReset with bulkTakes := [(3, 0)] } .enc anyKeys 0 (List.replicate 48 0) 2 0).ctr = 2 ∧
    (bulk Config.atReset .enc anyKeys 0 (List.replicate 48 0) 2 0).ctr = 5 := by decide +kernel

/-- V41: the loop of 46_data.md R236 across the wrap, the engine taking half of what it is asked. -/
theorem test_dispatcher_wrap :
    wholeBlocks { Config.atReset with bulkTakes := [(4, 2), (2, 1), (3, 1)] } .enc zeroContext.roundKeys
      zeroContext.hTable 4 (List.replicate 64 0) 0xcafebabefacedbaddecaf888fffffffe 0 =
    ⟨bytes 64 (0x9fd95be58370b091474d1e806b0a31db68fe7069ff7df99f87f5908992346b22 * 2 ^ 256 +
        0x05541be53445b4e50150f063a186c884f18684da192944a382a53fce2c113231),
      0xcafebabefacedbaddecaf88800000002, 0x733f1ad8517ba9c2b64f8b5f4fdc24a6⟩ := by
  decide +kernel

/-! ## The hypotheses of the obligations are met

`witness_<Name>` gives states and operands that meet every hypothesis of `Obligations.<Name>` together, a
state for each clause, at the ends of the clause's ranges. -/

/-- The window of `State.reset` begins here. -/
abbrev base : Nat := State.reset.cfg.regBase

theorem witness_StepRunsWrittenCommand :
    (withEvent (.windowWrite base .word 1)).pending = [.windowWrite base .word 1] ∧
    decode (.command 1) = .ok .init := by decide

theorem witness_StepRunsPresentedRequest :
    (withEvent (.request 0x32 State.reset.port.ops)).pending = [.request 0x32 State.reset.port.ops] ∧
    decode (.request 0x32) = .ok .bulkDec := by decide

theorem witness_FetchWordRunsNext :
    decodeTableWord 32 7 = some .verify ∧ decodeTableWord 8 0x10 = some .aesExpand := by decide

theorem witness_UnnamedCodesRaiseOrStop :
    (([0x10, 0x80000001] : List Word32).all fun v => v.extractLsb' 4 28 != 0) = true ∧
    ((0 : Word32).extractLsb' 0 4).toNat = 0 ∧ 8 ≤ ((8 : Word32).extractLsb' 0 4).toNat ∧
    8 ≤ ((15 : Word32).extractLsb' 0 4).toNat ∧
    (withEvent (.windowWrite base .word 8)).pending = [.windowWrite base .word 8] ∧
    (withEvent (.request 0x33 State.reset.port.ops)).pending = [.request 0x33 State.reset.port.ops] ∧
    (0x33 : Byte) ∉ ([0x10, 0x11, 0x20, 0x21, 0x22, 0x30, 0x31, 0x32] : List Byte) := by decide

theorem witness_PhaseTableFollowed :
    sequencing .setiv State.reset.phase = none ∧
    ∃ t, sequencing .init State.reset.phase = some .keyed ∧ exec Command.init.instr State.reset = .next t :=
  ⟨rfl, _, rfl, rfl⟩

theorem witness_LengthChecksReported :
    ¬ ((stateAt .reset 0 0 17).len.toNat = 16 ∨ (stateAt .reset 0 0 17).len.toNat = 24 ∨
      (stateAt .reset 0 0 17).len.toNat = 32) ∧
    ((stateAt .keyed 0 0 11).phase ≠ .reset ∧ (stateAt .keyed 0 0 11).len.toNat ≠ 12) ∧
    (stateAt .aad 0 0 (2 ^ 58 + 1)).cfg.aadMaxBits.toNat <
      (stateAt .aad 0 0 (2 ^ 58 + 1)).ctx.aadLenBits.toNat + 8 * (stateAt .aad 0 0 (2 ^ 58 + 1)).len.toNat ∧
    ((stateAt .enc 0 0 (2 ^ 36 - 31)).phase = .enc ∧ (stateAt .dec 0 0 (2 ^ 36 - 31)).phase = .dec ∧
      (stateAt .enc 0 0 (2 ^ 36 - 31)).cfg.dataMaxBits.toNat <
        (stateAt .enc 0 0 (2 ^ 36 - 31)).ctx.dataLenBits.toNat +
          8 * (stateAt .enc 0 0 (2 ^ 36 - 31)).len.toNat) ∧
    ((stateAt .dec 0 0 0).phase.inSession = true ∧ (stateAt .dec 0 0 0).len.toNat = 0 ∧
      16 < (stateAt .dec 0 0 17).len.toNat) := by decide

/-- A platform that admits nothing. -/
def closedPlatform : Config := { Config.atReset with admitRules := [] }

theorem witness_UnadmittedRangesRejected :
    (sequencing .init .reset = some .keyed ∧ lengthError .init (stateAt .reset (2 ^ 64 - 15) 0 16) = none ∧
      (⟨2 ^ 64 - 15, 16, .read⟩ : Range) ∈ ranges .init (stateAt .reset (2 ^ 64 - 15) 0 16) ∧
      2 ^ 64 < 2 ^ 64 - 15 + 16) ∧
    sequencing .finish .enc = some .done ∧
    lengthError .finish { stateAt .enc 0 0 0 with cfg := closedPlatform } = none ∧
    (⟨0, 16, .write⟩ : Range) ∈ ranges .finish { stateAt .enc 0 0 0 with cfg := closedPlatform } ∧
    platformAdmits closedPlatform ⟨0, 16, .write⟩ = false := by decide

theorem witness_PartialOverlapRejected :
    (stateAt .enc 0x1000 0x100F 16).phase = Dir.enc.phase ∧ (stateAt .aad 0x100F 0x1000 16).phase = .aad ∧
    (stateAt .enc 0x1000 0x100F 16).ctx.dataLenBits.toNat + 8 * (stateAt .enc 0x1000 0x100F 16).len.toNat ≤
      (stateAt .enc 0x1000 0x100F 16).cfg.dataMaxBits.toNat ∧
    (stateAt .enc 0x1000 0x100F 16).src ≠ (stateAt .enc 0x1000 0x100F 16).dst ∧
    (stateAt .enc 0x1000 0x100F 16).src.toNat < (stateAt .enc 0x1000 0x100F 16).dst.toNat + 16 ∧
    (stateAt .enc 0x1000 0x100F 16).dst.toNat < (stateAt .enc 0x1000 0x100F 16).src.toNat + 16 := by decide

/-- A platform whose window lies in the data memory, with everything admitted. -/
def windowInMemory : Config := { Config.atReset with regBase := 0x8000 }

/-- A data command at the last byte of that window, and a key at its first. -/
def overWindow (p : Phase) (src len : Nat) : State := { stateAt p src src len with cfg := windowInMemory }

theorem witness_OwnWindowRangeStops :
    (sequencing .enc .aad = some .enc ∧ lengthError .enc (overWindow .aad 0x801F 1) = none ∧
      (∀ g ∈ ranges .enc (overWindow .aad 0x801F 1), g.len = 0 ∨
        (g.addr + g.len ≤ 2 ^ 64 ∧ platformAdmits windowInMemory g = true)) ∧
      identicalOrDisjoint (overWindow .aad 0x801F 1) ∧
      (⟨0x801F, 1, .write⟩ : Range) ∈ ranges .enc (overWindow .aad 0x801F 1) ∧
      0x801F < windowInMemory.regBase + 32 ∧ windowInMemory.regBase < 0x801F + 1) ∧
    sequencing .init .reset = some .keyed ∧ lengthError .init (overWindow .reset 0x7FF1 16) = none ∧
    (∀ g ∈ ranges .init (overWindow .reset 0x7FF1 16), g.len = 0 ∨
      (g.addr + g.len ≤ 2 ^ 64 ∧ platformAdmits windowInMemory g = true)) ∧
    (⟨0x7FF1, 16, .read⟩ : Range) ∈ ranges .init (overWindow .reset 0x7FF1 16) ∧
    windowInMemory.regBase < 0x7FF1 + 16 := by decide

theorem witness_RejectionChangesOnlyStatus :
    ∃ t, exec Command.init.instr (stateAt .reset 0 0 17) = .next t ∧ t.err ≠ .ok ∧
      t.err ≠ .authenticationFailure :=
  ⟨_, rfl, by decide, by decide⟩

theorem witness_OnlyListedCodesReported :
    (∃ t, exec Command.aad.instr (stateAt .enc 0 0 0) = .next t) ∧
    ∃ t, commandOfInstr .ghashBuild = none ∧ exec .ghashBuild State.reset = .next t :=
  ⟨⟨_, rfl⟩, _, rfl, rfl⟩

theorem witness_MatchOnlyAfterVerify :
    ∃ t, exec Command.verify.instr (withBytes 0x4000 (bytes 4 0x58e2fcce)
      { stateAt .aad 0x4000 0 4 with ctx := zeroContext }) = .next t ∧ (t.matched && t.err == .ok) = true :=
  exists_of_after (by decide +kernel)

theorem witness_OperandRegistersKept :
    (∃ t, exec .init State.reset = .next t) ∧
    ([0x08, 0x0C, 0x10, 0x14, 0x18, 0x1C] : List Nat).all (fun o =>
      (withEvent (.windowWrite (base + o) .word 1)).pending == [.windowWrite (base + o) .word 1]) = true :=
  ⟨⟨_, rfl⟩, by decide⟩

theorem witness_WindowReadsReturn :
    ([0x00, 0x08, 0x0C, 0x10, 0x14, 0x18, 0x1C] : List Nat).all (fun o =>
      (withEvent (.windowRead (base + o) .word)).pending == [.windowRead (base + o) .word]) = true := by decide

theorem witness_StatusRegisterLayout :
    (withEvent (.windowRead (base + 4) .word)).pending = [.windowRead (base + 4) .word] ∧
    (withEvent (.windowWrite (base + 4) .word 0x510)).pending = [.windowWrite (base + 4) .word 0x510] := by
  decide

/-- The numbers of 60_exceptions.md R280 and 10_state.md R35 as `STATUS` shows them. -/
theorem test_status_numbers :
    ([.ok, .invalidKeyLength, .unsupportedIvLength, .protocolOrderError, .lengthLimitExceeded,
      .authenticationFailure, .illegalCommand, .accessError, .invalidTagLength].map fun e =>
        statusWord (State.reset.withStatus e false)) = [0, 1, 2, 3, 4, 5, 6, 7, 8] ∧
    ([.reset, .keyed, .aad, .enc, .dec, .done].map fun p => statusWord (State.reset.withPhase p)) =
      [0, 0x100, 0x200, 0x300, 0x400, 0x500] := by decide

theorem witness_OtherAccessesRefused :
    (withEvent (.windowRead base .double)).pending = [.windowRead base .double] ∧
    AccessWidth.double ≠ .word ∧ base - 1 < base ∧ (base + 1 - base) % 4 ≠ 0 ∧ 0x20 ≤ base + 0x20 - base ∧
    (withEvent (.windowWrite (base + 0x20) .word 1)).pending = [.windowWrite (base + 0x20) .word 1] := by
  decide

theorem witness_ContextHiddenFromWindow :
    (withEvent (.windowRead (base + 4) .word)).pending = [.windowRead (base + 4) .word] := by decide

theorem witness_InitLoadsKey :
    ([16, 24, 32] : List Nat).all (fun n =>
      (stateAt .reset (2 ^ 64 - n) 0 n).len.toNat == n &&
      decide (usable Config.atReset ⟨(stateAt .reset (2 ^ 64 - n) 0 n).src.toNat, n, .read⟩)) = true := by decide

theorem witness_SetivStartsMessage :
    ([.keyed, .aad, .enc, .dec, .done] : List Phase).all (fun p =>
      (stateAt p 0 0 12).phase != .reset && (stateAt p 0 0 12).len.toNat == 12) = true ∧
    usable Config.atReset ⟨0, 12, .read⟩ := by decide

theorem witness_AadAbsorbsBytes :
    (stateAt .aad 0 0 (2 ^ 58)).phase = .aad ∧
    (stateAt .aad 0 0 (2 ^ 58)).ctx.aadLenBits.toNat + 8 * (stateAt .aad 0 0 (2 ^ 58)).len.toNat =
      (stateAt .aad 0 0 (2 ^ 58)).cfg.aadMaxBits.toNat ∧
    usable Config.atReset ⟨0, 2 ^ 58, .read⟩ ∧ usable closedPlatform ⟨2 ^ 64 - 1, 0, .read⟩ := by decide

theorem witness_DataCommandRunsStream :
    (stateAt .aad 0 0 (2 ^ 36 - 32)).phase = .aad ∧ (stateAt .dec 0 0 1).phase = Dir.dec.phase ∧
    (stateAt .aad 0 0 (2 ^ 36 - 32)).ctx.dataLenBits.toNat + 8 * (stateAt .aad 0 0 (2 ^ 36 - 32)).len.toNat =
      (stateAt .aad 0 0 (2 ^ 36 - 32)).cfg.dataMaxBits.toNat ∧
    usable Config.atReset ⟨0, 2 ^ 36 - 32, .read⟩ ∧ usable Config.atReset ⟨0, 2 ^ 36 - 32, .write⟩ ∧
    identicalOrDisjoint (stateAt .aad 0 0 (2 ^ 36 - 32)) ∧ identicalOrDisjoint (stateAt .enc 0x10 0x20 0x10) ∧
    (stateAt .aad 0x10 0x11 0).len.toNat = 0 := by decide

/-- A session just opened, under the zero key and the zero IV. -/
def session (p : Phase) (src dst len : Nat) : State := { stateAt p src dst len with ctx := zeroContext }

theorem session_inv : (session .aad 0x2000 0x3000 2).Inv := by
  unfold State.Inv KeyInv SessionInv
  decide +kernel

theorem witness_SessionKeystreamClosedForm :
    (session .aad 0x2000 0x3000 2).Inv ∧ (session .aad 0x2000 0x3000 2).phase.inSession = true ∧
    1 < (session .aad 0x2000 0x3000 2).len.toNat ∧
    ∃ t, exec Dir.enc.command.instr (session .aad 0x2000 0x3000 2) = .next t ∧ (t.err == .ok) = true :=
  ⟨session_inv, rfl, by decide, exists_of_after (by decide +kernel)⟩

/-- The pieces 0, 1 and 2 of a command's buffers are accepted, and so is the whole. -/
def chunksAccepted (c : Command) : Bool :=
  (feed c.instr [0, 1, 2] (stateAt .aad 0x2000 0x3000 0)).isSome &&
  after (exec c.instr (stateAt .aad 0x2000 0x3000 3)) fun u => u.err == .ok

theorem witness_ChunkingInvariance :
    ([.aad, .enc, .dec] : List Command).all chunksAccepted = true ∧
    (stateAt .aad 0x2000 0x3000 0).mem.wf ∧ (([0, 1, 2] : List Word64).map BitVec.toNat).sum = 3 := by
  decide +kernel

theorem witness_DispatcherComputesBlocks : (List.replicate 32 (0 : Byte)).length = 16 * 2 := by decide

theorem witness_BlocksUseContinuousCounter : (List.replicate 16 (0 : Byte)).length = 16 * 1 := by decide

/-- The receiver of what a sender's `ENC` left in memory. -/
def receiver (s t : State) : State := { s with mem := t.mem, src := s.dst, dst := 0x4000 }

theorem witness_DecryptUndoesEncrypt :
    (stateAt .aad 0x2000 0x3000 5).mem.wf ∧ (stateAt .aad 0x2000 0x3000 5).phase = .aad ∧
    ∃ t, exec .enc (stateAt .aad 0x2000 0x3000 5) = .next t ∧
      (t.err == .ok && after (exec .dec (receiver (stateAt .aad 0x2000 0x3000 5) t)) fun v => v.err == .ok) =
        true :=
  ⟨by decide, rfl, exists_of_after (by decide +kernel)⟩

theorem witness_FixedFieldKept :
    (∃ t, exec .setiv (stateAt .keyed 0x2000 0 12) = .next t ∧ (t.err == .ok) = true) ∧
    ∃ t, exec .setiv (stateAt .keyed 0x2000 0 13) = .next t ∧ (t.err == .unsupportedIvLength) = true :=
  ⟨exists_of_after (by decide +kernel), exists_of_after (by decide +kernel)⟩

theorem witness_ZeroLengthCommands :
    (stateAt .aad 5 9 0).len = 0 ∧ (stateAt .aad 5 9 0).phase = .aad ∧ (stateAt .dec 5 9 0).phase = Dir.dec.phase ∧
    ({ zeroContext with aadLenBits := BitVec.ofNat 64 (2 ^ 61) } : Context).aadLenBits.toNat ≤
      Config.atReset.aadMaxBits.toNat ∧
    ({ zeroContext with dataLenBits := BitVec.ofNat 64 (2 ^ 39 - 256) } : Context).dataLenBits.toNat ≤
      Config.atReset.dataMaxBits.toNat := by decide

theorem witness_LengthCountersNeverWrap :
    (∃ t, exec .aad (stateAt .aad 0 0 3) = .next t ∧ (t.err == .ok) = true) ∧
    ∃ t, exec Dir.dec.command.instr (stateAt .aad 0 0 3) = .next t ∧ (t.err == .ok) = true :=
  ⟨exists_of_after (by decide +kernel), exists_of_after (by decide +kernel)⟩

theorem witness_FinishWritesTag :
    ([.aad, .enc, .dec] : List Phase).all (fun p => (stateAt p 0 (2 ^ 64 - 16) 0).phase.inSession) = true ∧
    usable Config.atReset ⟨(stateAt .aad 0 (2 ^ 64 - 16) 0).dst.toNat, 16, .write⟩ := by decide

theorem witness_VerifyComparesTag :
    (stateAt .dec 0x4000 0 1).phase.inSession = true ∧ 1 ≤ (stateAt .dec 0x4000 0 1).len.toNat ∧
    (stateAt .aad 0x4000 0 16).len.toNat ≤ 16 ∧ usable Config.atReset ⟨0x4000, 1, .read⟩ ∧
    usable Config.atReset ⟨0x4000, 16, .read⟩ := by decide

theorem witness_AesExpandGivesSchedule :
    ([16, 24, 32] : List Nat).all (fun n =>
      (portWith fun o => { o with key := List.replicate n 0 }).port.ops.key.length == n) = true := by decide

theorem witness_RoundFunctionsByByte :
    (0x11 : Byte) = byteAt 0x000000000000000000000000112233ff (4 * 3) ∧
    (0xff : Byte) = byteAt 0x000000000000000000000000112233ff (4 * 3 + 3) := by decide

theorem witness_GhashBuildThenMultiply :
    (portWith fun o => { o with hTable := 5 }).port.ops.hTable =
      ghashBuild (portWith fun o => { o with h := 5 }).port.ops.h := by decide

theorem witness_GhashMulrangeFoldsBlocks :
    (portWith fun o => { o with s := [] }).port.ops.s = ([] : List Block).flatMap bytesOfBlock ∧
    (portWith fun o => { o with s := bytes 32 1 }).port.ops.s = ([0, 1] : List Block).flatMap bytesOfBlock := by
  decide

theorem witness_CtrBlocksRunsCounterMode :
    (portWith fun o => { o with s := [] }).port.ops.s.length = 16 * 0 ∧
    (portWith fun o => { o with s := bytes 32 1 }).port.ops.s.length = 16 * 2 := by decide

theorem witness_BulkRequestsProcessBlocks :
    (portWith fun o => { o with s := [] }).port.ops.s.length = 16 * 0 ∧
    (portWith fun o => { o with s := bytes 16 1, y := 0xffffffff }).port.ops.s.length = 16 * 1 ∧
    1 ≤ 2 ^ 32 - (ctrField (portWith fun o => { o with s := bytes 16 1, y := 0xffffffff }).port.ops.y).toNat := by
  decide

theorem witness_RequestsOutsideDomainStop :
    (portWith fun o => { o with key := bytes 15 1 }).port.ops.key.length = 15 ∧
    (portWith fun o => { o with s := bytes 17 1 }).port.ops.s.length % 16 ≠ 0 ∧
    2 ^ 32 - (ctrField (portWith fun o => { o with s := bytes 32 1, y := 0xffffffff }).port.ops.y).toNat <
      (portWith fun o => { o with s := bytes 32 1, y := 0xffffffff }).port.ops.s.length / 16 := by decide

theorem witness_RequestsChangeOnlyResults :
    ∃ t, commandOfInstr .ghashMul = none ∧ exec .ghashMul State.reset = .next t := ⟨_, rfl, rfl⟩

theorem witness_CounterArithmetic : 0 < 1 ∧ 1 < blocksUntilWrap 0xfffffffe := by decide

theorem witness_ResetEventEffect : (withEvent .reset).pending = [.reset] := by decide

theorem witness_IdleHoldsState : State.reset.pending = [] := by decide

theorem witness_HostStoresThenLoads :
    State.reset.mem.wf ∧
    (State.reset.withPending [.store 7 1, .load 7]).pending = [.store 7 1, .load 7] := by decide

theorem witness_CommandsWriteOnlyTheirOutput :
    State.reset.mem.wf ∧ (∃ t, exec Command.finish.instr (stateAt .aad 0 0x4000 0) = .next t) ∧
    ¬ ((stateAt .aad 0 0x4000 0).dst.toNat ≤ 0x3FFF ∧
      0x3FFF < (stateAt .aad 0 0x4000 0).dst.toNat + writeLength .finish (stateAt .aad 0 0x4000 0)) ∧
    ¬ ((stateAt .aad 0 0x4000 0).dst.toNat ≤ 0x4010 ∧
      0x4010 < (stateAt .aad 0 0x4000 0).dst.toNat + writeLength .finish (stateAt .aad 0 0x4000 0)) :=
  ⟨by decide, ⟨_, (exists_of_after (p := fun _ => true) (by decide +kernel)).choose_spec.1⟩, by decide, by decide⟩

theorem witness_CommandsReadOnlyTheirInput :
    (∀ j < readLength .aad (stateAt .aad 0x10 0 1),
      Memory.read [(0x0F, 7), (0x11, 7)] ((stateAt .aad 0x10 0 1).src.toNat + j) =
        (stateAt .aad 0x10 0 1).mem.read ((stateAt .aad 0x10 0 1).src.toNat + j)) ∧
    ∃ t, exec Command.aad.instr (stateAt .aad 0x10 0 1) = .next t ∧ (t.err == .ok) = true :=
  ⟨by decide, exists_of_after (by decide +kernel)⟩

theorem witness_ParametersFixed : ∃ t, step State.reset = .next t := ⟨_, rfl⟩

/-- The session with an `ENC` about to be written to `CMD`. -/
def sessionEnc : State := (session .aad 0x2000 0x3000 2).withPending [.windowWrite base .word 4]

theorem witness_InvariantKept :
    sessionEnc.Inv ∧ ∃ t, step sessionEnc = .next t ∧ (t.phase == .enc && t.ctx.dataResidue == 2) = true :=
  ⟨session_inv, exists_of_after (by decide +kernel)⟩

theorem witness_UnwrittenRegistersUnobservable :
    alike sessionEnc (sessionEnc.withCtx { zeroContext with eki := 5 }) ∧
    alike State.reset (State.reset.withCtx zeroContext) := by
  unfold alike liveAgree
  decide +kernel

theorem exists_of_any {o : Option State} {p : State → Bool} (h : o.any p = true) :
    ∃ t, o = some t ∧ p t = true := by
  cases o with
  | none => cases h
  | some t => exact ⟨t, rfl, h⟩

/-- A message with a plaintext and one without, `VERIFY` with its greatest and its least `LEN`, and with
bytes that are and that are not the tag's. -/
theorem witness_RoundTripVerifies :
    (∃ t d, sent k1 iv1 a20 pt60 ct60 tag60 State.reset t ∧ received k1 iv1 a20 ct60 pt60 State.reset d ∧
      (handedOn d (ready tag60 d) ∧ (ready tag60 d).len.toNat = 16 ∧ placed tag60 d = true) ∧
      (handedOn d (ready (tag60.take 1) d) ∧ (ready (tag60.take 1) d).len.toNat = 1 ∧
        placed (tag60.take 1) d = true) ∧
      handedOn d (ready [0] d) ∧ placed [0] d = true ∧ [0] ≠ tag60.take 1) ∧
    ∃ t d, sent k1 iv1 a20 [] [] tag0 State.reset t ∧ received k1 iv1 a20 [] [] State.reset d ∧
      handedOn d (ready tag0 d) ∧ placed tag0 d = true := by
  obtain ⟨t, ht, -⟩ := exists_of_any test_message_sent
  obtain ⟨d, hd, hp⟩ := exists_of_any test_message_received
  obtain ⟨t', ht', -⟩ := exists_of_any test_aad_only_sent
  obtain ⟨d', hd', hp'⟩ := exists_of_any test_aad_only_received
  simp only [Bool.and_eq_true] at hp hp'
  obtain ⟨⟨⟨⟨⟨⟨⟨⟨⟨h16, h1⟩, h0⟩, -⟩, -⟩, -⟩, -⟩, -⟩, -⟩, -⟩ := hp
  exact ⟨⟨t, d, sent_of_sends ht, received_of_receives hd, ⟨⟨rfl, rfl, rfl⟩, rfl, h16⟩,
    ⟨⟨rfl, rfl, rfl⟩, rfl, h1⟩, ⟨rfl, rfl, rfl⟩, h0, by decide⟩,
    t', d', sent_of_sends ht', received_of_receives hd', ⟨rfl, rfl, rfl⟩, hp'.1⟩

/-- The last byte of the AAD, and the first and the last of the ciphertext, changed. -/
theorem witness_TamperedByteShowsUnlessAnnihilated :
    ∃ t d1 d2 d3, sent k1 iv1 a20 pt60 ct60 tag60 State.reset t ∧
      received k1 iv1 (a20.modify 19 fun b => b ^^^ 0x10) ct60 pt60 State.reset d1 ∧
      received k1 iv1 a20 (ct60.modify 0 fun b => b ^^^ 0x01) (flip 0 0x01 pt60) State.reset d2 ∧
      received k1 iv1 a20 (ct60.modify 59 fun b => b ^^^ 0x80) (flip 59 0x80 pt60) State.reset d3 ∧
      (19 < a20.length ∧ 0 < ct60.length ∧ 59 < ct60.length) ∧
      ([d1, d2, d3].all (placed tag60)) = true ∧
      ∀ d ∈ [d1, d2, d3], handedOn d (ready tag60 d) ∧ (ready tag60 d).len = 16 := by
  obtain ⟨t, ht, -⟩ := exists_of_any test_message_sent
  obtain ⟨d1, h1, p1⟩ := exists_of_any test_tampered_aad
  obtain ⟨d2, h2, p2⟩ := exists_of_any test_tampered_first_byte
  obtain ⟨d3, h3, p3⟩ := exists_of_any test_tampered_last_byte
  rw [Bool.and_eq_true] at p1 p2 p3
  exact ⟨t, d1, d2, d3, sent_of_sends ht, received_of_receives h1, received_of_receives h2,
    received_of_receives h3, by decide, by simp [p1.1, p2.1, p3.1], fun _ _ => ⟨⟨rfl, rfl, rfl⟩, rfl⟩⟩

end Sys2Proof.Tests
end

section
/-! The register window from the bus: which accesses name a register (10_state.md R47), and what a step
does with an access that names none. -/

namespace Sys2Proof.Machine

open Sys2Proof

/-- A step of a state with an event left takes the first event and handles it (log 1). -/
theorem step_of_pending {s : State} {e : HostEvent} {es : List HostEvent} (h : s.pending = e :: es) :
    step s = handleEvent e (s.withPending es) := by
  simp only [step, takeEvent, h]

/-- The eight registers stand at the multiples of 4 below 0x20 and nowhere else (10_state.md R40). -/
theorem windowRegAt_eq_none_iff (off : Nat) : windowRegAt off = none ↔ off % 4 ≠ 0 ∨ 0x20 ≤ off := by
  unfold windowRegAt
  split
  case h_9 =>
    simp only [imp_false, true_iff] at *
    omega
  all_goals simp

/-- The four ways an access names no register (10_state.md R47). -/
theorem windowTarget_eq_none_iff (cfg : Config) (a : Nat) (w : AccessWidth) :
    windowTarget cfg a w = none ↔
      w ≠ .word ∨ a < cfg.regBase ∨ (a - cfg.regBase) % 4 ≠ 0 ∨ 0x20 ≤ a - cfg.regBase := by
  unfold windowTarget
  split
  case isTrue h =>
    obtain ⟨hword, hbase⟩ := h
    simp only [windowRegAt_eq_none_iff, hword, ne_eq, not_true_eq_false, Nat.not_lt.mpr hbase, false_or]
  case isFalse h =>
    simp only [true_iff]
    by_cases hword : w = .word
    · exact .inr (.inl (Nat.lt_of_not_le fun hbase => h ⟨hword, hbase⟩))
    · exact .inl hword

/-- A write that names no register is refused, whatever the value. -/
theorem hostWrite_of_no_target {s : State} {a : Nat} {w : AccessWidth} (v : Word32)
    (h : windowTarget s.cfg a w = none) : hostWrite a w v s = .refused .notAWindowAccess := by
  simp only [hostWrite, h]

/-- A read that names no register is refused. -/
theorem hostRead_of_no_target {s : State} {a : Nat} {w : AccessWidth}
    (h : windowTarget s.cfg a w = none) : hostRead a w s = .refused .notAWindowAccess := by
  simp only [hostRead, h]

/-- Settles O19: such an access names no register, and neither the write nor the read of no register has
a meaning. -/
theorem otherAccessesRefused : Obligations.OtherAccessesRefused := by
  intro s es a w v hother hpending
  have htarget : windowTarget (s.withPending es).cfg a w = none :=
    (windowTarget_eq_none_iff s.cfg a w).mpr hother
  obtain hwrite | hread := hpending
  · rw [step_of_pending hwrite]
    exact hostWrite_of_no_target v htarget
  · rw [step_of_pending hread]
    exact hostRead_of_no_target htarget

end Sys2Proof.Machine
end

section
/-! Data commands and their two ranges (20_memory.md R65): what the checks of 43_sequencing.md R190 find for
`ENC` and `DEC`, said once for both directions. -/

namespace Sys2Proof.Machine

open Sys2Proof

/-- A command stopped by step 4 reports `AccessError` and runs no body (43_sequencing.md R190). -/
theorem runCommand_of_accessDenied {c : Command} {body : Phase → State → State} {s : State} {p : Phase}
    (hp : phaseTable c s.phase = some p) (hl : lengthError c s = none) (ha : accessDenied c s = true) :
    runCommand c body s = .next (s.raise .accessError) := by
  simp only [runCommand, hp, hl, ha, if_true]

/-- `ENC` and `DEC` are the one data body under the command's checks. -/
theorem exec_data (dir : Dir) (s : State) :
    exec dir.command.instr s = runCommand dir.command (dataBody dir) s := by
  cases dir with
  | enc => rfl
  | dec => rfl

/-- A data command is admitted in `P_AAD` and in its own phase, which it leaves (43_sequencing.md R195). -/
theorem phaseTable_data {dir : Dir} {p : Phase} (h : p = .aad ∨ p = dir.phase) :
    phaseTable dir.command p = some dir.phase := by
  obtain rfl | rfl := h
  · cases dir <;> rfl
  · cases dir <;> rfl

/-- The length check of a data command is its ceiling (46_data.md R231). -/
theorem lengthError_data_eq_none_iff (dir : Dir) (s : State) :
    lengthError dir.command s = none ↔
      s.ctx.dataLenBits.toNat + 8 * s.len.toNat ≤ s.cfg.dataMaxBits.toNat := by
  have hlength : lengthError dir.command s = if dataTooLong s then some .lengthLimitExceeded else none := by
    cases dir <;> rfl
  rw [hlength, ite_eq_right_iff, dataTooLong_iff]
  simp only [reduceCtorEq, imp_false, not_lt]

/-- `partialOverlap` in the terms of 20_memory.md R65, whose two inequalities leave no room for `LEN = 0`. -/
theorem partialOverlap_iff (s : State) :
    partialOverlap s = true ↔
      s.src ≠ s.dst ∧ s.src.toNat < s.dst.toNat + s.len.toNat ∧ s.dst.toNat < s.src.toNat + s.len.toNat := by
  simp only [partialOverlap, Bool.and_eq_true, decide_eq_true_eq]
  constructor
  · rintro ⟨⟨⟨-, hne⟩, hsrc⟩, hdst⟩
    exact ⟨hne, hsrc, hdst⟩
  · rintro ⟨hne, hsrc, hdst⟩
    exact ⟨⟨⟨by omega, hne⟩, hsrc⟩, hdst⟩

/-- Step 4 denies a data command whose ranges partly overlap, whether the platform admits them or not. -/
theorem accessDenied_of_partialOverlap (dir : Dir) {s : State} (h : partialOverlap s = true) :
    accessDenied dir.command s = true := by
  have hoverlap : illegalOverlap dir.command s = partialOverlap s := by cases dir <;> rfl
  rw [accessDenied, hoverlap, h, Bool.or_true]

/-- Settles O10: the phase and the ceiling pass, so the overlap is the check that ends the command. -/
theorem partialOverlapRejected : Obligations.PartialOverlapRejected := by
  intro dir s hphase hceiling hne hsrc hdst
  have hlength : lengthError dir.command s = none := (lengthError_data_eq_none_iff dir s).mpr hceiling
  have hoverlap : partialOverlap s = true := (partialOverlap_iff s).mpr ⟨hne, hsrc, hdst⟩
  rw [exec_data]
  exact runCommand_of_accessDenied (phaseTable_data hphase) hlength (accessDenied_of_partialOverlap dir hoverlap)

end Sys2Proof.Machine
end

section
/-! The AES core (40_aes_core.md): the products the cipher needs, the round functions byte by byte, the table of
`S` against its definition, and the value the source fixes. -/

namespace Sys2Proof.Machine

open Sys2Proof

/-! ### The products by 2 and 3 (40_aes_core.md R121) -/

theorem gf8Mul_two (a : Byte) : gf8Mul a 2 = xtime a := by
  simp [gf8Mul, gf8Loop]

theorem gf8Mul_three (a : Byte) : gf8Mul a 3 = xtime a ^^^ a := by
  simp [gf8Mul, gf8Loop, BitVec.xor_comm]

/-! ### The round functions (40_aes_core.md R126 to R129) -/

theorem byteAt_subBytes (s : Block) {i : Nat} (hi : i < 16) : byteAt (subBytes s) i = subByte (byteAt s i) :=
  byteAt_blockOfFn _ i hi

theorem byteAt_shiftRows (s : Block) {r c : Nat} (hr : r < 4) (hc : c < 4) :
    byteAt (shiftRows s) (r + 4 * c) = byteAt s (r + 4 * ((c + r) % 4)) := by
  have hrow : (r + 4 * c) % 4 = r := by omega
  have hcol : (r + 4 * c) / 4 = c := by omega
  rw [shiftRows, byteAt_blockOfFn _ _ (by omega), hrow, hcol]

/-- Row `r` of a column, with the products of R121: the column's bytes are taken from row `r` on, cyclically. -/
theorem byteAt_mixColumns (s : Block) {r c : Nat} (hr : r < 4) (hc : c < 4) :
    byteAt (mixColumns s) (4 * c + r) =
      gf8Mul (byteAt s (4 * c + r)) 2 ^^^ gf8Mul (byteAt s (4 * c + (r + 1) % 4)) 3 ^^^
        byteAt s (4 * c + (r + 2) % 4) ^^^ byteAt s (4 * c + (r + 3) % 4) := by
  have hrow : (4 * c + r) % 4 = r := by omega
  have hcol : (4 * c + r) / 4 = c := by omega
  rw [mixColumns, byteAt_blockOfFn _ _ (by omega), gf8Mul_two, gf8Mul_three]
  simp only [mixByte, hrow, hcol, Nat.add_zero, Nat.mod_eq_of_lt hr]

/-- Settles O38: each function builds its block byte by byte; the four rows of `MixColumns` are the one row of
`byteAt_mixColumns`, its summands in the order of R128. -/
theorem roundFunctionsByByte : Obligations.RoundFunctionsByByte := by
  intro s k
  refine ⟨fun i hi => byteAt_subBytes s hi, fun r hr c hc => byteAt_shiftRows s hr hc, ?_,
    fun i _ => byteAt_xor s k i⟩
  rintro c hc _ _ _ _ rfl rfl rfl rfl
  refine ⟨byteAt_mixColumns s (by decide : 0 < 4) hc, ?_, ?_, ?_⟩
  · rw [byteAt_mixColumns s (by decide : 1 < 4) hc]
    ac_rfl
  · rw [byteAt_mixColumns s (by decide : 2 < 4) hc]
    ac_rfl
  · rw [byteAt_mixColumns s (by decide : 3 < 4) hc]
    ac_rfl

/-! ### The substitution (40_aes_core.md R122, R123) -/

/-- Bit `i` of a byte rotated right is the byte's bit `i + n` (mod 8). -/
theorem getLsbD_rotateRight_byte (u : Byte) (n : Nat) {i : Nat} (hi : i < 8) :
    (u.rotateRight n).getLsbD i = u.getLsbD ((i + n) % 8) := by
  rw [BitVec.getLsbD_rotateRight]
  by_cases hlow : i < 8 - n % 8
  · rw [decide_eq_true hlow, cond_true, show n % 8 + i = (i + n) % 8 by omega]
  · rw [decide_eq_false hlow, cond_false, decide_eq_true hi, Bool.true_and,
      show i - (8 - n % 8) = (i + n) % 8 by omega]

theorem getLsbD_sboxAffine (u : Byte) {i : Nat} (hi : i < 8) :
    (sboxAffine u).getLsbD i =
      (u.getLsbD i ^^ u.getLsbD ((i + 4) % 8) ^^ u.getLsbD ((i + 5) % 8) ^^ u.getLsbD ((i + 6) % 8) ^^
        u.getLsbD ((i + 7) % 8) ^^ (0x63 : Byte).getLsbD i) := by
  simp only [sboxAffine, BitVec.getLsbD_xor, getLsbD_rotateRight_byte _ _ hi]

/-- The affine map of `S` undone: 0x63 is taken off, and then bit `i` is the exclusive-or of bits `i+2`, `i+5`,
`i+7` (mod 8). -/
def sboxAffineInverse (w : Byte) : Byte :=
  let t := w ^^^ 0x63
  t.rotateRight 2 ^^^ t.rotateRight 5 ^^^ t.rotateRight 7

theorem getLsbD_sboxAffineInverse (w : Byte) {i : Nat} (hi : i < 8) :
    (sboxAffineInverse w).getLsbD i =
      ((w ^^^ 0x63).getLsbD ((i + 2) % 8) ^^ (w ^^^ 0x63).getLsbD ((i + 5) % 8) ^^
        (w ^^^ 0x63).getLsbD ((i + 7) % 8)) := by
  rw [sboxAffineInverse, BitVec.getLsbD_xor, BitVec.getLsbD_xor]
  simp only [getLsbD_rotateRight_byte _ _ hi]

/-- The fifteen summands of a bit of the affine map of its inverse: all but one stand in pairs. -/
theorem xor_pairs_cancel : ∀ t0 t1 t2 t3 t4 t5 t6 t7 : Bool,
    (t2 ^^ t5 ^^ t7 ^^ (t6 ^^ t1 ^^ t3) ^^ (t7 ^^ t2 ^^ t4) ^^ (t0 ^^ t3 ^^ t5) ^^ (t1 ^^ t4 ^^ t6)) = t0 := by
  decide

theorem sboxAffine_sboxAffineInverse (w : Byte) : sboxAffine (sboxAffineInverse w) = w := by
  apply BitVec.eq_of_getLsbD_eq
  intro i hi
  have hwrap (k : Nat) : (i + (k + 8)) % 8 = (i + k) % 8 := by omega
  have hbit (k : Nat) := getLsbD_sboxAffineInverse w (Nat.mod_lt (i + k) (by decide : 8 > 0))
  simp only [getLsbD_sboxAffine _ hi, getLsbD_sboxAffineInverse w hi, hbit, Nat.mod_add_mod, Nat.add_assoc,
    Nat.reduceAdd, hwrap, Nat.add_zero, Nat.mod_eq_of_lt hi]
  rw [xor_pairs_cancel, ← BitVec.getLsbD_xor, BitVec.xor_assoc, BitVec.xor_self, BitVec.xor_zero]

theorem sboxAffineInverse_subByte_zero : sboxAffineInverse (subByte 0) = 0 := by decide

/-- The table's entry for `v`, freed of the affine map, is the inverse of `v`. The table is data, so each entry is
multiplied out. -/
theorem gf8Mul_sboxAffineInverse_subByte : ∀ v : Byte, v ≠ 0 → gf8Mul (sboxAffineInverse (subByte v)) v = 1 := by
  decide +kernel

/-- Settles O39: `u` is the table's entry freed of the affine map, which makes the entry of it again. -/
theorem sboxIsInverseThenAffine : Obligations.SboxIsInverseThenAffine := by
  intro v
  refine ⟨sboxAffineInverse (subByte v), ?_, gf8Mul_sboxAffineInverse_subByte v, fun i hi => ?_⟩
  · rintro rfl
    exact sboxAffineInverse_subByte_zero
  · rw [← getLsbD_sboxAffine _ hi, sboxAffine_sboxAffineInverse]

/-! ### The known answer (40_aes_core.md R132) -/

/-- The key schedule of the 16-byte zero key. -/
def zeroKeySchedule : RoundKeys where
  nr := .r10
  rk :=
    [0, 0x62636363626363636263636362636363, 0x9b9898c9f9fbfbaa9b9898c9f9fbfbaa,
     0x90973450696ccffaf2f457330b0fac99, 0xee06da7b876a1581759e42b27e91ee2b,
     0x7f2e2b88f8443e098dda7cbbf34b9290, 0xec614b851425758c99ff09376ab49ba7,
     0x217517873550620bacaf6b3cc61bf09b, 0x0ef903333ba9613897060a04511dfa9f,
     0xb1d4d8e28a7db9da1d7bb3de4c664941, 0xb4ef5bcb3e92e21123e951cf6f8f188e]

theorem expandKey_zeroKey : expandKey (List.replicate 16 0) = zeroKeySchedule := by decide +kernel

theorem encryptBlock_zeroKeySchedule_one :
    encryptBlock zeroKeySchedule 1 = 0x58e2fccefa7e3061367f1d57a4e7455a := by decide +kernel

/-- Settles O37: the schedule, then the rounds under it. -/
theorem aesKnownAnswer : Obligations.AesKnownAnswer := by
  rw [Obligations.AesKnownAnswer, expandKey_zeroKey]
  exact encryptBlock_zeroKeySchedule_one

end Sys2Proof.Machine
end

section
/-! The table-driven multiply of GHASH (41_ghash.md section 4): four steps of the product as one step over a
four-bit piece, and Horner's rule in `x^4`. -/

namespace Sys2Proof.Machine

open Sys2Proof

/-! ### A block under a coefficient -/

/-- The coefficient `b` times the block `v`: a summand that stands in a sum or not. -/
def coeffMul (b : Bool) (v : Block) : Block := if b then v else 0

@[simp] theorem coeffMul_true (v : Block) : coeffMul true v = v := rfl

@[simp] theorem coeffMul_false (v : Block) : coeffMul false v = 0#128 := rfl

theorem coeffMul_bne (b c : Bool) (v : Block) : coeffMul (b ^^ c) v = coeffMul b v ^^^ coeffMul c v := by
  cases b <;> cases c <;> simp

theorem coeffMul_ushiftRight (b : Bool) (v : Block) (n : Nat) : coeffMul b v >>> n = coeffMul b (v >>> n) := by
  cases b <;> simp

theorem getLsbD_coeffMul (b : Bool) (v : Block) (i : Nat) :
    (coeffMul b v).getLsbD i = (b && v.getLsbD i) := by
  cases b <;> simp

/-! ### Multiplication by `x` (41_ghash.md R151) -/

theorem mulx_eq (v : Block) : mulx v = v >>> 1 ^^^ coeffMul (v.getLsbD 0) ghashR := by
  unfold mulx
  split
  case isTrue hlow => rw [hlow, coeffMul_true]
  case isFalse hlow => rw [Bool.eq_false_of_not_eq_true hlow, coeffMul_false, BitVec.xor_zero]

@[simp] theorem mulx_zero : mulx 0#128 = 0#128 := by decide

theorem mulx_xor (v w : Block) : mulx (v ^^^ w) = mulx v ^^^ mulx w := by
  rw [mulx_eq, mulx_eq v, mulx_eq w, BitVec.ushiftRight_xor_distrib, BitVec.getLsbD_xor, coeffMul_bne]
  ac_rfl

/-- One more multiplication by `x`, where the reductions so far, `c`, do not reach the last coefficient. -/
theorem mulx_ushiftRight_xor (z c : Block) (k : Nat) (hc : c.getLsbD 0 = false) :
    mulx (z >>> k ^^^ c) = z >>> (k + 1) ^^^ (c >>> 1 ^^^ coeffMul (z.getLsbD k) ghashR) := by
  have hbit : (z >>> k ^^^ c).getLsbD 0 = z.getLsbD k := by
    rw [BitVec.getLsbD_xor, BitVec.getLsbD_ushiftRight, hc, Bool.xor_false, Nat.add_zero]
  rw [mulx_eq, hbit, BitVec.ushiftRight_xor_distrib, ← BitVec.shiftRight_add, BitVec.xor_assoc]

/-! ### The shift by four and its reduction (41_ghash.md R156) -/

theorem red4_eq (r : BitVec 4) :
    red4 r = coeffMul (r.getLsbD 0) (ghashR >>> 3) ^^^ coeffMul (r.getLsbD 1) (ghashR >>> 2) ^^^
      coeffMul (r.getLsbD 2) (ghashR >>> 1) ^^^ coeffMul (r.getLsbD 3) ghashR := by
  simp [red4, coeffMul, List.range_succ]

/-- `R` may be shifted right three times before it reaches the last coefficient. -/
theorem ghashR_low_bits : ∀ j < 3, ghashR.getLsbD j = false := by decide

/-- The product with `x^4`: the four coefficients shifted out come back reduced. -/
theorem mulx_four_times (z : Block) :
    mulx (mulx (mulx (mulx z))) = z >>> 4 ^^^ red4 (z.extractLsb' 0 4) := by
  rw [mulx_eq z, mulx_ushiftRight_xor, mulx_ushiftRight_xor, mulx_ushiftRight_xor, red4_eq]
  case hc | hc | hc =>
    simp only [BitVec.getLsbD_xor, BitVec.getLsbD_ushiftRight, getLsbD_coeffMul, ghashR_low_bits, Nat.reduceAdd,
      Nat.reduceLT, Bool.and_false, Bool.xor_false]
  simp only [BitVec.ushiftRight_xor_distrib, coeffMul_ushiftRight, ← BitVec.shiftRight_add,
    BitVec.getLsbD_extractLsb', Nat.reduceLT, decide_true, Bool.true_and, Nat.zero_add, Nat.reduceAdd]

/-! ### The product by Horner's rule (41_ghash.md R152) -/

/-- The accumulator is only added to, so it may be added at the end. -/
theorem gmulLoop_eq_xor (a : Block) (k : Nat) (z v : Block) :
    gmulLoop a k z v = z ^^^ gmulLoop a k 0 v := by
  induction k generalizing z v with
  | zero => simp [gmulLoop]
  | succ k ih =>
    rw [gmulLoop, gmulLoop]
    split
    · rw [ih (z ^^^ v), ih (0 ^^^ v), BitVec.xor_assoc]
      simp
    · exact ih z (mulx v)

theorem gmulLoop_mulx (a : Block) (k : Nat) (z v : Block) :
    gmulLoop a k (mulx z) (mulx v) = mulx (gmulLoop a k z v) := by
  induction k generalizing z v with
  | zero => rfl
  | succ k ih => rw [gmulLoop, gmulLoop, ← mulx_xor, ← apply_ite mulx, ih]

/-- Horner's rule: of the last `k + 1` coefficients of `a`, the first one times `v`, and `x` times the rest. -/
theorem gmulLoop_succ_zero (a : Block) (k : Nat) (v : Block) :
    gmulLoop a (k + 1) 0 v = coeffMul (a.getLsbD k) v ^^^ mulx (gmulLoop a k 0 v) := by
  rw [gmulLoop, gmulLoop_eq_xor, ← gmulLoop_mulx, coeffMul]
  simp

/-! ### The table (41_ghash.md R155) -/

/-- `T[n]` is the product of `h` and the polynomial of degree at most 3 that `n` stands for, here by Horner's rule.
The table's recursion follows the set bits of `n`, so the sixteen entries are taken one by one. -/
theorem tableEntry_eq (h : Block) (n : BitVec 4) :
    tableEntry h n.toNat =
      coeffMul (n.getLsbD 3) h ^^^ mulx (coeffMul (n.getLsbD 2) h ^^^ mulx (coeffMul (n.getLsbD 1) h ^^^
        mulx (coeffMul (n.getLsbD 0) h))) := by
  obtain ⟨k, hk⟩ := n
  interval_cases k <;> simp [tableEntry, tableEntryLoop, topPower, tableBase, mulx_xor]

theorem referenceTable_getD (h : Block) (n : BitVec 4) :
    (referenceTable h).getD n.toNat 0 = tableEntry h n.toNat := by
  simp [referenceTable, List.getD_eq_getElem?_getD, n.isLt]

/-- Four steps of Horner's rule in `x` are one step in `x^4`, its coefficient a piece of `a` looked up in the
table. -/
theorem gmulLoop_add_four (a h : Block) (k : Nat) :
    gmulLoop a (k + 4) 0 h =
      mulx (mulx (mulx (mulx (gmulLoop a k 0 h)))) ^^^
        (referenceTable h).getD (a.extractLsb' k 4).toNat 0 := by
  rw [referenceTable_getD, tableEntry_eq]
  simp only [gmulLoop_succ_zero, mulx_xor, BitVec.getLsbD_extractLsb', Nat.reduceLT, decide_true, Bool.true_and,
    Nat.add_zero]
  ac_rfl

/-! ### The multiply (41_ghash.md R157) -/

/-- With the pieces from `k` on taken, the accumulator holds the product of those pieces with `h`. -/
theorem tableMulLoop_referenceTable (x h : Block) (k m : Nat) (hk : m + k = 32) :
    tableMulLoop (referenceTable h) x k (gmulLoop x (4 * m) 0 h) = gmul x h := by
  induction k generalizing m with
  | zero =>
    obtain rfl : m = 32 := hk
    rfl
  | succ k ih =>
    have hpiece : nibbleAt x k = x.extractLsb' (4 * m) 4 := by
      rw [nibbleAt, show 31 - k = m by omega]
    rw [tableMulLoop, ← mulx_four_times, hpiece, ← gmulLoop_add_four]
    exact ih (m + 1) (by omega)

/-- Settles O42: the first piece is the product of the last four coefficients, and each further piece is a step
of Horner's rule in `x^4`. -/
theorem tableMultiplyIsProduct : Obligations.TableMultiplyIsProduct := by
  intro x h
  have hfirst : (referenceTable h).getD (nibbleAt x 31).toNat 0 = gmulLoop x 4 0 h := by
    rw [gmulLoop_add_four x h 0, gmulLoop]
    simp [nibbleAt]
  rw [tableMul, hfirst]
  exact tableMulLoop_referenceTable x h 31 1 rfl

end Sys2Proof.Machine
end


section
/-! Counter arithmetic (42_ctr_bulk.md R171, R172): the counter field after any number of steps of `inc32`, and
the number of steps to counter 0. -/

namespace Sys2Proof.Machine

open Sys2Proof

theorem ctrField_inc32_iterate (y : Block) (n : Nat) :
    ctrField (inc32^[n] y) = ctrField y + BitVec.ofNat 32 n := by
  induction n with
  | zero => simp
  | succ n ih =>
    rw [Function.iterate_succ_apply', ctrField_inc32, ih, BitVec.ofNat_add, BitVec.add_assoc]
    rfl

theorem blocksUntilWrap_add_ctrField (y : Block) : blocksUntilWrap y + (ctrField y).toNat = 2 ^ 32 :=
  Nat.sub_add_cancel (ctrField y).isLt.le

theorem blocksUntilWrap_pos (y : Block) : 0 < blocksUntilWrap y :=
  Nat.sub_pos_of_lt (ctrField y).isLt

theorem blocksUntilWrap_le (y : Block) : blocksUntilWrap y ≤ 2 ^ 32 :=
  Nat.sub_le ..

/-- Among the first `blocksUntilWrap y` steps, counter 0 is met at the last one alone. Before the first step `y`
may itself have counter 0, so `n` is positive. -/
theorem ctrField_inc32_iterate_eq_zero_iff (y : Block) {n : Nat} (hpos : 0 < n) (hle : n ≤ blocksUntilWrap y) :
    ctrField (inc32^[n] y) = 0 ↔ n = blocksUntilWrap y := by
  have hwrap := blocksUntilWrap_add_ctrField y
  have hvalue : (ctrField (inc32^[n] y)).toNat = ((ctrField y).toNat + n) % 2 ^ 32 := by
    rw [ctrField_inc32_iterate, BitVec.toNat_add, BitVec.toNat_ofNat, Nat.add_mod_mod]
  rw [← BitVec.toNat_inj, hvalue, show (0 : Word32).toNat = 0 from rfl]
  omega

/-- Settles O48: the fields of one step, and the steps up to the wrap by the counter field after `n` of them. -/
theorem counterArithmetic : Obligations.CounterArithmetic := by
  intro y
  have hstep : (ctrField (inc32 y)).toNat = ((ctrField y).toNat + 1) % 2 ^ 32 := by
    rw [ctrField_inc32, BitVec.toNat_add]
    rfl
  refine ⟨fixedField_inc32 y, hstep, blocksUntilWrap_add_ctrField y, blocksUntilWrap_pos y, blocksUntilWrap_le y,
    ?returns, ?notBefore⟩
  case returns => exact (ctrField_inc32_iterate_eq_zero_iff y (blocksUntilWrap_pos y) le_rfl).2 rfl
  case notBefore =>
    intro j hpos hlt hzero
    exact hlt.ne ((ctrField_inc32_iterate_eq_zero_iff y hpos hlt.le).1 hzero)

end Sys2Proof.Machine
end

section
/-! The phase table (43_sequencing.md R195): the seven commands as one command of the template, and what its
checks and its bodies leave in `STATUS.ERR` and `PHASE`. -/

namespace Sys2Proof.Machine

open Sys2Proof

/-! ### The commands as one -/

/-- What a command does once its checks have passed, given the phase it leaves (43_sequencing.md R190). -/
def commandBody : Command → Phase → State → State
  | .init => initBody
  | .setiv => setivBody
  | .aad => aadBody
  | .enc => dataBody .enc
  | .dec => dataBody .dec
  | .finish => finishBody
  | .verify => verifyBody

/-- Every command is its body under the checks that all commands have in common (43_sequencing.md R190). -/
theorem exec_command (c : Command) (s : State) : exec c.instr s = runCommand c (commandBody c) s := by
  cases c <;> rfl

/-- The model's table is that of 43_sequencing.md R195, cell by cell. -/
theorem sequencing_eq_phaseTable (c : Command) (p : Phase) : Spec.sequencing c p = phaseTable c p := by
  cases c <;> cases p <;> rfl

/-! ### The checks -/

/-- A command stopped by step 2 reports `ProtocolOrderError` and runs no body (43_sequencing.md R190). -/
theorem runCommand_of_order {c : Command} {body : Phase → State → State} {s : State}
    (h : phaseTable c s.phase = none) : runCommand c body s = .next (s.raise .protocolOrderError) := by
  simp only [runCommand, h]

/-- The codes of the length checks (60_exceptions.md R281). -/
theorem lengthError_mem {c : Command} {s : State} {e : ErrCode} (h : lengthError c s = some e) :
    e ∈ [.invalidKeyLength, .unsupportedIvLength, .lengthLimitExceeded, .invalidTagLength] := by
  cases c with
  | finish => cases h
  | init | setiv =>
    obtain ⟨-, ⟨⟩⟩ := Option.ite_none_left_eq_some.1 h
    simp
  | aad | enc | dec | verify =>
    obtain ⟨-, ⟨⟩⟩ := Option.ite_none_right_eq_some.1 h
    simp

/-! ### The bodies -/

@[simp] theorem verifyReport_phase (d : Byte) (s : State) : (verifyReport d s).phase = s.phase := by
  unfold verifyReport
  split <;> rfl

/-- The comparison of `VERIFY` succeeds or fails, and there is no third outcome (47_finish.md R264). -/
theorem verifyReport_err (d : Byte) (s : State) :
    (verifyReport d s).err = .ok ∨ (verifyReport d s).err = .authenticationFailure := by
  unfold verifyReport
  split
  · exact .inl rfl
  · exact .inr rfl

/-- A body leaves the phase it is given, `VERIFY`'s whatever the comparison finds. -/
theorem commandBody_phase (c : Command) (p : Phase) (s : State) : (commandBody c p s).phase = p := by
  cases c with
  | verify => exact verifyReport_phase _ _
  | init | setiv | aad | enc | dec | finish => rfl

/-- The outcomes of a command whose checks passed: `OK`, or the failed comparison of `VERIFY`. -/
theorem commandBody_err (c : Command) (p : Phase) (s : State) :
    (commandBody c p s).err = .ok ∨ (commandBody c p s).err = .authenticationFailure := by
  cases c with
  | verify => exact verifyReport_err _ _
  | init | setiv | aad | enc | dec | finish => exact .inl rfl

/-! ### The table followed -/

/-- Settles O7: of the four ways a command ends, the order error is none in a cell that names a phase; a later
check reports a code of its own and keeps `PHASE`; a body leaves the cell's phase and reports no check's code. -/
theorem phaseTableFollowed : Obligations.PhaseTableFollowed := by
  intro c s
  rw [sequencing_eq_phaseTable, exec_command]
  refine ⟨runCommand_of_order, fun p t hp hnext => ?_⟩
  obtain ⟨horder, -⟩ | ⟨-, e, -, hlength, rfl⟩ | ⟨-, -, -, -, rfl⟩ | ⟨q, hq, -, -, -, rfl⟩ :=
    runCommand_next hnext
  case inl =>
    rw [hp] at horder
    cases horder
  case inr.inl =>
    have hcode := lengthError_mem hlength
    rw [State.raise_err, State.raise_phase]
    constructor
    · rintro rfl
      simp at hcode
    · rw [if_neg]
      rintro (rfl | rfl) <;> simp at hcode
  case inr.inr.inl => simp
  case inr.inr.inr =>
    obtain rfl : p = q := Option.some.inj (hp.symm.trans hq)
    have herr := commandBody_err c p s
    refine ⟨?_, by rw [if_pos herr, commandBody_phase]⟩
    obtain hok | hfailed := herr
    · simp [hok]
    · simp [hfailed]

end Sys2Proof.Machine
end

section
/-! The controller's loop over whole blocks (46_data.md R236 to R238): `Blocks` on a string is `Blocks` on its two
parts in turn (42_ctr_bulk.md R180), and a bulk request with the fixed field restored is `Blocks` on the part the
engine took. -/

namespace Sys2Proof.Machine

open Sys2Proof

/-! ### `Blocks` (42_ctr_bulk.md R175) -/

theorem blocks_y (dir : Dir) (k : RoundKeys) (h : Block) (n : Nat) (s : List Byte) (y x : Block) :
    (blocks dir k h n s y x).y = inc32^[n] y := by
  induction n generalizing s y x with
  | zero => rfl
  | succ n ih => exact ih _ _ _

theorem fixedField_inc32_iterate (y : Block) (n : Nat) : fixedField (inc32^[n] y) = fixedField y := by
  induction n with
  | zero => rfl
  | succ n ih => rw [Function.iterate_succ_apply', fixedField_inc32, ih]

/-- Restoring the fixed field of the counter block that `Blocks` leaves changes nothing (42_ctr_bulk.md R179). -/
theorem counterBlock_ctrField_blocks (dir : Dir) (k : RoundKeys) (h : Block) (n : Nat) (s : List Byte) (y x : Block) :
    counterBlock (fixedField y) (ctrField (blocks dir k h n s y x).y) = (blocks dir k h n s y x).y := by
  rw [blocks_y, ← fixedField_inc32_iterate y n, counterBlock_fields]

/-- `Blocks` on `n` blocks reads no byte past them. -/
theorem blocks_take (dir : Dir) (k : RoundKeys) (h : Block) (n : Nat) {m : Nat} (s : List Byte) (y x : Block)
    (hm : 16 * n ≤ m) : blocks dir k h n (s.take m) y x = blocks dir k h n s y x := by
  induction n generalizing m s y x with
  | zero => rfl
  | succ n ih =>
    have hfirst : (s.take m).take 16 = s.take 16 := by rw [List.take_take, Nat.min_eq_left (by omega)]
    have hrest : (s.take m).drop 16 = (s.drop 16).take (m - 16) := List.drop_take
    simp only [blocks, hfirst, hrest, ih _ _ _ (show 16 * n ≤ m - 16 by omega)]

/-- `Blocks` on a concatenation is `Blocks` on the first part followed by `Blocks` on the second
(42_ctr_bulk.md R180). -/
theorem blocks_add (dir : Dir) (k : RoundKeys) (h : Block) (a b : Nat) (s : List Byte) (y x : Block) :
    blocks dir k h (a + b) s y x =
      let r := blocks dir k h a s y x
      let rest := blocks dir k h b (s.drop (16 * a)) r.y r.x
      ⟨r.out ++ rest.out, rest.y, rest.x⟩ := by
  induction a generalizing s y x with
  | zero => simp [blocks]
  | succ a ih =>
    have hdrop : (s.drop 16).drop (16 * a) = s.drop (16 * (a + 1)) := by
      rw [List.drop_drop, show 16 + 16 * a = 16 * (a + 1) by omega]
    simp only [Nat.succ_add, blocks, ih, hdrop, List.append_assoc]

/-! ### The bulk engine (42_ctr_bulk.md R176, R177) -/

theorem bulkTake_le (cfg : Config) (n : Nat) : bulkTake cfg n ≤ n := by
  unfold bulkTake
  split
  · exact Nat.min_le_right ..
  · exact le_rfl

/-- A request for the first `m` blocks of a string, in the terms of `Blocks` on the whole string; its fixed field is
any value (R179). -/
theorem bulk_take (cfg : Config) (dir : Dir) (k : RoundKeys) (h : Block) {m : Nat} {s : List Byte} (y x : Block)
    (hm : 16 * m ≤ s.length) :
    ∃ f, bulk cfg dir k h (s.take (16 * m)) y x =
      let r := blocks dir k h (bulkTake cfg m) s y x
      ⟨r.out, f, ctrField r.y, r.x, 16 * bulkTake cfg m⟩ := by
  have hlength : (s.take (16 * m)).length / 16 = m := by
    rw [List.length_take, Nat.min_eq_left hm, Nat.mul_div_cancel_left m (by decide)]
  have hprefix : blocks dir k h (bulkTake cfg m) (s.take (16 * m)) y x = blocks dir k h (bulkTake cfg m) s y x :=
    blocks_take dir k h _ s y x (Nat.mul_le_mul_left 16 (bulkTake_le cfg m))
  rw [bulk, hlength, hprefix]
  exact ⟨_, rfl⟩

/-! ### The loop (46_data.md R236, R238) -/

/-- Whatever the bound on the rounds: a round is `Blocks` on the blocks the engine took, and the blocks it did not
take go to `Blocks` either at once or by the rounds left. -/
theorem dispatchBlocks_eq_blocks (cfg : Config) (dir : Dir) (k : RoundKeys) (h : Block) (rounds n : Nat)
    (s : List Byte) (y x : Block) (hs : s.length = 16 * n) :
    dispatchBlocks cfg dir k h rounds n s y x = blocks dir k h n s y x := by
  induction rounds generalizing n s y x with
  | zero => rfl
  | succ rounds ih =>
    rw [dispatchBlocks]
    split
    case isTrue => rfl
    case isFalse =>
      have hreq : min n (blocksUntilWrap y) ≤ n := Nat.min_le_left ..
      obtain ⟨f, hbulk⟩ := bulk_take cfg dir k h (m := min n (blocksUntilWrap y)) y x (by omega : _ ≤ s.length)
      have htaken := (bulkTake_le cfg (min n (blocksUntilWrap y))).trans hreq
      simp only [hbulk, counterBlock_ctrField_blocks, Nat.mul_div_cancel_left _ (show 0 < 16 by decide)]
      generalize bulkTake cfg (min n (blocksUntilWrap y)) = t at htaken ⊢
      have hleft : (s.drop (16 * t)).length = 16 * (n - t) := by
        rw [List.length_drop, hs, Nat.mul_sub]
      rw [ih (n - t) _ _ _ hleft, ite_self, ← blocks_add, Nat.add_sub_cancel' htaken]

/-- Settles O27: the controller starts its loop with a bound of `n` rounds, and the loop computes `Blocks` under
every bound. -/
theorem dispatcherComputesBlocks : Obligations.DispatcherComputesBlocks := by
  intro cfg dir k h n s y x hs
  exact dispatchBlocks_eq_blocks cfg dir k h n n s y x hs

end Sys2Proof.Machine
end

section
/-! Completion (47_finish.md): the checks of `FINISH` in a session, and what its body leaves. -/

namespace Sys2Proof.Machine

open Sys2Proof

/-- A command whose phase and length pass, and whose ranges are all usable, runs its body (43_sequencing.md R190). -/
theorem runCommand_of_usable {c : Command} {body : Phase → State → State} {s : State} {p : Phase}
    (hp : phaseTable c s.phase = some p) (hl : lengthError c s = none)
    (hranges : ∀ g ∈ commandRanges c s, usable s.cfg g) (hoverlap : illegalOverlap c s = false) :
    runCommand c body s = .next (body p s) := by
  obtain ⟨haccess, hwindow⟩ := (memory_checks_pass c s).mpr ⟨hranges, hoverlap⟩
  exact runCommand_accepted hp hl haccess hwindow

/-- The phases of a session are those from which `FINISH` is admitted (43_sequencing.md R195). -/
theorem phaseTable_finish_eq_some_iff (p q : Phase) :
    phaseTable .finish p = some q ↔ p.inSession = true ∧ q = .done := by
  cases p <;> simp [phaseTable, Phase.inSession, eq_comm]

/-- The accumulator of the tag, in the terms of the field's product (47_finish.md R260). -/
theorem finalX_eq (c : Context) :
    finalX c =
      gmul ((if c.dataResidue ≠ 0 ∨ c.aadResidue ≠ 0 then gmul c.x c.hTable else c.x) ^^^
        (c.aadLenBits ++ c.dataLenBits)) c.hTable := rfl

/-- All that the body of `FINISH` changes (47_finish.md R262). -/
theorem finishBody_eq (p : Phase) (s : State) :
    finishBody p s =
      { s with
        phase := p, err := .ok, matched := false, ctx := { s.ctx with x := finalX s.ctx },
        mem := s.mem.writeBytes s.dst.toNat (bytesOfBlock (finalX s.ctx ^^^ s.ctx.ek0)) } := by
  simp only [finishBody, tagOf, State.storeOutput, State.withMem, State.withCtx, State.succeed, State.withPhase,
    State.withStatus]

/-- Settles O33: `FINISH` has no length to check and one range, so its body runs from every phase of a session. -/
theorem finishWritesTag : Obligations.FinishWritesTag := by
  intro s hsession husable
  have hphase : phaseTable .finish s.phase = some .done :=
    (phaseTable_finish_eq_some_iff s.phase .done).mpr ⟨hsession, rfl⟩
  have hranges : ∀ g ∈ commandRanges .finish s, usable s.cfg g := List.forall_mem_singleton.mpr husable
  have hrun : exec .finish s = .next (finishBody .done s) :=
    (exec_command .finish s).trans (runCommand_of_usable hphase rfl hranges rfl)
  exact ⟨_, finalX s.ctx, rfl, finalX_eq s.ctx, hrun.trans (congrArg _ (finishBody_eq .done s))⟩

end Sys2Proof.Machine
end

section
/-! Encoding (30_encoding.md): a code is its two fields, and the two opcode maps read backwards. -/

namespace Sys2Proof.Machine

open Sys2Proof

/-- A word is its reserved bits and its opcode (30_encoding.md R91). -/
theorem rsvdField_append_opField (w : Word32) : rsvdField w ++ opField w = w := by
  simp only [rsvdField, opField, BitVec.extractLsb'_append_extractLsb'_eq_extractLsb' (by decide : 4 = 0 + 4)]
  exact BitVec.extractLsb'_eq_self

/-- A request code is its unit and its function (30_encoding.md R95). -/
theorem unitField_append_funcField (c : Byte) : unitField c ++ funcField c = c := by
  simp only [unitField, funcField, BitVec.extractLsb'_append_extractLsb'_eq_extractLsb' (by decide : 4 = 0 + 4)]
  exact BitVec.extractLsb'_eq_self

theorem eq_ofNat_of_toNat {w n : Nat} {v : BitVec w} (h : v.toNat = n) : v = BitVec.ofNat w n := by
  rw [← h, BitVec.ofNat_toNat, BitVec.setWidth_eq]

/-- An opcode that selects a command is the one of that command's word (30_encoding.md R93). -/
theorem commandWord_of_commandOf {op : BitVec 4} {i : Instr} (h : commandOf op = .ok i) :
    commandWord op = encode i := by
  unfold commandOf at h
  split at h
  case h_8 => cases h
  all_goals
    next hop =>
      cases h
      rw [eq_ofNat_of_toNat hop]
      rfl

/-- A unit and a function that select a request are those of that request's code (30_encoding.md R95). -/
theorem requestCode_of_requestOf {unit func : BitVec 4} {i : Instr} (h : requestOf unit func = .ok i) :
    requestCode unit func = encode i := by
  unfold requestOf at h
  split at h
  case h_9 => cases h
  all_goals
    next hunit hfunc =>
      cases h
      rw [eq_ofNat_of_toNat hunit, eq_ofNat_of_toNat hfunc]
      rfl

theorem decode_encode (i : Instr) : decode (encode i) = .ok i := by
  cases i <;> rfl

theorem eq_encode_of_decode {c : Code} {i : Instr} (h : decode c = .ok i) : c = encode i := by
  cases c with
  | command w =>
    rw [decode] at h
    split at h
    case isTrue hrsvd =>
      rw [← commandWord_of_commandOf h, commandWord, ← hrsvd, rsvdField_append_opField]
    case isFalse => cases h
  | request c => rw [← requestCode_of_requestOf h, requestCode, unitField_append_funcField]

/-- Settles O1: each map of the opcodes is read in both directions. -/
theorem decodeIffEncode : Obligations.DecodeIffEncode := by
  intro c i
  constructor
  · intro h
    exact ⟨by cases i <;> rfl, eq_encode_of_decode h⟩
  · rintro ⟨-, rfl⟩
    exact decode_encode i

/-- Settles O2: the twenty-two rows evaluated. -/
theorem tableRowsDecode : Obligations.TableRowsDecode := by
  refine ⟨rfl, rfl, rfl⟩

end Sys2Proof.Machine
end

section
/-! Codes from the bus (10_state.md section 5, 43_sequencing.md R190, 30_encoding.md R94, R95): a word written to
`CMD`, a code presented at the units' port, and the row that `withFetchWord` places. -/

namespace Sys2Proof.Machine

open Sys2Proof

/-! ### Where an access of the window leads -/

/-- A 32-bit access inside the window names the register at its offset (10_state.md R40). -/
theorem windowTarget_word (cfg : Config) (off : Nat) :
    windowTarget cfg (cfg.regBase + off) .word = windowRegAt off := by
  rw [windowTarget, if_pos ⟨rfl, Nat.le_add_right ..⟩, Nat.add_sub_cancel_left]

theorem hostWrite_cmd (s : State) (v : Word32) : hostWrite s.cfg.regBase .word v s = submitCommand v s := by
  have htarget : windowTarget s.cfg s.cfg.regBase .word = some .cmd := windowTarget_word s.cfg 0
  simp only [hostWrite, htarget]

theorem hostWrite_reg {s : State} {off : Nat} {r : WindowReg} (v : Word32) (hreg : windowRegAt off = some r)
    (hcmd : r ≠ .cmd) : hostWrite (s.cfg.regBase + off) .word v s = .next (writeReg r v s) := by
  rw [hostWrite, windowTarget_word, hreg]
  cases r with
  | cmd => exact absurd rfl hcmd
  | status | srcLo | srcHi | dstLo | dstHi | lenLo | lenHi => rfl

theorem hostRead_reg {s : State} {off : Nat} {r : WindowReg} (hreg : windowRegAt off = some r) :
    hostRead (s.cfg.regBase + off) .word s = .next (s.withHostData (readReg r s)) := by
  rw [hostRead, windowTarget_word, hreg]

/-! ### The code decides -/

theorem submitCommand_of_decode {v : Word32} {i : Instr} (s : State) (h : decode (.command v) = .ok i) :
    submitCommand v s = exec i s := by
  simp only [submitCommand, h]

theorem submitRequest_of_decode {c : Byte} {i : Instr} (o : RequestOps) (s : State)
    (h : decode (.request c) = .ok i) : submitRequest c o s = exec i (s.withOps o) := by
  simp only [submitRequest, h]

theorem submitCommand_of_unnamed {v : Word32} (s : State) (h : ∀ i, decode (.command v) ≠ .ok i) :
    submitCommand v s = .next (s.raise .illegalCommand) := by
  rw [submitCommand]
  split
  case h_1 i hdecode => exact absurd hdecode (h i)
  case h_2 => rfl

theorem submitRequest_of_unnamed {c : Byte} (o : RequestOps) (s : State) (h : ∀ i, decode (.request c) ≠ .ok i) :
    submitRequest c o s = .refused .undefinedRequest := by
  rw [submitRequest]
  split
  case h_1 i hdecode => exact absurd hdecode (h i)
  case h_2 => rfl

/-- The opcode of a command's word is from 1 to 7, under reserved bits that are 0 (30_encoding.md R93). -/
theorem fields_of_command {v : Word32} {i : Instr} (h : decode (.command v) = .ok i) :
    rsvdField v = 0 ∧ 1 ≤ (opField v).toNat ∧ (opField v).toNat ≤ 7 := by
  have hcode := eq_encode_of_decode h
  cases i with
  | aesExpand | aesEncrypt | ghashBuild | ghashMul | ghashMulrange | ctrBlocks | bulkEnc | bulkDec => cases hcode
  | init | setiv | aad | enc | dec | finish | verify =>
    cases hcode
    decide

/-- The eight request codes (30_encoding.md R95). -/
theorem mem_of_request {c : Byte} {i : Instr} (h : decode (.request c) = .ok i) :
    c ∈ ([0x10, 0x11, 0x20, 0x21, 0x22, 0x30, 0x31, 0x32] : List Byte) := by
  have hcode := eq_encode_of_decode h
  cases i with
  | init | setiv | aad | enc | dec | finish | verify => cases hcode
  | aesExpand | aesEncrypt | ghashBuild | ghashMul | ghashMulrange | ctrBlocks | bulkEnc | bulkDec =>
    cases hcode
    decide

/-! ### One step on a code -/

theorem step_write_cmd {s : State} {es : List HostEvent} {v : Word32}
    (h : s.pending = .windowWrite s.cfg.regBase .word v :: es) : step s = submitCommand v (s.withPending es) :=
  (step_of_pending h).trans (hostWrite_cmd (s.withPending es) v)

theorem step_request {s : State} {es : List HostEvent} {c : Byte} {o : RequestOps}
    (h : s.pending = .request c o :: es) : step s = submitRequest c o (s.withPending es) :=
  step_of_pending h

/-- Settles O3. -/
theorem stepRunsWrittenCommand : Obligations.StepRunsWrittenCommand := by
  intro s es v i hpending hdecode
  rw [step_write_cmd hpending]
  exact submitCommand_of_decode _ hdecode

/-- Settles O4. -/
theorem stepRunsPresentedRequest : Obligations.StepRunsPresentedRequest := by
  intro s es c o i hpending hdecode
  rw [step_request hpending]
  exact submitRequest_of_decode o _ hdecode

/-- Settles O5: the event placed in front is taken again, and the state under it is `s`; a request is presented with
the operands the port already holds. -/
theorem fetchWordRunsNext : Obligations.FetchWordRunsNext := by
  intro s nbits w i hdecode
  unfold decodeTableWord at hdecode
  split at hdecode
  case h_2 => cases hdecode
  case h_1 c hcode =>
    have hok : decode c = .ok i := by
      cases hc : decode c with
      | ok j => simpa [hc, Except.toOption] using hdecode
      | error e => simp [hc, Except.toOption] at hdecode
    cases c with
    | command v =>
      have hplaced : s.withFetchWord nbits w = s.withPending (.windowWrite s.cfg.regBase .word v :: s.pending) := by
        simp only [State.withFetchWord, withPresented, presentRow, hcode]
      rw [hplaced, step_write_cmd rfl]
      exact submitCommand_of_decode s hok
    | request c =>
      have hplaced : s.withFetchWord nbits w = s.withPending (.request c s.port.ops :: s.pending) := by
        simp only [State.withFetchWord, withPresented, presentRow, hcode]
      rw [hplaced, step_request rfl]
      exact submitRequest_of_decode s.port.ops s hok

/-- Settles O6: such a code is none of those that the fifteen instructions have. -/
theorem unnamedCodesRaiseOrStop : Obligations.UnnamedCodesRaiseOrStop := by
  constructor
  · intro s es v hpending hfields
    rw [step_write_cmd hpending]
    refine submitCommand_of_unnamed _ fun i hdecode => ?_
    obtain ⟨hrsvd, hlow, hhigh⟩ := fields_of_command hdecode
    obtain hreserved | hzero | height := hfields
    · exact hreserved hrsvd
    · exact absurd hzero (by unfold opField at hlow; omega)
    · exact absurd height (by unfold opField at hhigh; omega)
  · intro s es c o hpending hother
    rw [step_request hpending]
    exact submitRequest_of_unnamed o _ fun i hdecode => hother (mem_of_request hdecode)

end Sys2Proof.Machine
end

section
/-! The register window (10_state.md section 5): what a host read returns, what a host write of a half leaves, and
the fields of `STATUS`. -/

namespace Sys2Proof.Machine

open Sys2Proof

/-! ### One step on an access of the window -/

theorem step_write_reg {s : State} {es : List HostEvent} {off : Nat} {r : WindowReg} {v : Word32}
    (h : s.pending = .windowWrite (s.cfg.regBase + off) .word v :: es) (hreg : windowRegAt off = some r)
    (hcmd : r ≠ .cmd) : step s = .next (writeReg r v (s.withPending es)) :=
  (step_of_pending h).trans (hostWrite_reg (s := s.withPending es) v hreg hcmd)

theorem step_read_reg {s : State} {es : List HostEvent} {off : Nat} {r : WindowReg}
    (h : s.pending = .windowRead (s.cfg.regBase + off) .word :: es) (hreg : windowRegAt off = some r) :
    step s = .next ((s.withPending es).withHostData (readReg r (s.withPending es))) :=
  (step_of_pending h).trans (hostRead_reg (s := s.withPending es) hreg)

/-- Settles O17: the seven offsets, each with its register. -/
theorem windowReadsReturn : Obligations.WindowReadsReturn := by
  intro s es
  exact ⟨fun h => step_read_reg (off := 0) (r := .cmd) h rfl, fun h => step_read_reg (r := .srcLo) h rfl,
    fun h => step_read_reg (r := .srcHi) h rfl, fun h => step_read_reg (r := .dstLo) h rfl,
    fun h => step_read_reg (r := .dstHi) h rfl, fun h => step_read_reg (r := .lenLo) h rfl,
    fun h => step_read_reg (r := .lenHi) h rfl⟩

/-! ### `STATUS` (10_state.md R42) -/

/-- The fields of a word put together as `STATUS` is, for every content of them. -/
theorem status_fields : ∀ (p : BitVec 3) (m : BitVec 1) (e : BitVec 4),
    let w : Word32 := (0 : BitVec 21) ++ p ++ (0 : BitVec 3) ++ m ++ e
    w.extractLsb' 0 4 = e ∧ w.getLsbD 4 = m.getLsbD 0 ∧ w.extractLsb' 5 3 = 0 ∧ w.extractLsb' 8 3 = p ∧
      w.extractLsb' 11 21 = 0 := by
  decide

theorem getLsbD_matchBit (m : Bool) : (matchBit m).getLsbD 0 = m := by
  cases m <;> rfl

/-- Settles O18. -/
theorem statusRegisterLayout : Obligations.StatusRegisterLayout := by
  intro s es
  refine ⟨fun h => ⟨statusWord s, step_read_reg (r := .status) h rfl, ?_⟩,
    fun v h => step_write_reg (r := .status) h rfl (by decide)⟩
  obtain ⟨herr, hmatch, hgap, hphase, htop⟩ := status_fields s.phase.code (matchBit s.matched) s.err.code
  rw [getLsbD_matchBit] at hmatch
  refine ⟨?_, hmatch, hgap, ?_, htop⟩
  · rw [statusWord, herr]
    cases s.err <;> decide
  · rw [statusWord, hphase]
    cases s.phase <;> decide

/-! ### The context behind the window -/

/-- What a read returns does not depend on the context (10_state.md R20). -/
theorem readReg_withCtx (r : WindowReg) (c : Context) (s : State) : readReg r (s.withCtx c) = readReg r s := by
  cases r <;> rfl

/-- Settles O20: a read is refused or returns a register, and neither looks at the context. -/
theorem contextHiddenFromWindow : Obligations.ContextHiddenFromWindow := by
  intro s es a w c hpending
  have hstep : step (s.withCtx c) = handleEvent (.windowRead a w) ((s.withCtx c).withPending es) :=
    step_of_pending hpending
  change step (s.withCtx c) = _
  rw [hstep, step_of_pending hpending]
  cases htarget : windowTarget s.cfg a w with
  | none =>
    have hrefused (t : State) (h : t.cfg = s.cfg) : handleEvent (.windowRead a w) t = .refused .notAWindowAccess :=
      hostRead_of_no_target (by rw [h, htarget])
    rw [hrefused ((s.withCtx c).withPending es) rfl, hrefused (s.withPending es) rfl]
  | some r =>
    have hread (t : State) (h : t.cfg = s.cfg) :
        handleEvent (.windowRead a w) t = .next (t.withHostData (readReg r t)) := by
      simp only [handleEvent, hostRead, h, htarget]
    rw [hread ((s.withCtx c).withPending es) rfl, hread (s.withPending es) rfl]
    exact congrArg (fun v => Host.Outcome.next (((s.withCtx c).withPending es).withHostData v))
      (readReg_withCtx r c (s.withPending es))

end Sys2Proof.Machine
end

section
/-! The other events and the whole machine (10_state.md R55, 20_memory.md R60, 70_reset_and_hazards.md R320,
60_exceptions.md R303). -/

namespace Sys2Proof.Machine

open Sys2Proof

/-- Settles O49. -/
theorem resetValues : Obligations.ResetValues :=
  ⟨rfl, rfl, rfl, rfl, rfl⟩

/-- Settles O50: the context is the free value of log 3. -/
theorem resetEventEffect : Obligations.ResetEventEffect := by
  intro s es hpending
  exact ⟨Config.contextAfterReset s.resets, step_of_pending hpending⟩

/-- Settles O51. -/
theorem idleHoldsState : Obligations.IdleHoldsState := by
  intro s hpending
  simp only [step, takeEvent, hpending, idle]

/-- Settles O52: the byte stored is read back by the law of the data memory. -/
theorem hostStoresThenLoads : Obligations.HostStoresThenLoads := by
  intro s es a b hwf hpending
  have hread (a' : Nat) : (s.mem.write a.toNat b).read a' = if a' = a.toNat then b else s.mem.read a' := by
    rw [Memory.read_write _ _ _ _ hwf.1]
    simp only [eq_comm]
  refine ⟨s.mem.write a.toNat b, step_of_pending hpending, hread, ?_⟩
  rw [step_of_pending (es := es) rfl]
  simp only [handleEvent, State.withPending, State.withHostData, hread, if_true]

/-- Settles O56: the memory is empty, and in `P_RESET` nothing else is asked. -/
theorem invariantAtReset : Obligations.InvariantAtReset := by
  refine ⟨⟨.nil, fun p hp => by cases hp⟩, fun h => absurd rfl h, fun h => ?_, fun h => ?_⟩
  · cases h
  · cases h

end Sys2Proof.Machine
end

section
/-! The requests at the units' port (30_encoding.md R95): their domains, and that a request leaves nothing but its
results. -/

namespace Sys2Proof.Machine

open Sys2Proof

/-! ### The requests as instructions -/

theorem exec_aesExpand (s : State) : exec .aesExpand s = execAesExpand s := rfl
theorem exec_aesEncrypt (s : State) : exec .aesEncrypt s = execAesEncrypt s := rfl
theorem exec_ghashMul (s : State) : exec .ghashMul s = execGhashMul s := rfl
theorem exec_ghashMulrange (s : State) : exec .ghashMulrange s = execGhashMulrange s := rfl
theorem exec_ctrBlocks (s : State) : exec .ctrBlocks s = execCtrBlocks s := rfl

/-! ### What a request changes -/

/-- A request inside its domain answers its results at the port. -/
theorem withResults_of_guarded {d : Prop} [Decidable d] {r : RequestResults} {s t : State} {why : Refusal}
    (h : (if d then .next (s.withResults r) else .refused why : Host.Outcome State Fault Refusal) = .next t) :
    ∃ r, t = s.withResults r := by
  split at h
  · cases h
    exact ⟨r, rfl⟩
  · cases h

/-- A request answers its results at the port, and nothing else (log 12). -/
theorem exec_request_next {i : Instr} {s t : State} (hi : commandOfInstr i = none) (h : exec i s = .next t) :
    ∃ r, t = s.withResults r := by
  cases i with
  | init | setiv | aad | enc | dec | finish | verify => cases hi
  | aesEncrypt | ghashBuild | ghashMul =>
    cases h
    exact ⟨_, rfl⟩
  | aesExpand | ghashMulrange | ctrBlocks | bulkEnc | bulkDec => exact withResults_of_guarded h

/-- Settles O47. -/
theorem requestsChangeOnlyResults : Obligations.RequestsChangeOnlyResults := by
  intro i s t hi hnext
  obtain ⟨r, rfl⟩ := exec_request_next hi hnext
  rfl

/-! ### Outside the domains (log 13) -/

theorem runBulk_of_not_domain (dir : Dir) {s : State} (h : bulkDomain s.port.ops = false) :
    runBulk dir s = .refused .requestOutsideDomain := by
  simp only [runBulk, h, Bool.false_eq_true, if_false]

/-- Settles O46. -/
theorem requestsOutsideDomainStop : Obligations.RequestsOutsideDomainStop := by
  intro s
  refine ⟨fun hkey => ?_, fun hblocks => ⟨?_, ?_⟩, fun hbulk => ?_⟩
  · rw [exec_aesExpand, execAesExpand, if_neg (by rwa [keyLength_iff])]
  · rw [exec_ghashMulrange, execGhashMulrange, if_neg hblocks]
  · simp only [exec_ctrBlocks, execCtrBlocks, if_neg hblocks]
  · have hdomain : bulkDomain s.port.ops = false := by
      rw [Bool.eq_false_iff, ne_eq, bulkDomain_iff]
      omega
    exact ⟨runBulk_of_not_domain .enc hdomain, runBulk_of_not_domain .dec hdomain⟩

/-! ### The GHASH requests (41_ghash.md R153, R154, R158) -/

/-- Settles O40: the table is held as `h` itself (log 11). -/
theorem ghashBuildThenMultiply : Obligations.GhashBuildThenMultiply := by
  intro s
  refine ⟨ghashBuild s.port.ops.h, rfl, fun u htable => ?_⟩
  rw [exec_ghashMul, execGhashMul, htable]
  rfl

/-- `GHASH.MULRANGE` over the bytes of some blocks is a fold over the blocks. -/
theorem mulRange_flatMap (hT : Block) (bs : List Block) (x : Block) :
    mulRange hT bs.length (bs.flatMap bytesOfBlock) x = bs.foldl (fun x b => gmul (x ^^^ b) hT) x := by
  induction bs generalizing x with
  | nil => rfl
  | cons b bs ih =>
    have htake : (bytesOfBlock b ++ bs.flatMap bytesOfBlock).take 16 = bytesOfBlock b :=
      List.take_left' (bytesOfBlock_length b)
    have hdrop : (bytesOfBlock b ++ bs.flatMap bytesOfBlock).drop 16 = bs.flatMap bytesOfBlock :=
      List.drop_left' (bytesOfBlock_length b)
    rw [List.flatMap_cons, List.length_cons, mulRange, htake, hdrop, blockOfBytes_bytesOfBlock, ih, List.foldl_cons,
      ghashMul]

theorem length_flatMap_bytesOfBlock (bs : List Block) : (bs.flatMap bytesOfBlock).length = 16 * bs.length := by
  induction bs with
  | nil => rfl
  | cons b bs ih =>
    rw [List.flatMap_cons, List.length_append, bytesOfBlock_length, ih, List.length_cons]
    omega

/-- Settles O43. -/
theorem ghashMulrangeFoldsBlocks : Obligations.GhashMulrangeFoldsBlocks := by
  intro s bs hs
  have hlength : s.port.ops.s.length = 16 * bs.length := by rw [hs, length_flatMap_bytesOfBlock]
  rw [exec_ghashMulrange, execGhashMulrange, if_pos (by omega), hlength, Nat.mul_div_cancel_left _ (by decide), hs,
    mulRange_flatMap]
  rfl

end Sys2Proof.Machine
end

section
/-! The AES requests (40_aes_core.md R125, R130): the key schedule by its recurrence, and the rounds. -/

namespace Sys2Proof.Machine

open Sys2Proof Sys2Proof.Spec

/-! ### The key schedule -/

/-- `w[i]` of the schedule of a key of `4 * nk` bytes: the newest of the first `i + 1` words. -/
def keyWord (key : List Byte) (nk i : Nat) : Word32 := (keyWords key nk (i + 1)).getD 0 0

@[simp] theorem keyWords_length (key : List Byte) (nk n : Nat) : (keyWords key nk n).length = n := by
  induction n with
  | zero => rfl
  | succ n ih =>
    rw [keyWords]
    split <;> simp [ih]

/-- The words stand newest first. -/
theorem keyWords_succ (key : List Byte) (nk n : Nat) :
    keyWords key nk (n + 1) = keyWord key nk n :: keyWords key nk n := by
  rw [keyWord, keyWords]
  split <;> rfl

theorem keyWords_getD (key : List Byte) (nk n : Nat) {j : Nat} (hj : j < n) :
    (keyWords key nk n).getD j 0 = keyWord key nk (n - 1 - j) := by
  induction n generalizing j with
  | zero => omega
  | succ n ih =>
    rw [keyWords_succ]
    cases j with
    | zero => rfl
    | succ j => rw [List.getD_cons_succ, ih (by omega), show n + 1 - 1 - (j + 1) = n - 1 - j by omega]

/-- The words oldest first. -/
theorem keyWords_reverse_getD (key : List Byte) (nk n : Nat) {i : Nat} (hi : i < n) :
    (keyWords key nk n).reverse.getD i 0 = keyWord key nk i := by
  have hreverse : (keyWords key nk n).reverse.getD i 0 = (keyWords key nk n).getD (n - 1 - i) 0 := by
    simp only [List.getD_eq_getElem?_getD, List.getElem?_reverse (show i < (keyWords key nk n).length by simpa),
      keyWords_length]
  rw [hreverse, keyWords_getD _ _ _ (by omega), show n - 1 - (n - 1 - i) = i by omega]

/-- The first `Nk` words are the key's. -/
theorem keyWord_of_lt (key : List Byte) {nk i : Nat} (hi : i < nk) :
    keyWord key nk i = wordOfBytes ((key.drop (4 * i)).take 4) := by
  rw [keyWord, keyWords, if_pos hi, List.getD_cons_zero]

/-- A later word comes from `w[i-1]` and `w[i-Nk]`. -/
theorem keyWord_of_ge (key : List Byte) {nk i : Nat} (hnk : 0 < nk) (hi : nk ≤ i) :
    keyWord key nk i = keyWord key nk (i - nk) ^^^ scheduleWord nk i (keyWord key nk (i - 1)) := by
  have hfirst : (keyWords key nk i).getD 0 0 = keyWord key nk (i - 1) := keyWords_getD key nk i (by omega)
  have hkey : (keyWords key nk i).getD (nk - 1) 0 = keyWord key nk (i - nk) := by
    rw [keyWords_getD key nk i (by omega), show i - 1 - (nk - 1) = i - nk by omega]
  rw [keyWord, keyWords, if_neg (by omega), List.getD_cons_zero, hfirst, hkey]

theorem roundsOf_toNat {n : Nat} (h : n = 16 ∨ n = 24 ∨ n = 32) : (roundsOf n).toNat = n / 4 + 6 := by
  obtain rfl | rfl | rfl := h <;> rfl

/-- `rk[r]` of an expanded key, from its words. -/
theorem expandKey_key (key : List Byte) {r : Nat} (hr : r ≤ (roundsOf key.length).toNat) :
    (expandKey key).key r =
      keyWord key (key.length / 4) (4 * r) ++ keyWord key (key.length / 4) (4 * r + 1) ++
        keyWord key (key.length / 4) (4 * r + 2) ++ keyWord key (key.length / 4) (4 * r + 3) := by
  have hword {j : Nat} (hj : 4 * r ≤ j ∧ j < 4 * r + 4) :=
    keyWords_reverse_getD key (key.length / 4) (4 * ((roundsOf key.length).toNat + 1)) (i := j) (by omega)
  have hentry (ws : List Word32) (d : Block) :
      ((List.range ((roundsOf key.length).toNat + 1)).map (roundKeyOf ws)).getD r d = roundKeyOf ws r := by
    simp [List.getD_eq_getElem?_getD, Nat.lt_succ_of_le hr]
  simp only [RoundKeys.key, expandKey, hentry, roundKeyOf]
  rw [hword (by omega), hword (by omega), hword (by omega), hword (by omega)]

/-- The model's schedule is one by the recurrence of R125. -/
theorem isSchedule_expandKey {key : List Byte} (h : key.length = 16 ∨ key.length = 24 ∨ key.length = 32) :
    isSchedule key (expandKey key) := by
  have hrounds := roundsOf_toNat h
  have hnr : (expandKey key).nr = roundsOf key.length := rfl
  refine ⟨hrounds, ?_, keyWord key (key.length / 4), fun i hi => keyWord_of_lt key hi, fun i hlow _ => ?_,
    fun r hr => expandKey_key key hr⟩
  · simp [expandKey, hrounds]
  · exact keyWord_of_ge key (by omega) hlow

/-- Settles O35. -/
theorem aesExpandGivesSchedule : Obligations.AesExpandGivesSchedule := by
  intro s hkey
  refine ⟨expandKey s.port.ops.key, isSchedule_expandKey hkey, ?_⟩
  rw [exec_aesExpand, execAesExpand, if_pos ((keyLength_iff _).mpr hkey)]
  rfl

/-! ### The rounds -/

/-- The first `n` rounds of the cipher, each with `MixColumns`, in the terms of R130. -/
theorem foldl_cipherRound (k : RoundKeys) (b : Block) (n : Nat) :
    ((List.range n).map (· + 1)).foldl (cipherRound k) (addRoundKey b (k.key 0)) = cipherState k b n := by
  induction n with
  | zero => rfl
  | succ n ih => simp only [List.range_succ, List.map_append, List.foldl_append, ih, List.map_cons, List.map_nil,
      List.foldl_cons, List.foldl_nil, cipherRound, cipherState]

/-- Settles O36. -/
theorem aesEncryptRunsRounds : Obligations.AesEncryptRunsRounds := by
  intro s
  rw [exec_aesEncrypt, execAesEncrypt, encryptBlock, foldl_cipherRound]
  rfl

end Sys2Proof.Machine
end

section
/-! The counter-mode requests (42_ctr_bulk.md section 2 to 4): one block under its keystream, whole blocks under one
continuous counter, and the bulk engine. -/

namespace Sys2Proof.Machine

open Sys2Proof Sys2Proof.Spec

/-! ### The keystream of whole blocks -/

theorem inc32_iterate (y : Block) (n : Nat) : inc32^[n] y = advance y n := by
  rw [← counterBlock_fields (inc32^[n] y), fixedField_inc32_iterate, ctrField_inc32_iterate, advance]

/-- The first 16 bytes of the keystream from `y` on are those of `y` encrypted. -/
theorem keystreamByte_of_lt (k : RoundKeys) (y : Block) {j : Nat} (hj : j < 16) :
    keystreamByte k y j = byteAt (encryptBlock k y) j := by
  rw [keystreamByte, Nat.div_eq_of_lt hj, Nat.mod_eq_of_lt hj]
  simp

/-- After 16 bytes the keystream from `y` on is that of the next counter block. -/
theorem keystreamByte_add (k : RoundKeys) (y : Block) (j : Nat) :
    keystreamByte k y (j + 16) = keystreamByte k (inc32 y) j := by
  have hctr : ctrField y + BitVec.ofNat 32 (j / 16 + 1) = ctrField y + 1 + BitVec.ofNat 32 (j / 16) := by
    rw [BitVec.ofNat_add, BitVec.add_comm (BitVec.ofNat 32 (j / 16)), BitVec.add_assoc]
    rfl
  rw [keystreamByte, keystreamByte, Nat.add_div_right j (by decide), Nat.add_mod_right, hctr, fixedField_inc32,
    ctrField_inc32]

@[simp] theorem underKeystream_length (k : RoundKeys) (y : Block) (s : List Byte) :
    (underKeystream k y s).length = s.length := List.length_mapIdx

/-- One block under its keystream. -/
theorem underKeystream_block (k : RoundKeys) (y : Block) {s : List Byte} (hs : s.length = 16) :
    underKeystream k y s = bytesOfBlock (ctrBlock k y (blockOfBytes s)) := by
  apply List.ext_getElem (by simp [hs])
  intro i hleft hright
  have hi : i < 16 := by simpa using hright
  rw [← List.getD_eq_getElem _ 0 hright, bytesOfBlock_getD _ _ hi, ctrBlock, byteAt_xor, byteAt_blockOfBytes s hs i hi,
    List.getD_eq_getElem _ _ (by omega)]
  simp only [underKeystream, List.getElem_mapIdx, keystreamByte_of_lt k y hi]

/-- A string of a block and more: the rest goes under the keystream of the next counter block. -/
theorem underKeystream_append (k : RoundKeys) (y : Block) {s : List Byte} (t : List Byte) (hs : s.length = 16) :
    underKeystream k y (s ++ t) = underKeystream k y s ++ underKeystream k (inc32 y) t := by
  simp only [underKeystream, List.mapIdx_append, hs, keystreamByte_add]

theorem underKeystream_block_append (k : RoundKeys) (y : Block) {s : List Byte} (hs : 16 ≤ s.length) :
    underKeystream k y s =
      bytesOfBlock (ctrBlock k y (blockOfBytes (s.take 16))) ++ underKeystream k (inc32 y) (s.drop 16) := by
  have htake : (s.take 16).length = 16 := by rw [List.length_take, Nat.min_eq_left hs]
  rw [← underKeystream_block k y htake, ← underKeystream_append k y _ htake, List.take_append_drop]

/-! ### `CTR.BLOCKS` and `Blocks` (42_ctr_bulk.md R173, R175) -/

theorem ctrBlocks_eq (k : RoundKeys) (n : Nat) (s : List Byte) (y : Block) (hs : s.length = 16 * n) :
    ctrBlocks k n s y = ⟨underKeystream k y s, inc32^[n] y⟩ := by
  induction n generalizing s y with
  | zero =>
    obtain rfl : s = [] := List.length_eq_zero_iff.mp hs
    rfl
  | succ n ih =>
    rw [underKeystream_block_append k y (by omega), Function.iterate_succ_apply]
    simp only [ctrBlocks, ih (s.drop 16) (inc32 y) (by rw [List.length_drop]; omega)]

theorem blocks_out (dir : Dir) (k : RoundKeys) (h : Block) (n : Nat) (s : List Byte) (y x : Block)
    (hs : s.length = 16 * n) : (blocks dir k h n s y x).out = underKeystream k y s := by
  induction n generalizing s y x with
  | zero =>
    obtain rfl : s = [] := List.length_eq_zero_iff.mp hs
    rfl
  | succ n ih =>
    rw [underKeystream_block_append k y (by omega), blocks, ih _ _ _ (by rw [List.length_drop]; omega)]
    rfl

/-- The ciphertext of a block, as bytes and as a block. -/
theorem cipherOf_block (dir : Dir) (k : RoundKeys) (y : Block) (s : List Byte) :
    blockOfBytes (cipherOf dir s (bytesOfBlock (ctrBlock k y (blockOfBytes s)))) =
      cipherOf dir (blockOfBytes s) (ctrBlock k y (blockOfBytes s)) := by
  cases dir with
  | enc => exact blockOfBytes_bytesOfBlock _
  | dec => rfl

theorem cipherOf_append (dir : Dir) (a b c d : List Byte) :
    cipherOf dir (a ++ b) (c ++ d) = cipherOf dir a c ++ cipherOf dir b d := by
  cases dir <;> rfl

/-- The accumulator of `Blocks` is that of the ciphertext absorbed byte by byte. -/
theorem blocks_absorb (dir : Dir) (k : RoundKeys) (h : Block) (n : Nat) (s : List Byte) (y x : Block)
    (hs : s.length = 16 * n) :
    (⟨(blocks dir k h n s y x).x, 0⟩ : Absorber) = absorb h ⟨x, 0⟩ (cipherOf dir s (underKeystream k y s)) := by
  induction n generalizing s y x with
  | zero =>
    obtain rfl : s = [] := List.length_eq_zero_iff.mp hs
    cases dir <;> rfl
  | succ n ih =>
    have htake : (s.take 16).length = 16 := by rw [List.length_take]; omega
    have hcipher := cipherOf_block dir k y (s.take 16)
    have hblock : (cipherOf dir (s.take 16) (bytesOfBlock (ctrBlock k y (blockOfBytes (s.take 16))))).length = 16 := by
      cases dir
      · exact bytesOfBlock_length _
      · exact htake
    have hparts : cipherOf dir s (underKeystream k y s) =
        cipherOf dir (s.take 16) (bytesOfBlock (ctrBlock k y (blockOfBytes (s.take 16)))) ++
          cipherOf dir (s.drop 16) (underKeystream k (inc32 y) (s.drop 16)) := by
      rw [underKeystream_block_append k y (by omega), ← cipherOf_append, List.take_append_drop]
    rw [hparts, absorb_append, absorb_block h x _ hblock, hcipher, ← ih _ _ _ (by rw [List.length_drop]; omega)]
    rfl

/-- Settles O28. -/
theorem blocksUseContinuousCounter : Obligations.BlocksUseContinuousCounter := by
  intro dir k h n s y x hs
  exact ⟨blocks_out dir k h n s y x hs, (blocks_y dir k h n s y x).trans (inc32_iterate y n),
    blocks_absorb dir k h n s y x hs⟩

/-! ### The requests -/

/-- Settles O44. -/
theorem ctrBlocksRunsCounterMode : Obligations.CtrBlocksRunsCounterMode := by
  intro s n hs
  have hcount : s.port.ops.s.length / 16 = n := by omega
  simp only [exec_ctrBlocks, execCtrBlocks, if_pos (show s.port.ops.s.length % 16 = 0 by omega), hcount,
    ctrBlocks_eq _ _ _ _ hs, inc32_iterate]
  rfl

/-- A bulk request inside its domain, in the terms of `Blocks` on the blocks it takes. -/
theorem runBulk_of_domain (dir : Dir) {s : State} {n : Nat} (hs : s.port.ops.s.length = 16 * n)
    (hn : n ≤ 2 ^ 32 - (ctrField s.port.ops.y).toNat) :
    let r := blocks dir s.port.ops.roundKeys s.port.ops.hTable (bulkTake s.cfg n)
      (s.port.ops.s.take (16 * bulkTake s.cfg n)) s.port.ops.y s.port.ops.x
    ∃ f, runBulk dir s = .next (s.withResults
      { s.port.res with
        out := r.out, y := counterBlock f (ctrField r.y), x := r.x, consumed := 16 * bulkTake s.cfg n }) := by
  have hdomain : bulkDomain s.port.ops = true := (bulkDomain_iff _).mpr (by omega)
  have hcount : s.port.ops.s.length / 16 = n := by omega
  refine ⟨(bulk s.cfg dir s.port.ops.roundKeys s.port.ops.hTable s.port.ops.s s.port.ops.y s.port.ops.x).fixed, ?_⟩
  simp only [runBulk, hdomain, if_true, bulk, hcount, blocks_take _ _ _ _ _ _ _ (le_refl (16 * bulkTake s.cfg n))]

/-- Settles O45. -/
theorem bulkRequestsProcessBlocks : Obligations.BulkRequestsProcessBlocks := by
  intro dir s n hs hn
  obtain ⟨f, hrun⟩ := runBulk_of_domain dir hs hn
  refine ⟨bulkTake_le s.cfg n, f, _, rfl, ?_⟩
  cases dir with
  | enc => exact hrun
  | dec => exact hrun

end Sys2Proof.Machine
end

section
/-! The streams (45_aad.md R220, 46_data.md R230 to R242): what `AAD`, `ENC` and `DEC` compute by whole blocks is what
their bytes give one by one, and where a stream stands in its keystream. -/

namespace Sys2Proof.Machine

open Sys2Proof Sys2Proof.Spec

/-! ### Absorbing by whole blocks (45_aad.md R220) -/

/-- From a block boundary: whole blocks in one request, and the trailing bytes at offset 0. -/
theorem absorb_whole (hT x : Block) (s : List Byte) :
    absorb hT ⟨x, 0⟩ s =
      ⟨xorBytes (mulRange hT (s.length / 16) (s.take (16 * (s.length / 16))) x) 0 (s.drop (16 * (s.length / 16))),
        BitVec.ofNat 4 (s.drop (16 * (s.length / 16))).length⟩ := by
  have hwhole : (s.take (16 * (s.length / 16))).length = 16 * (s.length / 16) := by
    rw [List.length_take]
    omega
  have htail : (s.drop (16 * (s.length / 16))).length < 16 := by
    rw [List.length_drop]
    omega
  have hpartial := absorb_partial hT (mulRange hT (s.length / 16) (s.take (16 * (s.length / 16))) x) 0 _
    ((Nat.zero_add _).trans_lt htail)
  rw [Nat.zero_add] at hpartial
  rw [← hpartial]
  conv_lhs => rw [← List.take_append_drop (16 * (s.length / 16)) s]
  rw [absorb_append, absorb_blocks hT _ x _ hwhole]
  rfl

/-- The context `AAD` leaves, in the terms of the bytes one by one. -/
theorem aadContext_eq (a : List Byte) (c : Context) :
    aadContext a c =
      { c with
        aadLenBits := BitVec.ofNat 64 (c.aadLenBits.toNat + 8 * a.length),
        x := (absorb c.hTable ⟨c.x, c.aadResidue⟩ a).x,
        aadResidue := (absorb c.hTable ⟨c.x, c.aadResidue⟩ a).residue } := by
  obtain ⟨used, ha, hused, hstop⟩ := aadFill_spec c.hTable a c.x c.aadResidue
  unfold aadContext
  generalize aadFill c.hTable a c.x c.aadResidue = f at ha hused hstop
  have habsorb : absorb c.hTable ⟨c.x, c.aadResidue⟩ a = absorb c.hTable ⟨f.x, f.residue⟩ f.rest := by
    rw [ha, absorb_append, hused]
  have hrequest : (if 0 < f.rest.length / 16 then
      mulRange c.hTable (f.rest.length / 16) (f.rest.take (16 * (f.rest.length / 16))) f.x else f.x) =
      mulRange c.hTable (f.rest.length / 16) (f.rest.take (16 * (f.rest.length / 16))) f.x := by
    split
    case isTrue => rfl
    case isFalse hnone => rw [Nat.eq_zero_of_not_pos hnone, mulRange]
  simp only [habsorb, hrequest]
  obtain hrest | hresidue := hstop
  · simp [hrest, mulRange, xorBytes]
  · rw [hresidue, absorb_whole]
    congr 1
    split
    case isTrue htail =>
      rw [htail]
      rfl
    case isFalse => rfl

/-! ### Streams that agree where it matters (10_state.md R23) -/

/-- Two streams are in the same place: alike but for the keystream block of a stream that has no block open. -/
def Stream.agree (a b : Stream) : Prop := a.y = b.y ∧ a.acc = b.acc ∧ (b.acc.residue ≠ 0 → a.eki = b.eki)

theorem Stream.agree_refl (a : Stream) : a.agree a := ⟨rfl, rfl, fun _ => rfl⟩

theorem Stream.agree_symm {a b : Stream} (h : a.agree b) : b.agree a := by
  obtain ⟨hy, hacc, heki⟩ := h
  exact ⟨hy.symm, hacc.symm, fun hopen => (heki (by rwa [hacc] at hopen)).symm⟩

theorem Stream.agree_trans {a b c : Stream} (h : a.agree b) (h' : b.agree c) : a.agree c := by
  obtain ⟨hy, hacc, heki⟩ := h
  obtain ⟨hy', hacc', heki'⟩ := h'
  exact ⟨hy.trans hy', hacc.trans hacc', fun hopen => (heki (by rwa [hacc'])).trans (heki' hopen)⟩

/-- A byte takes two streams in the same place to the same place, and to the same output. -/
theorem streamByte_of_agree (dir : Dir) (k : RoundKeys) (hT : Block) {a b : Stream} (h : a.agree b) (c : Byte) :
    streamByte dir k hT a c = streamByte dir k hT b c := by
  obtain ⟨hy, hacc, heki⟩ := h
  unfold streamByte
  rw [hy, hacc]
  by_cases hopen : b.acc.residue = 0
  · simp only [hopen, if_true]
  · simp only [hopen, if_false, heki hopen]

theorem streamBytes_of_agree (dir : Dir) (k : RoundKeys) (hT : Block) {a b : Stream} (h : a.agree b) (d : List Byte) :
    (streamBytes dir k hT a d).1 = (streamBytes dir k hT b d).1 ∧
      (streamBytes dir k hT a d).2.agree (streamBytes dir k hT b d).2 := by
  cases d with
  | nil => exact ⟨rfl, h⟩
  | cons c d =>
    rw [streamBytes_cons, streamBytes_cons, streamByte_of_agree dir k hT h c]
    exact ⟨rfl, Stream.agree_refl _⟩

/-! ### The accumulator of a stream -/

/-- A stream absorbs its ciphertext. -/
theorem streamBytes_acc (dir : Dir) (k : RoundKeys) (hT : Block) (st : Stream) (d : List Byte) :
    (streamBytes dir k hT st d).2.acc = absorb hT st.acc (cipherOf dir d (streamBytes dir k hT st d).1) := by
  induction d generalizing st with
  | nil => cases dir <;> rfl
  | cons b d ih =>
    rw [streamBytes_cons, ih]
    cases dir <;> rfl

/-- Decrypting undoes encrypting byte by byte: the same keystream, and the same ciphertext absorbed. -/
theorem streamByte_dec_enc (k : RoundKeys) (hT : Block) (st : Stream) (b : Byte) :
    streamByte .dec k hT st (streamByte .enc k hT st b).1 = (b, (streamByte .enc k hT st b).2) := by
  simp only [streamByte, cipherOf, BitVec.xor_assoc, BitVec.xor_self, BitVec.xor_zero]

theorem streamBytes_dec_enc (k : RoundKeys) (hT : Block) (st : Stream) (d : List Byte) :
    streamBytes .dec k hT st (streamBytes .enc k hT st d).1 = (d, (streamBytes .enc k hT st d).2) := by
  induction d generalizing st with
  | nil => rfl
  | cons b d ih =>
    rw [streamBytes_cons, streamBytes_cons]
    simp only [streamByte_dec_enc, ih]

/-! ### The place of a stream in its keystream (46_data.md R242) -/

/-- The stream stands at byte `p` of the keystream from counter block `y` on: so many bytes of its block are used, the
counter value after the last block begun is the next one, and an open block is that of byte `p`. -/
def StreamAt (k : RoundKeys) (y : Block) (p : Nat) (st : Stream) : Prop :=
  st.acc.residue = BitVec.ofNat 4 p ∧ st.y = advance y ((p + 15) / 16) ∧
    (p % 16 ≠ 0 → st.eki = encryptBlock k (advance y (p / 16)))

theorem advance_zero (y : Block) : advance y 0 = y := (inc32_iterate y 0).symm

theorem inc32_advance (y : Block) (n : Nat) : inc32 (advance y n) = advance y (n + 1) := by
  rw [← inc32_iterate, ← inc32_iterate, Function.iterate_succ_apply']

theorem residue_eq_zero_iff (p : Nat) : BitVec.ofNat 4 p = 0 ↔ p % 16 = 0 := by
  rw [← BitVec.toNat_inj, BitVec.toNat_ofNat]
  rfl

/-- At a block boundary a stream stands at byte 0 of the keystream from its counter block on. -/
theorem streamAt_zero (k : RoundKeys) (y eki x : Block) : StreamAt k y 0 ⟨y, eki, ⟨x, 0⟩⟩ :=
  ⟨rfl, (advance_zero y).symm, fun h => absurd rfl h⟩

/-- One byte goes under the keystream byte at the stream's place, and takes the stream to the next place. -/
theorem streamByte_at {k : RoundKeys} {y : Block} {p : Nat} {st : Stream} (dir : Dir) (hT : Block)
    (h : StreamAt k y p st) (b : Byte) :
    (streamByte dir k hT st b).1 = b ^^^ keystreamByte k y p ∧ StreamAt k y (p + 1) (streamByte dir k hT st b).2 := by
  obtain ⟨hres, hy, heki⟩ := h
  have hindex : st.acc.residue.toNat = p % 16 := by rw [hres, BitVec.toNat_ofNat]
  have hnext : st.acc.residue + 1 = BitVec.ofNat 4 (p + 1) := by
    rw [hres, BitVec.ofNat_add]
    rfl
  have hzero := residue_eq_zero_iff p
  rw [← hres] at hzero
  by_cases hp : p % 16 = 0
  · have hblock : (p + 15) / 16 = p / 16 := by omega
    simp only [streamByte, hzero.mpr hp, if_true]
    refine ⟨?_, hnext, ?_, fun _ => ?_⟩
    · rw [hy, hblock, keystreamByte, hp]
      rfl
    · rw [hy, hblock, inc32_advance]
      exact congrArg (advance y) (by omega)
    · rw [hy, hblock]
      exact congrArg (fun n => encryptBlock k (advance y n)) (by omega)
  · simp only [streamByte, mt hzero.mp hp, if_false]
    refine ⟨?_, hnext, ?_, fun _ => ?_⟩
    · rw [heki hp, hindex]
      rfl
    · rw [hy]
      exact congrArg (advance y) (by omega)
    · rw [heki hp]
      exact congrArg (fun n => encryptBlock k (advance y n)) (by omega)

/-- A string under the keystream from the stream's place on. -/
theorem streamBytes_at {k : RoundKeys} {y : Block} {p : Nat} {st : Stream} (dir : Dir) (hT : Block)
    (h : StreamAt k y p st) (d : List Byte) :
    (streamBytes dir k hT st d).1 = d.mapIdx (fun j b => b ^^^ keystreamByte k y (p + j)) ∧
      StreamAt k y (p + d.length) (streamBytes dir k hT st d).2 := by
  induction d generalizing p st with
  | nil => exact ⟨rfl, h⟩
  | cons b d ih =>
    obtain ⟨hout, hplace⟩ := streamByte_at dir hT h b
    obtain ⟨hrest, hend⟩ := ih hplace
    rw [streamBytes_cons, List.length_cons, List.mapIdx_cons, ← Nat.succ_add_eq_add_succ]
    refine ⟨?_, hend⟩
    rw [hout, hrest]
    simp only [Nat.add_zero, Nat.succ_add_eq_add_succ, Nat.succ_eq_add_one]

/-! ### Steps B to E of a data command (46_data.md R233 to R239) -/

/-- Whole blocks byte by byte are `Blocks`; the keystream block left is of no use any more. -/
theorem streamBytes_blocks (dir : Dir) (k : RoundKeys) (hT y eki x : Block) (n : Nat) {s : List Byte}
    (hs : s.length = 16 * n) :
    ∃ e, streamBytes dir k hT ⟨y, eki, ⟨x, 0⟩⟩ s =
      ((blocks dir k hT n s y x).out,
        ⟨(blocks dir k hT n s y x).y, e, ⟨(blocks dir k hT n s y x).x, 0⟩⟩) := by
  obtain ⟨hout, hplace⟩ := streamBytes_at dir hT (streamAt_zero k y eki x) s
  obtain ⟨-, hy, -⟩ := hplace
  have hacc := streamBytes_acc dir k hT ⟨y, eki, ⟨x, 0⟩⟩ s
  have hunder : (streamBytes dir k hT ⟨y, eki, ⟨x, 0⟩⟩ s).1 = underKeystream k y s := by
    rw [hout]
    simp only [Nat.zero_add]
    rfl
  rw [hunder, ← blocks_absorb dir k hT n s y x hs] at hacc
  have hcount : (0 + s.length + 15) / 16 = n := by omega
  rw [hcount] at hy
  refine ⟨(streamBytes dir k hT ⟨y, eki, ⟨x, 0⟩⟩ s).2.eki, ?_⟩
  rw [blocks_out dir k hT n s y x hs, ← hunder, blocks_y, inc32_iterate, ← hy, ← hacc]

/-- From a block boundary: the whole blocks by `Blocks`, then the trailing bytes. -/
theorem streamBytes_whole (dir : Dir) (k : RoundKeys) (hT y eki x : Block) (s : List Byte) :
    let w := blocks dir k hT (s.length / 16) (s.take (16 * (s.length / 16))) y x
    ∃ e, streamBytes dir k hT ⟨y, eki, ⟨x, 0⟩⟩ s =
      (w.out ++ (streamBytes dir k hT ⟨w.y, e, ⟨w.x, 0⟩⟩ (s.drop (16 * (s.length / 16)))).1,
        (streamBytes dir k hT ⟨w.y, e, ⟨w.x, 0⟩⟩ (s.drop (16 * (s.length / 16)))).2) := by
  obtain ⟨e, hblocks⟩ := streamBytes_blocks dir k hT y eki x (s.length / 16)
    (s := s.take (16 * (s.length / 16))) (by rw [List.length_take]; omega)
  refine ⟨e, ?_⟩
  conv_lhs => rw [← List.take_append_drop (16 * (s.length / 16)) s]
  rw [streamBytes_append, hblocks]

/-- The registers of the stream that a data command leaves. -/
def DataResult.stream (r : DataResult) : Stream := ⟨r.y, r.eki, ⟨r.x, r.residue⟩⟩

/-- Steps B to E write what the bytes give one by one, and leave the stream in the place they take it to. -/
theorem dataCompute_eq (cfg : Config) (dir : Dir) (d : List Byte) (c : Context) :
    (dataCompute cfg dir d c).out = (streamBytes dir c.roundKeys c.hTable (streamStart c) d).1 ∧
      (dataCompute cfg dir d c).stream.agree (streamBytes dir c.roundKeys c.hTable (streamStart c) d).2 := by
  obtain ⟨used, hd, hused, hstop⟩ := headPartial_spec dir c.roundKeys c.hTable c.y c.eki d (closeAad c) c.dataResidue
  unfold dataCompute
  generalize headPartial dir c.hTable c.eki d (closeAad c) c.dataResidue = f at hd hused hstop
  have hstream : streamBytes dir c.roundKeys c.hTable (streamStart c) d =
      (f.out ++ (streamBytes dir c.roundKeys c.hTable ⟨c.y, c.eki, ⟨f.x, f.residue⟩⟩ f.rest).1,
        (streamBytes dir c.roundKeys c.hTable ⟨c.y, c.eki, ⟨f.x, f.residue⟩⟩ f.rest).2) := by
    rw [streamStart, hd, streamBytes_append, hused]
  rw [hstream]
  have hwhole : (f.rest.take (16 * (f.rest.length / 16))).length = 16 * (f.rest.length / 16) := by
    rw [List.length_take]
    omega
  simp only [dispatcherComputesBlocks cfg dir c.roundKeys c.hTable _ _ c.y f.x hwhole]
  obtain hrest | hresidue := hstop
  · simp [hrest, blocks, tailPartial, DataResult.stream, Stream.agree]
  · obtain ⟨e, hparts⟩ := streamBytes_whole dir c.roundKeys c.hTable c.y c.eki f.x f.rest
    rw [hresidue, hparts]
    generalize blocks dir c.roundKeys c.hTable _ _ c.y f.x = w
    by_cases htail : f.rest.drop (16 * (f.rest.length / 16)) = []
    · simp [htail, tailPartial, DataResult.stream, Stream.agree]
    · rw [streamBytes_tail dir c.roundKeys c.hTable _ _ _ _ htail (by rw [List.length_drop]; omega)]
      simp [htail, tailPartial, DataResult.stream, Stream.agree]

/-- A data command writes as many bytes as it reads. -/
theorem dataCompute_out_length (cfg : Config) (dir : Dir) (d : List Byte) (c : Context) :
    (dataCompute cfg dir d c).out.length = d.length := by
  rw [(dataCompute_eq cfg dir d c).1, streamBytes_length]

end Sys2Proof.Machine
end

section
/-! What a command does (43_sequencing.md R190): the checks as one function of the state, and what a body leaves as a
function of the input bytes and the context. -/

namespace Sys2Proof.Machine

open Sys2Proof Sys2Proof.Spec

/-! ### The checks as one -/

/-- What the checks of a command find: the body may run and leaves a phase, an error is reported, or the platform has
admitted a range over the block's own window. -/
inductive Verdict where
  | pass (p : Phase)
  | reject (e : ErrCode)
  | stop

/-- Steps 2 to 5 of a command (43_sequencing.md R190). -/
def verdict (c : Command) (s : State) : Verdict :=
  match phaseTable c s.phase with
  | none => .reject .protocolOrderError
  | some p =>
    match lengthError c s with
    | some e => .reject e
    | none =>
      if accessDenied c s then .reject .accessError
      else if touchesWindow c s then .stop
      else .pass p

/-- What a command answers after its checks. -/
def Verdict.outcome (body : Phase → State → State) (s : State) : Verdict → Host.Outcome State Fault Refusal
  | .pass p => .next (body p s)
  | .reject e => .next (s.raise e)
  | .stop => .refused .ownWindowRange

/-- A command is its body under the verdict of its checks. -/
theorem exec_eq_outcome (c : Command) (s : State) : exec c.instr s = (verdict c s).outcome (commandBody c) s := by
  rw [exec_command, runCommand, verdict]
  cases phaseTable c s.phase with
  | none => rfl
  | some p =>
    cases lengthError c s with
    | some e => rfl
    | none => cases accessDenied c s <;> cases touchesWindow c s <;> rfl

/-- The checks pass when the phase admits the command, its length is in order, and its ranges can be used. -/
theorem verdict_eq_pass_iff (c : Command) (s : State) (p : Phase) :
    verdict c s = .pass p ↔
      phaseTable c s.phase = some p ∧ lengthError c s = none ∧ (∀ g ∈ commandRanges c s, usable s.cfg g) ∧
        illegalOverlap c s = false := by
  rw [← memory_checks_pass, verdict]
  cases phaseTable c s.phase with
  | none => simp
  | some q =>
    cases lengthError c s with
    | some e => simp
    | none => cases accessDenied c s <;> cases touchesWindow c s <;> simp

/-- A command whose checks pass runs its body. -/
theorem exec_of_pass {c : Command} {s : State} {p : Phase} (h : verdict c s = .pass p) :
    exec c.instr s = .next (commandBody c p s) := by
  rw [exec_eq_outcome, h]
  rfl

theorem exec_of_reject {c : Command} {s : State} {e : ErrCode} (h : verdict c s = .reject e) :
    exec c.instr s = .next (s.raise e) := by
  rw [exec_eq_outcome, h]
  rfl

/-- The two ways a command answers a next state. -/
theorem exec_command_next {c : Command} {s t : State} (h : exec c.instr s = .next t) :
    (∃ e, verdict c s = .reject e ∧ t = s.raise e) ∨ ∃ p, verdict c s = .pass p ∧ t = commandBody c p s := by
  rw [exec_eq_outcome] at h
  cases hv : verdict c s with
  | pass p =>
    rw [hv] at h
    cases h
    exact .inr ⟨p, rfl, rfl⟩
  | reject e =>
    rw [hv] at h
    cases h
    exact .inl ⟨e, rfl, rfl⟩
  | stop =>
    rw [hv] at h
    cases h

/-! ### The codes of the checks (60_exceptions.md R281) -/

theorem lengthError_mem_reportable {c : Command} {s : State} {e : ErrCode} (h : lengthError c s = some e) :
    e ∈ reportable c := by
  cases c with
  | finish => cases h
  | init | setiv =>
    obtain ⟨-, ⟨⟩⟩ := Option.ite_none_left_eq_some.1 h
    decide
  | aad | enc | dec | verify =>
    obtain ⟨-, ⟨⟩⟩ := Option.ite_none_right_eq_some.1 h
    decide

theorem accessError_mem_reportable (c : Command) : .accessError ∈ reportable c := by
  cases c <;> decide

/-- The order error is listed for every command but `INIT`, which every phase admits. -/
theorem protocolOrderError_mem_reportable {c : Command} {p : Phase} (h : phaseTable c p = none) :
    .protocolOrderError ∈ reportable c := by
  cases c with
  | init => cases h
  | setiv | aad | enc | dec | finish | verify => decide

/-- A check reports a listed code, and neither `OK` nor the code of the comparison of `VERIFY`. -/
theorem verdict_reject {c : Command} {s : State} {e : ErrCode} (h : verdict c s = .reject e) :
    e ∈ reportable c ∧ e ≠ .ok ∧ e ≠ .authenticationFailure := by
  unfold verdict at h
  split at h
  case h_1 horder =>
    cases h
    exact ⟨protocolOrderError_mem_reportable horder, by decide, by decide⟩
  case h_2 =>
    split at h
    case h_1 hlength =>
      cases h
      have hcode := lengthError_mem hlength
      exact ⟨lengthError_mem_reportable hlength, by rintro rfl; simp at hcode, by rintro rfl; simp at hcode⟩
    case h_2 =>
      split at h
      · cases h
        exact ⟨accessError_mem_reportable c, by decide, by decide⟩
      · split at h <;> cases h

/-! ### What a body leaves -/

/-- The bytes a command reads (20_memory.md R63). -/
def commandInput (c : Command) (s : State) : List Byte := inputBytes s (readLength c s)

/-- The context a command's body leaves on its input. -/
def commandContext (c : Command) (cfg : Config) (d : List Byte) (x : Context) : Context :=
  match c with
  | .init => initContext d x
  | .setiv => setivContext d x
  | .aad => aadContext d x
  | .enc => dataContext d.length (dataCompute cfg .enc d x) x
  | .dec => dataContext d.length (dataCompute cfg .dec d x) x
  | .finish | .verify => { x with x := finalX x }

/-- The bytes a command's body writes at `DST`. -/
def commandOutput (c : Command) (cfg : Config) (d : List Byte) (x : Context) : List Byte :=
  match c with
  | .enc => (dataCompute cfg .enc d x).out
  | .dec => (dataCompute cfg .dec d x).out
  | .finish => bytesOfBlock (tagOf x)
  | .init | .setiv | .aad | .verify => []

/-- `STATUS.ERR` as a command's body leaves it. -/
def commandErr (c : Command) (d : List Byte) (x : Context) : ErrCode :=
  match c with
  | .verify => if tagDiff (tagOf x) d = 0 then .ok else .authenticationFailure
  | .init | .setiv | .aad | .enc | .dec | .finish => .ok

/-- `STATUS.MATCH` as a command's body leaves it. -/
def commandMatched (c : Command) (d : List Byte) (x : Context) : Bool :=
  match c with
  | .verify => decide (tagDiff (tagOf x) d = 0)
  | .init | .setiv | .aad | .enc | .dec | .finish => false

@[simp] theorem commandInput_length (c : Command) (s : State) : (commandInput c s).length = readLength c s :=
  Memory.readBytes_length ..

/-- The report of `VERIFY`, as the two fields it writes. -/
theorem verifyReport_eq (d : Byte) (s : State) :
    verifyReport d s =
      s.withStatus (if d = 0 then .ok else .authenticationFailure) (decide (d = 0)) := by
  unfold verifyReport
  split
  case isTrue h => rw [decide_eq_true h]
  case isFalse h => rw [decide_eq_false h]

/-- All that a command's body changes: `STATUS`, `PHASE`, the context and its output range; and of the data memory it
reads its input alone. -/
theorem commandBody_eq (c : Command) (p : Phase) (s : State) :
    commandBody c p s =
      { s with
        phase := p, err := commandErr c (commandInput c s) s.ctx, matched := commandMatched c (commandInput c s) s.ctx,
        ctx := commandContext c s.cfg (commandInput c s) s.ctx,
        mem := s.mem.writeBytes s.dst.toNat (commandOutput c s.cfg (commandInput c s) s.ctx) } := by
  cases c with
  | init | setiv | aad => rfl
  | enc | dec =>
    simp only [commandContext, commandOutput, commandInput_length]
    rfl
  | finish =>
    simp only [commandContext, commandOutput]
    exact finishBody_eq p s
  | verify =>
    simp only [commandBody, verifyBody, verifyReport_eq]
    rfl

theorem commandOutput_length (c : Command) (s : State) :
    (commandOutput c s.cfg (commandInput c s) s.ctx).length = writeLength c s := by
  cases c with
  | init | setiv | aad | verify => rfl
  | enc | dec => exact (dataCompute_out_length ..).trans (commandInput_length ..)
  | finish => exact bytesOfBlock_length _

theorem commandErr_of_ne_verify {c : Command} (h : c ≠ .verify) (d : List Byte) (x : Context) :
    commandErr c d x = .ok := by
  cases c with
  | verify => exact absurd rfl h
  | init | setiv | aad | enc | dec | finish => rfl

theorem commandMatched_iff (c : Command) (d : List Byte) (x : Context) :
    commandMatched c d x = true ↔ c = .verify ∧ commandErr c d x = .ok := by
  cases c with
  | verify => simp [commandMatched, commandErr]
  | init | setiv | aad | enc | dec | finish => simp [commandMatched]

/-- An accepted command has passed its checks. -/
theorem pass_of_ok {c : Command} {s t : State} (h : exec c.instr s = .next t) (hok : t.err = .ok) :
    ∃ p, verdict c s = .pass p ∧ t = commandBody c p s := by
  obtain ⟨e, hv, rfl⟩ | hpass := exec_command_next h
  · exact absurd hok (verdict_reject hv).2.1
  · exact hpass

/-! ### The frame of an instruction -/

theorem instr_of_commandOfInstr {i : Instr} {c : Command} (h : commandOfInstr i = some c) : c.instr = i := by
  cases i <;> cases h <;> rfl

/-- No instruction writes `SRC`, `DST`, `LEN`, the parameters, or what belongs to the host. -/
theorem exec_frame {i : Instr} {s t : State} (h : exec i s = .next t) :
    t = { s with
      phase := t.phase, err := t.err, matched := t.matched, ctx := t.ctx, mem := t.mem,
      port := { s.port with res := t.port.res } } := by
  have hcommand {c : Command} (h : exec c.instr s = .next t) :
      t = { s with phase := t.phase, err := t.err, matched := t.matched, ctx := t.ctx, mem := t.mem } := by
    obtain ⟨e, -, rfl⟩ | ⟨p, -, rfl⟩ := exec_command_next h
    · rfl
    · rw [commandBody_eq]
  have hrequest (hi : commandOfInstr i = none) : t = { s with port := { s.port with res := t.port.res } } := by
    obtain ⟨r, rfl⟩ := exec_request_next hi h
    rfl
  cases hi : commandOfInstr i with
  | none => rw [hrequest hi]
  | some c =>
    obtain rfl := instr_of_commandOfInstr hi
    rw [hcommand h]

end Sys2Proof.Machine
end

section
/-! The checks of the commands (43_sequencing.md R190, 60_exceptions.md R281, R283): what each check reports, in which
order, and what a report leaves alone. -/

namespace Sys2Proof.Machine

open Sys2Proof Sys2Proof.Spec

/-! ### The phases (43_sequencing.md R195) -/

theorem phaseTable_init (p : Phase) : phaseTable .init p = some .keyed := rfl

theorem phaseTable_setiv {p : Phase} (h : p ≠ .reset) : phaseTable .setiv p = some .aad := by
  cases p with
  | reset => exact absurd rfl h
  | keyed | aad | enc | dec | done => rfl

theorem phaseTable_verify {p : Phase} (h : p.inSession = true) : phaseTable .verify p = some .done := by
  cases p with
  | reset | keyed | done => cases h
  | aad | enc | dec => rfl

/-! ### The lengths (43_sequencing.md R190 step 3) -/

/-- A command stopped by step 3 reports the code of its length check. -/
theorem verdict_of_lengthError {c : Command} {s : State} {p : Phase} {e : ErrCode}
    (hp : phaseTable c s.phase = some p) (hl : lengthError c s = some e) : verdict c s = .reject e := by
  simp only [verdict, hp, hl]

theorem lengthError_init_eq_none_iff (s : State) :
    lengthError .init s = none ↔ s.len.toNat = 16 ∨ s.len.toNat = 24 ∨ s.len.toNat = 32 := by
  rw [lengthError, ite_eq_left_iff, ← keyLength_iff]
  simp

theorem lengthError_setiv_eq_none_iff (s : State) : lengthError .setiv s = none ↔ s.len.toNat = 12 := by
  rw [lengthError, ite_eq_left_iff]
  simp

theorem lengthError_aad_eq_none_iff (s : State) :
    lengthError .aad s = none ↔ s.ctx.aadLenBits.toNat + 8 * s.len.toNat ≤ s.cfg.aadMaxBits.toNat := by
  rw [lengthError, ite_eq_right_iff, aadTooLong_iff]
  simp

theorem lengthError_verify_eq_none_iff (s : State) :
    lengthError .verify s = none ↔ 1 ≤ s.len.toNat ∧ s.len.toNat ≤ 16 := by
  rw [lengthError, ite_eq_right_iff]
  simp only [reduceCtorEq, imp_false]
  omega

/-- Settles O8: in an admitted phase the length is the next check, whatever the ranges are. -/
theorem lengthChecksReported : Obligations.LengthChecksReported := by
  intro s
  have hdata (dir : Dir) (hphase : s.phase = .aad ∨ s.phase = dir.phase)
      (hlong : s.cfg.dataMaxBits.toNat < s.ctx.dataLenBits.toNat + 8 * s.len.toNat) :
      exec dir.command.instr s = .next (s.raise .lengthLimitExceeded) := by
    have hlength : lengthError dir.command s = some .lengthLimitExceeded := by
      cases dir <;> exact if_pos ((dataTooLong_iff s).mpr hlong)
    exact exec_of_reject (verdict_of_lengthError (phaseTable_data hphase) hlength)
  refine ⟨fun hkey => ?_, fun hphase hiv => ?_, fun hphase hlong => ?_, hdata .enc, hdata .dec, fun hphase htag => ?_⟩
  · exact exec_of_reject (c := .init) (verdict_of_lengthError (phaseTable_init _)
      (if_neg (by rwa [keyLength_iff])))
  · exact exec_of_reject (c := .setiv) (verdict_of_lengthError (phaseTable_setiv hphase) (if_neg hiv))
  · exact exec_of_reject (c := .aad) (verdict_of_lengthError (p := .aad) (by rw [hphase]; rfl)
      (if_pos ((aadTooLong_iff s).mpr hlong)))
  · exact exec_of_reject (c := .verify) (verdict_of_lengthError (phaseTable_verify hphase) (if_pos htag))

/-! ### The ranges (20_memory.md R63 to R68) -/

theorem rangeAdmitted_iff (cfg : Config) (g : Range) :
    rangeAdmitted cfg g = true ↔ g.len = 0 ∨ (g.addr + g.len ≤ 2 ^ 64 ∧ platformAdmits cfg g = true) := by
  simp only [rangeAdmitted, Bool.or_eq_true, Bool.and_eq_true, decide_eq_true_eq]

/-- The ranges the model checks are those of 20_memory.md R63, which has an empty one where a command has none. -/
theorem mem_commandRanges {c : Command} {s : State} {g : Range} (hg : g ∈ ranges c s) (hlen : g.len ≠ 0) :
    g ∈ commandRanges c s := by
  rw [ranges, List.mem_pair] at hg
  cases c with
  | init | setiv | aad | verify =>
    obtain rfl | rfl := hg
    · exact List.mem_singleton_self _
    · exact absurd rfl hlen
  | enc | dec => exact List.mem_pair.mpr hg
  | finish =>
    obtain rfl | rfl := hg
    · exact absurd rfl hlen
    · exact List.mem_singleton_self _

theorem mem_ranges {c : Command} {s : State} {g : Range} (hg : g ∈ commandRanges c s) : g ∈ ranges c s := by
  rw [ranges, List.mem_pair]
  cases c with
  | init | setiv | aad | verify => exact .inl (List.mem_singleton.mp hg)
  | enc | dec => exact List.mem_pair.mp hg
  | finish => exact .inr (List.mem_singleton.mp hg)

/-- Settles O9: the range is one that the model checks, and step 4 denies it. -/
theorem unadmittedRangesRejected : Obligations.UnadmittedRangesRejected := by
  intro c s p g hphase hlength hg hlen hbad
  rw [sequencing_eq_phaseTable] at hphase
  have hdenied : rangeAdmitted s.cfg g = false := by
    rw [Bool.eq_false_iff, ne_eq, rangeAdmitted_iff]
    rintro (hempty | ⟨hfits, hadmits⟩)
    · exact hlen hempty
    · obtain hwraps | hrefused := hbad
      · omega
      · exact Bool.eq_false_iff.mp hrefused hadmits
  have haccess : accessDenied c s = true := by
    rw [accessDenied, Bool.or_eq_true, List.any_eq_true]
    exact .inl ⟨g, mem_commandRanges hg hlen, by rw [hdenied, Bool.not_false]⟩
  rw [exec_command]
  exact runCommand_of_accessDenied hphase hlength haccess

theorem illegalOverlap_eq_false {c : Command} {s : State} (h : c = .enc ∨ c = .dec → identicalOrDisjoint s) :
    illegalOverlap c s = false := by
  cases c with
  | enc => exact (partialOverlap_eq_false s).mpr (.inr (h (.inl rfl)))
  | dec => exact (partialOverlap_eq_false s).mpr (.inr (h (.inr rfl)))
  | init | setiv | aad | finish | verify => rfl

/-- Settles O11: step 4 passes, and the range is one that covers the window (log 7). -/
theorem ownWindowRangeStops : Obligations.OwnWindowRangeStops := by
  intro c s p g hphase hlength hadmitted hoverlap hg hlen hbelow habove
  rw [sequencing_eq_phaseTable] at hphase
  have haccess : accessDenied c s = false := by
    rw [accessDenied, Bool.or_eq_false_iff, List.any_eq_false]
    refine ⟨fun g' hg' => ?_, illegalOverlap_eq_false hoverlap⟩
    rw [(rangeAdmitted_iff s.cfg g').mpr (hadmitted g' (mem_ranges hg'))]
    decide
  have hwindow : touchesWindow c s = true := by
    rw [touchesWindow, List.any_eq_true]
    refine ⟨g, mem_commandRanges hg hlen, ?_⟩
    rw [coversWindow, decide_eq_true hlen, decide_eq_true hbelow, decide_eq_true habove]
    rfl
  have hstop : verdict c s = .stop := by
    simp only [verdict, hphase, hlength, haccess, hwindow, if_true, Bool.false_eq_true, if_false]
  rw [exec_eq_outcome, hstop]
  rfl

/-! ### What the checks do not read -/

/-- The checks read no data memory. -/
theorem verdict_withMem (c : Command) (s : State) (m : Memory) : verdict c (s.withMem m) = verdict c s := by
  cases c <;> rfl

/-- The checks do not read `STATUS.ERR` and `STATUS.MATCH`. -/
theorem verdict_withStatus (c : Command) (s : State) (e : ErrCode) (m : Bool) :
    verdict c (s.withStatus e m) = verdict c s := by
  cases c <;> rfl

/-- Settles O12: such a code is a check's, and the checks read no data memory. -/
theorem rejectionChangesOnlyStatus : Obligations.RejectionChangesOnlyStatus := by
  intro c s t hnext hok hfailed m
  obtain ⟨e, hreject, rfl⟩ | ⟨p, -, rfl⟩ := exec_command_next hnext
  · exact exec_of_reject ((verdict_withMem c s m).trans hreject)
  · obtain h | h := commandBody_err c p s
    · exact absurd h hok
    · exact absurd h hfailed

/-- The failed comparison is `VERIFY`'s, which has its code listed. -/
theorem commandBody_err_mem (c : Command) (p : Phase) (s : State) :
    (commandBody c p s).err = .ok ∨ (commandBody c p s).err ∈ reportable c := by
  rw [commandBody_eq]
  by_cases hc : c = .verify
  · obtain rfl := hc
    obtain h | h := commandBody_err .verify p s
    · rw [commandBody_eq] at h
      exact .inl h
    · rw [commandBody_eq] at h
      exact .inr (by rw [h]; decide)
  · exact .inl (commandErr_of_ne_verify hc _ _)

/-- Settles O13. -/
theorem onlyListedCodesReported : Obligations.OnlyListedCodesReported := by
  constructor
  · intro c s t hnext
    obtain ⟨e, hreject, rfl⟩ | ⟨p, -, rfl⟩ := exec_command_next hnext
    · exact .inr (verdict_reject hreject).1
    · exact commandBody_err_mem c p s
  · intro i s t hi hnext
    obtain ⟨r, rfl⟩ := exec_request_next hi hnext
    rfl

/-- Settles O14: neither the checks nor the body read them, and both write them. -/
theorem flagsNotRead : Obligations.FlagsNotRead := by
  intro c s e m
  change exec c.instr (s.withStatus e m) = _
  rw [exec_eq_outcome, exec_eq_outcome, verdict_withStatus]
  cases verdict c s with
  | pass p =>
    rw [Verdict.outcome, Verdict.outcome, commandBody_eq, commandBody_eq c p s]
    rfl
  | reject e' => rfl
  | stop => rfl

/-- Settles O15. -/
theorem matchOnlyAfterVerify : Obligations.MatchOnlyAfterVerify := by
  intro c s t hnext
  obtain ⟨e, hreject, rfl⟩ | ⟨p, -, rfl⟩ := exec_command_next hnext
  · have hok := (verdict_reject hreject).2.1
    simp [hok]
  · rw [commandBody_eq]
    exact commandMatched_iff c _ _

/-! ### The frames -/

/-- Settles O16: the frame of an instruction, and the six halves. -/
theorem operandRegistersKept : Obligations.OperandRegistersKept := by
  constructor
  · intro i s t hnext
    rw [exec_frame hnext]
    exact ⟨rfl, rfl, rfl⟩
  · intro s es v
    exact ⟨fun h => step_write_reg (r := .srcLo) h rfl (by decide),
      fun h => step_write_reg (r := .srcHi) h rfl (by decide),
      fun h => step_write_reg (r := .dstLo) h rfl (by decide),
      fun h => step_write_reg (r := .dstHi) h rfl (by decide),
      fun h => step_write_reg (r := .lenLo) h rfl (by decide),
      fun h => step_write_reg (r := .lenHi) h rfl (by decide)⟩

/-- Settles O53: the output is as long as the output range. -/
theorem commandsWriteOnlyTheirOutput : Obligations.CommandsWriteOnlyTheirOutput := by
  intro c s t a hwf hnext houtside
  obtain ⟨e, -, rfl⟩ | ⟨p, -, rfl⟩ := exec_command_next hnext
  · rfl
  · rw [commandBody_eq]
    simp only [Memory.read_writeBytes _ _ _ _ hwf.1, commandOutput_length, if_neg houtside]

/-- Settles O54: a body is a function of its input bytes, and the checks read none. -/
theorem commandsReadOnlyTheirInput : Obligations.CommandsReadOnlyTheirInput := by
  intro c s t m hsame hnext
  have hinput : commandInput c (s.withMem m) = commandInput c s := Memory.readBytes_congr _ _ hsame
  obtain ⟨e, hreject, rfl⟩ | ⟨p, hpass, rfl⟩ := exec_command_next hnext
  · exact ⟨[], rfl, exec_of_reject ((verdict_withMem c s m).trans hreject)⟩
  · refine ⟨commandOutput c s.cfg (commandInput c s) s.ctx, by rw [commandBody_eq], ?_⟩
    have hrun : exec c.instr (s.withMem m) = .next (commandBody c p (s.withMem m)) :=
      exec_of_pass ((verdict_withMem c s m).trans hpass)
    rw [commandBody_eq, hinput] at hrun
    rw [commandBody_eq]
    exact hrun

end Sys2Proof.Machine
end

section
/-! The commands that pass their checks (44_setup.md to 47_finish.md): the next state of each in full. -/

namespace Sys2Proof.Machine

open Sys2Proof Sys2Proof.Spec

/-- A command with one range, its input, whose phase and length pass and whose range is usable. -/
theorem pass_of_input {c : Command} {s : State} {p : Phase} (hc : c = .init ∨ c = .setiv ∨ c = .aad ∨ c = .verify)
    (hp : phaseTable c s.phase = some p) (hl : lengthError c s = none)
    (hu : usable s.cfg ⟨s.src.toNat, readLength c s, .read⟩) : verdict c s = .pass p := by
  rw [verdict_eq_pass_iff]
  obtain rfl | rfl | rfl | rfl := hc <;> exact ⟨hp, hl, List.forall_mem_singleton.mpr hu, rfl⟩

/-- `ENC` or `DEC` in its phases, within the ceiling, with usable ranges that are empty, identical or disjoint. -/
theorem verdict_data_eq_pass_iff (dir : Dir) (s : State) (p : Phase) :
    verdict dir.command s = .pass p ↔
      phaseTable dir.command s.phase = some p ∧
        s.ctx.dataLenBits.toNat + 8 * s.len.toNat ≤ s.cfg.dataMaxBits.toNat ∧
        (usable s.cfg ⟨s.src.toNat, s.len.toNat, .read⟩ ∧ usable s.cfg ⟨s.dst.toNat, s.len.toNat, .write⟩) ∧
        (s.len.toNat = 0 ∨ identicalOrDisjoint s) := by
  have hranges : commandRanges dir.command s = [inputRange s s.len.toNat, outputRange s s.len.toNat] := by
    cases dir <;> rfl
  have hoverlap : illegalOverlap dir.command s = partialOverlap s := by cases dir <;> rfl
  rw [verdict_eq_pass_iff, lengthError_data_eq_none_iff, hranges, List.forall_mem_cons, List.forall_mem_singleton,
    hoverlap, partialOverlap_eq_false]
  rfl

/-! ### Setup (44_setup.md) -/

/-- Settles O21. -/
theorem initLoadsKey : Obligations.InitLoadsKey := by
  intro s hlen husable
  have hpass : verdict .init s = .pass .keyed :=
    pass_of_input (.inl rfl) (phaseTable_init _) ((lengthError_init_eq_none_iff s).mpr hlen) husable
  exact exec_of_pass hpass

/-- The counter block of the IV at `SRC` holds its bytes, whatever the counter. -/
theorem holdsIv_counterBlock (s : State) (ctr : Word32) :
    holdsIv (counterBlock (fixedOfBytes (s.mem.readBytes s.src.toNat 12)) ctr) s := by
  intro i hi
  rw [counterBlock_fixedOfBytes_byte _ _ _ (Memory.readBytes_length ..) hi, Memory.readBytes_getD _ _ _ _ hi]

/-- Settles O22. -/
theorem setivStartsMessage : Obligations.SetivStartsMessage := by
  intro s hphase hlen husable
  have hpass : verdict .setiv s = .pass .aad :=
    pass_of_input (.inr (.inl rfl)) (phaseTable_setiv hphase) ((lengthError_setiv_eq_none_iff s).mpr hlen) husable
  have hnext (f : BitVec 96) : inc32 (counterBlock f 1) = counterBlock f 2 := by
    rw [inc32, fixedField_counterBlock, ctrField_counterBlock]
    rfl
  refine ⟨counterBlock (fixedOfBytes (s.mem.readBytes s.src.toNat 12)) 1,
    counterBlock (fixedOfBytes (s.mem.readBytes s.src.toNat 12)) 2, holdsIv_counterBlock s 1,
    ctrField_counterBlock _ 1, holdsIv_counterBlock s 2, ctrField_counterBlock _ 2, ?_⟩
  rw [← hnext]
  exact exec_of_pass hpass

/-! ### `AAD` (45_aad.md) -/

/-- Settles O23. -/
theorem aadAbsorbsBytes : Obligations.AadAbsorbsBytes := by
  intro s hphase hceiling husable
  have hpass : verdict .aad s = .pass .aad :=
    pass_of_input (.inr (.inr (.inl rfl))) (by rw [hphase]; rfl) ((lengthError_aad_eq_none_iff s).mpr hceiling) husable
  have hrun : exec .aad s = .next (aadBody .aad s) := exec_of_pass hpass
  rw [hrun, aadBody, aadContext_eq, inputBytes, Memory.readBytes_length, ← hphase]
  rfl

/-! ### `ENC` and `DEC` (46_data.md) -/

theorem commandBody_data (dir : Dir) : commandBody dir.command = dataBody dir := by
  cases dir <;> rfl

/-- Settles O24: `EKi` is what the command leaves, and agrees with the stream's while a block is open. -/
theorem dataCommandRunsStream : Obligations.DataCommandRunsStream := by
  intro dir s hphase hceiling hsrc hdst hoverlap
  have hpass : verdict dir.command s = .pass dir.phase :=
    (verdict_data_eq_pass_iff dir s dir.phase).mpr ⟨phaseTable_data hphase, hceiling, ⟨hsrc, hdst⟩, hoverlap⟩
  obtain ⟨hout, hy, hacc, heki⟩ := dataCompute_eq s.cfg dir (inputBytes s s.len.toNat) s.ctx
  refine ⟨(dataCompute s.cfg dir (inputBytes s s.len.toNat) s.ctx).eki, _, rfl, heki, ?_⟩
  have hx := congrArg Absorber.x hacc
  have hresidue := congrArg Absorber.residue hacc
  rw [exec_of_pass hpass, commandBody_data]
  simp only [DataResult.stream, streamStart, closeAad, inputBytes] at hout hy hx hresidue
  rw [← hout, ← hy, ← hx, ← hresidue]
  rfl

/-- On no input a data command closes a pending AAD block and computes nothing. -/
theorem dataCompute_nil (cfg : Config) (dir : Dir) (c : Context) :
    dataCompute cfg dir [] c = ⟨[], c.y, closeAad c, c.eki, c.dataResidue⟩ := by
  simp [dataCompute, headPartial, wholeBlocks, dispatchBlocks, blocks, tailPartial]

/-- Settles O31: an empty range is usable at every address. -/
theorem zeroLengthCommands : Obligations.ZeroLengthCommands := by
  intro s hzero
  have hlen : s.len.toNat = 0 := by rw [hzero]; rfl
  have hkeep (v : Word64) : BitVec.ofNat 64 (v.toNat + 8 * 0) = v := by
    rw [Nat.mul_zero, Nat.add_zero, BitVec.ofNat_toNat, BitVec.setWidth_eq]
  constructor
  · intro hphase hceiling
    rw [aadAbsorbsBytes s hphase (by omega) (.inl hlen), hlen, hkeep]
    rfl
  · intro dir hphase hceiling
    have hpass : verdict dir.command s = .pass dir.phase :=
      (verdict_data_eq_pass_iff dir s dir.phase).mpr
        ⟨phaseTable_data hphase, by omega, ⟨.inl hlen, .inl hlen⟩, .inl hlen⟩
    have hinput : inputBytes s 0 = [] := rfl
    rw [exec_of_pass hpass, commandBody_data, dataBody, hlen, hinput, dataCompute_nil, dataContext, hkeep]
    rfl

theorem toNat_ofNat_of_le {n : Nat} {v : Word64} (h : n ≤ v.toNat) : (BitVec.ofNat 64 n).toNat = n := by
  rw [BitVec.toNat_ofNat]
  exact Nat.mod_eq_of_lt (h.trans_lt v.isLt)

/-- Settles O32: the ceiling is below 2^64, so the sum within it does not wrap. -/
theorem lengthCountersNeverWrap : Obligations.LengthCountersNeverWrap := by
  intro s t
  constructor
  · intro hnext hok
    obtain ⟨p, hpass, rfl⟩ := pass_of_ok (c := .aad) hnext hok
    obtain ⟨-, hlength, -, -⟩ := (verdict_eq_pass_iff _ _ _).mp hpass
    have hceiling := (lengthError_aad_eq_none_iff s).mp hlength
    have hcount : (commandBody .aad p s).ctx.aadLenBits =
        BitVec.ofNat 64 (s.ctx.aadLenBits.toNat + 8 * s.len.toNat) := by
      rw [commandBody_eq, commandContext, aadContext_eq, commandInput_length]
      rfl
    rw [hcount, toNat_ofNat_of_le hceiling]
    exact ⟨rfl, hceiling⟩
  · intro dir hnext hok
    obtain ⟨p, hpass, rfl⟩ := pass_of_ok hnext hok
    obtain ⟨-, hceiling, -, -⟩ := (verdict_data_eq_pass_iff dir s p).mp hpass
    have hcount : (commandBody dir.command p s).ctx.dataLenBits =
        BitVec.ofNat 64 (s.ctx.dataLenBits.toNat + 8 * s.len.toNat) := by
      rw [commandBody_data]
      rfl
    rw [hcount, toNat_ofNat_of_le hceiling]
    exact ⟨rfl, hceiling⟩

/-! ### The fixed field (10_state.md R29) -/

theorem fixedField_streamBytes (dir : Dir) (k : RoundKeys) (hT : Block) (st : Stream) (d : List Byte) :
    fixedField (streamBytes dir k hT st d).2.y = fixedField st.y := by
  induction d generalizing st with
  | nil => rfl
  | cons b d ih =>
    rw [streamBytes_cons, ih, streamByte]
    split
    · exact fixedField_inc32 st.y
    · rfl

theorem fixedField_dataCompute (cfg : Config) (dir : Dir) (d : List Byte) (c : Context) :
    fixedField (dataCompute cfg dir d c).y = fixedField c.y := by
  obtain ⟨-, hy, -⟩ := dataCompute_eq cfg dir d c
  exact (congrArg fixedField hy).trans (fixedField_streamBytes ..)

/-- The body of every command but `SETIV` keeps the fixed field. -/
theorem fixedField_commandContext {c : Command} (hc : c ≠ .setiv) (cfg : Config) (d : List Byte) (x : Context) :
    fixedField (commandContext c cfg d x).y = fixedField x.y := by
  cases c with
  | setiv => exact absurd rfl hc
  | init | aad | finish | verify => rfl
  | enc | dec => exact fixedField_dataCompute cfg _ d x

/-- Settles O30: the body of `SETIV` writes the IV, and no other next state has another fixed field. -/
theorem fixedFieldKept : Obligations.FixedFieldKept := by
  intro i s t hnext
  cases hi : commandOfInstr i with
  | none =>
    obtain ⟨r, rfl⟩ := exec_request_next hi hnext
    refine ⟨?_, fun _ => rfl⟩
    rintro ⟨rfl, -⟩
    cases hi
  | some c =>
    obtain rfl := instr_of_commandOfInstr hi
    obtain ⟨e, hreject, rfl⟩ | ⟨p, -, rfl⟩ := exec_command_next hnext
    · exact ⟨fun h => absurd h.2 (verdict_reject hreject).2.1, fun _ => rfl⟩
    · by_cases hc : c = .setiv
      · obtain rfl := hc
        refine ⟨fun _ => ?_, fun h => absurd ⟨rfl, rfl⟩ h⟩
        have hy : (commandBody .setiv p s).ctx.y =
            inc32 (counterBlock (fixedOfBytes (s.mem.readBytes s.src.toNat 12)) 1) := rfl
        rw [hy, inc32, fixedField_counterBlock]
        exact holdsIv_counterBlock s _
      · refine ⟨fun h => ?_, fun _ => ?_⟩
        · obtain ⟨hinstr, -⟩ := h
          exact absurd (by cases c <;> cases hinstr; rfl) hc
        · rw [commandBody_eq]
          exact fixedField_commandContext hc _ _ _

/-! ### `VERIFY` (47_finish.md) -/

/-- Settles O34: the comparison is that of the tag's first `LEN` bytes. -/
theorem verifyComparesTag : Obligations.VerifyComparesTag := by
  intro s hsession hlow hhigh husable
  have hpass : verdict .verify s = .pass .done :=
    pass_of_input (.inr (.inr (.inr rfl))) (phaseTable_verify hsession)
      ((lengthError_verify_eq_none_iff s).mpr ⟨hlow, hhigh⟩) husable
  refine ⟨_, finalX s.ctx, rfl, finalX_eq s.ctx, ?_⟩
  have hinput : (inputBytes s s.len.toNat).length = s.len.toNat := Memory.readBytes_length ..
  have hcompare : tagDiff (tagOf s.ctx) (inputBytes s s.len.toNat) = 0 ↔
      (bytesOfBlock (finalX s.ctx ^^^ s.ctx.ek0)).take s.len.toNat = s.mem.readBytes s.src.toNat s.len.toNat := by
    rw [tagDiff_eq_zero_iff _ _ (by omega), hinput]
    rfl
  have hrun : exec .verify s = .next (verifyBody .done s) := exec_of_pass hpass
  rw [hrun, verifyBody, verifyReport]
  congr 1
  split
  case isTrue hzero => rw [if_pos (hcompare.mp hzero)]; rfl
  case isFalse hdiff => rw [if_neg (mt hcompare.mpr hdiff)]; rfl

end Sys2Proof.Machine
end

section
/-! The laws of the product in GF(2^128) (41_ghash.md R152). The product with `a` is a polynomial in the multiplication
by `x`, with the coefficients of `a`. Such maps are linear and commute with each other, and `a` is what the map of `a`
makes of the unit: the laws of the product follow from these three facts. -/

namespace Sys2Proof.Machine

open Sys2Proof

/-! ### The product with `a` as a linear map -/

theorem coeffMul_xor (b : Bool) (v w : Block) : coeffMul b (v ^^^ w) = coeffMul b v ^^^ coeffMul b w := by
  cases b <;> simp

theorem gmulLoop_xor_right (a : Block) (k : Nat) (v w : Block) :
    gmulLoop a k 0 (v ^^^ w) = gmulLoop a k 0 v ^^^ gmulLoop a k 0 w := by
  induction k with
  | zero => simp [gmulLoop]
  | succ k ih =>
    simp only [gmulLoop_succ_zero, ih, mulx_xor, coeffMul_xor]
    ac_rfl

theorem gmulLoop_xor_left (a c : Block) (k : Nat) (v : Block) :
    gmulLoop (a ^^^ c) k 0 v = gmulLoop a k 0 v ^^^ gmulLoop c k 0 v := by
  induction k with
  | zero => simp [gmulLoop]
  | succ k ih =>
    simp only [gmulLoop_succ_zero, ih, mulx_xor, BitVec.getLsbD_xor, coeffMul_bne]
    ac_rfl

theorem gmulLoop_zero_right (a : Block) (k : Nat) : gmulLoop a k 0 0 = 0 := by
  have h := gmulLoop_xor_right a k 0 0
  rwa [BitVec.xor_self, BitVec.xor_self] at h

theorem gmulLoop_coeffMul (a : Block) (k : Nat) (b : Bool) (v : Block) :
    gmulLoop a k 0 (coeffMul b v) = coeffMul b (gmulLoop a k 0 v) := by
  cases b with
  | false => exact gmulLoop_zero_right a k
  | true => rfl

theorem gmulLoop_zero_mulx (a : Block) (k : Nat) (v : Block) :
    gmulLoop a k 0 (mulx v) = mulx (gmulLoop a k 0 v) := by
  have h := gmulLoop_mulx a k 0#128 v
  rwa [mulx_zero] at h

/-- Two polynomials in the multiplication by `x` commute. -/
theorem gmulLoop_comm (a b : Block) (k m : Nat) (v : Block) :
    gmulLoop a k 0 (gmulLoop b m 0 v) = gmulLoop b m 0 (gmulLoop a k 0 v) := by
  induction k with
  | zero => exact (gmulLoop_zero_right b m).symm
  | succ k ih =>
    rw [gmulLoop_succ_zero, gmulLoop_succ_zero, gmulLoop_xor_right, gmulLoop_coeffMul, gmulLoop_zero_mulx, ih]

/-! ### The unit -/

/-- The block `80 00...00`, the polynomial 1 (41_ghash.md R152). -/
def ghashOne : Block := 0x80000000000000000000000000000000

theorem getLsbD_ghashOne (i : Nat) : ghashOne.getLsbD i = decide (i = 127) := by
  have hone : ghashOne = BitVec.twoPow 128 127 := by decide
  rw [hone, BitVec.getLsbD_twoPow]
  simp [eq_comm]

/-- The map of `a` takes the unit to `a`: after the last `k` coefficients they stand at the front. -/
theorem gmulLoop_ghashOne (a : Block) {k : Nat} (hk : k ≤ 128) : gmulLoop a k 0 ghashOne = a <<< (128 - k) := by
  induction k with
  | zero =>
    apply BitVec.eq_of_getLsbD_eq
    intro i hi
    simp [gmulLoop, hi]
  | succ k ih =>
    have hlow : (a <<< (128 - k)).getLsbD 0 = false := by
      rw [BitVec.getLsbD_shiftLeft, decide_eq_true (by omega : 0 < 128 - k)]
      simp
    rw [gmulLoop_succ_zero, ih (by omega), mulx_eq, hlow, coeffMul_false, BitVec.xor_zero]
    apply BitVec.eq_of_getLsbD_eq
    intro i hi
    rw [BitVec.getLsbD_xor, getLsbD_coeffMul, getLsbD_ghashOne, BitVec.getLsbD_ushiftRight, BitVec.getLsbD_shiftLeft,
      BitVec.getLsbD_shiftLeft]
    by_cases htop : i = 127
    · have hindex : 127 - (127 - k) = k := by omega
      simp [htop, hindex, show ¬ 127 < 127 - k by omega]
    · have hindex : 1 + i - (128 - k) = i - (128 - (k + 1)) := by omega
      have hfront : 1 + i < 128 - k ↔ i < 128 - (k + 1) := by omega
      simp [htop, hindex, hfront, hi, show 1 + i < 128 by omega]

theorem gmul_ghashOne (a : Block) : gmul a ghashOne = a := by
  rw [gmul, gmulLoop_ghashOne a (le_refl 128)]
  simp

/-! ### The laws -/

theorem gmul_xor_left (a b c : Block) : gmul (a ^^^ c) b = gmul a b ^^^ gmul c b := gmulLoop_xor_left a c 128 b

theorem gmul_left_comm (a b c : Block) : gmul a (gmul b c) = gmul b (gmul a c) := gmulLoop_comm a b 128 128 c

theorem gmul_comm (a b : Block) : gmul a b = gmul b a := by
  have h := gmul_left_comm a b ghashOne
  rwa [gmul_ghashOne, gmul_ghashOne] at h

theorem gmul_zero_left (b : Block) : gmul 0 b = 0 := by
  rw [gmul_comm]
  exact gmulLoop_zero_right b 128

theorem gmul_assoc (a b c : Block) : gmul (gmul a b) c = gmul a (gmul b c) := by
  rw [gmul_comm (gmul a b) c, gmul_left_comm, gmul_comm c b]

/-- Settles O41. -/
theorem ghashProductLaws : Obligations.GhashProductLaws := by
  intro a b c
  exact ⟨gmul_comm a b, gmul_xor_left a b c, gmul_zero_left b, (gmul_comm ghashOne b).trans (gmul_ghashOne b),
    gmul_assoc a b c⟩

end Sys2Proof.Machine
end

section
/-! One step (log 1): the ways an event is handled, each with the state it leaves. -/

namespace Sys2Proof.Machine

open Sys2Proof

/-- What handling an event can leave, from the state without the event. -/
inductive Handled (u : State) : State → Prop where
  | command {t : State} (i : Instr) (h : exec i u = .next t) : Handled u t
  | request {t : State} (i : Instr) (o : RequestOps) (h : exec i (u.withOps o) = .next t) : Handled u t
  | illegal : Handled u (u.raise .illegalCommand)
  | register (r : WindowReg) (v : Word32) : Handled u (writeReg r v u)
  | returned (v : Word32) : Handled u (u.withHostData v)
  | stored (a : Word64) (b : Byte) : Handled u (u.withMem (u.mem.write a.toNat b))
  | reset : Handled u u.applyReset

theorem handled_of_hostWrite {a : Nat} {w : AccessWidth} {v : Word32} {u t : State}
    (h : hostWrite a w v u = .next t) : Handled u t := by
  unfold hostWrite at h
  split at h
  case h_1 =>
    unfold submitCommand at h
    split at h
    · exact .command _ h
    · cases h
      exact .illegal
  case h_2 r _ _ =>
    cases h
    exact .register r v
  case h_3 => cases h

theorem handled_of_hostRead {a : Nat} {w : AccessWidth} {u t : State} (h : hostRead a w u = .next t) :
    Handled u t := by
  unfold hostRead at h
  split at h
  · cases h
    exact .returned _
  · cases h

theorem handled_of_handleEvent {e : HostEvent} {u t : State} (h : handleEvent e u = .next t) : Handled u t := by
  cases e with
  | windowWrite a w v => exact handled_of_hostWrite h
  | windowRead a w => exact handled_of_hostRead h
  | store a b =>
    cases h
    exact .stored a b
  | load a =>
    cases h
    exact .returned _
  | request c o =>
    simp only [handleEvent, submitRequest] at h
    split at h
    · exact .request _ o h
    · cases h
  | reset =>
    cases h
    exact .reset

/-- A step is idle, or takes the first event and handles it. -/
theorem step_next {s t : State} (h : step s = .next t) : t = s ∨ ∃ es, Handled (s.withPending es) t := by
  cases hpending : s.pending with
  | nil =>
    rw [idleHoldsState s hpending] at h
    cases h
    exact .inl rfl
  | cons e es =>
    rw [step_of_pending hpending] at h
    exact .inr ⟨es, handled_of_handleEvent h⟩

/-- Settles O55: no instruction writes the parameters, and no other event does. -/
theorem parametersFixed : Obligations.ParametersFixed := by
  intro s t hstep
  obtain rfl | ⟨es, hhandled⟩ := step_next hstep
  · rfl
  · cases hhandled with
    | command i h => rw [exec_frame h]; rfl
    | request i o h => rw [exec_frame h]; rfl
    | register r v => cases r <;> rfl
    | illegal | returned | stored | reset => rfl

end Sys2Proof.Machine
end

section
/-! The invariant of the machine (10_state.md R30, 43_sequencing.md R197): a session's registers as a place in the
session's keystream, and that every command keeps it. -/

namespace Sys2Proof.Machine

open Sys2Proof Sys2Proof.Spec

/-! ### A session's place in its keystream (46_data.md R242) -/

/-- The counter block of a session's first data block, whose counter value is 2 (44_setup.md R212). -/
def sessionStart (c : Context) : Block := counterBlock (fixedField c.y) 2

theorem advance_counterBlock (f : BitVec 96) (ctr : Word32) (n : Nat) :
    advance (counterBlock f ctr) n = counterBlock f (ctr + BitVec.ofNat 32 n) := by
  rw [advance, fixedField_counterBlock, ctrField_counterBlock]

theorem eq_counterBlock_iff (y : Block) (ctr : Word32) : y = counterBlock (fixedField y) ctr ↔ ctrField y = ctr := by
  constructor
  · intro h
    rw [h, ctrField_counterBlock]
  · rintro rfl
    exact (counterBlock_fields y).symm

theorem streamAt_of_agree {k : RoundKeys} {y : Block} {p : Nat} {a b : Stream} (h : a.agree b)
    (hb : StreamAt k y p b) : StreamAt k y p a := by
  obtain ⟨hy, hacc, heki⟩ := h
  obtain ⟨hresidue, hctr, hopen⟩ := hb
  refine ⟨by rw [hacc, hresidue], by rw [hy, hctr], fun hp => ?_⟩
  rw [heki (by rwa [hresidue, ne_eq, residue_eq_zero_iff]), hopen hp]

/-- The relations of 10_state.md R30 between the residue, the counter field and `EKi` say that the session stands at
byte `p` of its keystream, `p` the number of data bytes so far. -/
theorem streamAt_session_iff {c : Context} {p : Nat} (hp : c.dataLenBits.toNat = 8 * p) (x : Block) :
    StreamAt c.roundKeys (sessionStart c) p ⟨c.y, c.eki, ⟨x, c.dataResidue⟩⟩ ↔
      c.dataResidue.toNat = p % 16 ∧ (ctrField c.y).toNat = (2 + (c.dataLenBits.toNat + 127) / 128) % 2 ^ 32 ∧
        (c.dataResidue ≠ 0 →
          c.eki = encryptBlock c.roundKeys (counterBlock (fixedField c.y) (ctrField c.y - 1))) := by
  have hresidue : c.dataResidue = BitVec.ofNat 4 p ↔ c.dataResidue.toNat = p % 16 := by
    rw [← BitVec.toNat_inj, BitVec.toNat_ofNat]
  have hctr : c.y = advance (sessionStart c) ((p + 15) / 16) ↔
      (ctrField c.y).toNat = (2 + (c.dataLenBits.toNat + 127) / 128) % 2 ^ 32 := by
    rw [sessionStart, advance_counterBlock, eq_counterBlock_iff, ← BitVec.toNat_inj, BitVec.toNat_add,
      BitVec.toNat_ofNat, Nat.add_mod_mod, hp, show (8 * p + 127) / 128 = (p + 15) / 16 by omega]
    rfl
  rw [StreamAt, hresidue, hctr]
  refine and_congr_right fun hres => and_congr_right fun hfield => ?_
  have hzero : c.dataResidue = 0 ↔ p % 16 = 0 := by
    rw [hresidue.mpr hres]
    exact residue_eq_zero_iff p
  rw [ne_eq, ne_eq, hzero]
  refine imp_congr_right fun hopen => ?_
  have hlast : ctrField c.y - 1 = 2 + BitVec.ofNat 32 (p / 16) := by
    have hcount : (p + 15) / 16 = p / 16 + 1 := by omega
    rw [← hctr, sessionStart, advance_counterBlock, eq_counterBlock_iff, hcount, BitVec.ofNat_add,
      ← BitVec.add_assoc] at hfield
    rw [hfield]
    exact BitVec.add_sub_cancel _ _
  rw [sessionStart, advance_counterBlock, hlast]

/-- In a session that meets the invariant the registers stand at the byte that `dataLenBits` counts. -/
theorem session_streamAt {s : State} (hsession : s.phase.inSession = true) (h : SessionInv s) (x : Block) :
    StreamAt s.ctx.roundKeys (sessionStart s.ctx) (s.ctx.dataLenBits.toNat / 8)
      ⟨s.ctx.y, s.ctx.eki, ⟨x, s.ctx.dataResidue⟩⟩ := by
  obtain ⟨-, hdata8, -, -, -, hinAad, hinData, -, hctr, heki⟩ := h
  refine (streamAt_session_iff (by omega) x).mpr ⟨?_, hctr, heki⟩
  cases hphase : s.phase with
  | reset | keyed | done => rw [hphase] at hsession; cases hsession
  | aad =>
    obtain ⟨hlen, hres, -⟩ := hinAad hphase
    rw [hlen, hres]
    rfl
  | enc => exact (hinData (.inl hphase)).2
  | dec => exact (hinData (.inr hphase)).2

theorem sessionStart_of_fixedField {c d : Context} (h : fixedField c.y = fixedField d.y) :
    sessionStart c = sessionStart d := by
  rw [sessionStart, sessionStart, h]

/-- Settles O25: the session stands at its data byte `dataLenBits / 8`, and byte `j` goes under the `j`-th keystream
byte after it. -/
theorem sessionKeystreamClosedForm : Obligations.SessionKeystreamClosedForm := by
  intro dir s t j hinv hsession hnext hok hj
  obtain ⟨⟨hrising, -⟩, -, hinSession, -⟩ := hinv
  obtain ⟨p, -, rfl⟩ := pass_of_ok hnext hok
  have hplace := session_streamAt hsession (hinSession hsession) (closeAad s.ctx)
  have hlength : (inputBytes s s.len.toNat).length = s.len.toNat := Memory.readBytes_length ..
  have hout : (dataCompute s.cfg dir (inputBytes s s.len.toNat) s.ctx).out =
      (inputBytes s s.len.toNat).mapIdx fun i b =>
        b ^^^ keystreamByte s.ctx.roundKeys (sessionStart s.ctx) (s.ctx.dataLenBits.toNat / 8 + i) :=
    (dataCompute_eq ..).1.trans (streamBytes_at dir s.ctx.hTable hplace _).1
  have hbyte : (inputBytes s s.len.toNat).getD j 0 = s.mem.read (s.src.toNat + j) :=
    Memory.readBytes_getD _ _ _ _ hj
  rw [List.getD_eq_getElem _ _ (by omega)] at hbyte
  have hmem : (commandBody dir.command p s).mem =
      s.mem.writeBytes s.dst.toNat (dataCompute s.cfg dir (inputBytes s s.len.toNat) s.ctx).out := by
    rw [commandBody_data]
    rfl
  rw [hmem, Memory.read_writeBytes _ _ _ _ hrising, dataCompute_out_length, hlength, if_pos (by omega),
    Nat.add_sub_cancel_left, hout, List.getD_eq_getElem _ _ (by rw [List.length_mapIdx]; omega), List.getElem_mapIdx,
    hbyte, keystreamByte, sessionStart, fixedField_counterBlock, ctrField_counterBlock, BitVec.ofNat_add]
  rfl

/-! ### What a command keeps of the key (43_sequencing.md R197 b) -/

theorem wf_expandKey (key : List Byte) : (expandKey key).wf = true := by
  simp [RoundKeys.wf, expandKey]

/-- `INIT` writes the key's registers so that they agree, and the other commands keep them. -/
theorem keyInv_commandContext {c : Command} {s : State} {p : Phase} (hp : phaseTable c s.phase = some p)
    (h : s.phase ≠ .reset → KeyInv s.ctx) (cfg : Config) (d : List Byte) :
    KeyInv (commandContext c cfg d s.ctx) := by
  have hloaded (hc : c ≠ .init) : s.phase ≠ .reset := by
    rintro hreset
    rw [hreset] at hp
    cases c with
    | init => exact hc rfl
    | setiv | aad | enc | dec | finish | verify => cases hp
  cases c with
  | init => exact ⟨wf_expandKey d, rfl⟩
  | setiv | aad | enc | dec | finish | verify => exact h (hloaded (by decide))

/-! ### What a command keeps of a session -/

theorem absorb_residue (hT : Block) (a : Absorber) (s : List Byte) :
    (absorb hT a s).residue = a.residue + BitVec.ofNat 4 s.length := by
  induction s generalizing a with
  | nil => exact (BitVec.add_zero _).symm
  | cons b s ih =>
    rw [absorb_cons, ih, List.length_cons, Nat.add_comm s.length, BitVec.ofNat_add, ← BitVec.add_assoc]
    rfl

/-- `SETIV` opens a session in which nothing has been absorbed and nothing is open. -/
theorem sessionInv_setiv (s : State) (d : List Byte) (cfg : Config) :
    SessionInv { s with phase := .aad, ctx := commandContext .setiv cfg d s.ctx } := by
  have hfixed : fixedField (inc32 (counterBlock (fixedOfBytes d) 1)) = fixedOfBytes d := by
    rw [fixedField_inc32, fixedField_counterBlock]
  have hctr : ctrField (inc32 (counterBlock (fixedOfBytes d) 1)) = 2 := by
    rw [ctrField_inc32, ctrField_counterBlock]
    rfl
  refine ⟨rfl, rfl, Nat.zero_le _, Nat.zero_le _, ?_, fun _ => ⟨rfl, rfl, ?_⟩, fun h => ?_, .inl rfl, ?_,
    fun h => absurd rfl h⟩
  · simp only [commandContext, setivContext, hfixed]
  · simp [commandContext, setivContext]
  · obtain h | h := h <;> cases h
  · simp only [commandContext, setivContext, hctr]
    rfl

/-- `AAD` counts its bytes, and its residue is theirs modulo 16. -/
theorem sessionInv_aad {s : State} (hphase : s.phase = .aad) (h : SessionInv s) (d : List Byte)
    (hceiling : s.ctx.aadLenBits.toNat + 8 * d.length ≤ s.cfg.aadMaxBits.toNat) :
    SessionInv { s with phase := .aad, ctx := aadContext d s.ctx } := by
  obtain ⟨haad8, hdata8, -, hdataMax, hek0, hinAad, -, -, hctr, heki⟩ := h
  obtain ⟨hnoData, hnoOpen, hresidue⟩ := hinAad hphase
  have hcount := toNat_ofNat_of_le hceiling
  rw [aadContext_eq]
  refine ⟨by rw [hcount]; omega, hdata8, by rw [hcount]; exact hceiling, hdataMax, hek0,
    fun _ => ⟨hnoData, hnoOpen, ?_⟩, fun h => ?_, .inr hnoOpen, hctr, heki⟩
  · rw [hcount, absorb_residue, BitVec.toNat_add, BitVec.toNat_ofNat, hresidue]
    omega
  · obtain h | h := h <;> cases h

/-- `ENC` and `DEC` take the session on by their bytes. -/
theorem sessionInv_data {s : State} (dir : Dir) (hsession : s.phase.inSession = true) (h : SessionInv s)
    (d : List Byte) (hceiling : s.ctx.dataLenBits.toNat + 8 * d.length ≤ s.cfg.dataMaxBits.toNat) :
    SessionInv { s with phase := dir.phase, ctx := dataContext d.length (dataCompute s.cfg dir d s.ctx) s.ctx } := by
  have hplace := session_streamAt hsession h (closeAad s.ctx)
  obtain ⟨haad8, hdata8, haadMax, -, hek0, -, -, -, -, -⟩ := h
  have hfixed := fixedField_dataCompute s.cfg dir d s.ctx
  have hafter := streamAt_of_agree (dataCompute_eq s.cfg dir d s.ctx).2 (streamBytes_at dir s.ctx.hTable hplace d).2
  generalize dataCompute s.cfg dir d s.ctx = r at hfixed hafter ⊢
  have hcount : (dataContext d.length r s.ctx).dataLenBits.toNat = s.ctx.dataLenBits.toNat + 8 * d.length :=
    toNat_ofNat_of_le hceiling
  have hstart : sessionStart (dataContext d.length r s.ctx) = sessionStart s.ctx := sessionStart_of_fixedField hfixed
  rw [← hstart] at hafter
  obtain ⟨hres, hctr, heki⟩ :=
    (streamAt_session_iff (c := dataContext d.length r s.ctx) (by rw [hcount]; omega) r.x).mp hafter
  refine ⟨haad8, by rw [hcount]; omega, haadMax, by rw [hcount]; exact hceiling, ?_, fun hphase => ?_,
    fun _ => ⟨rfl, ?_⟩, .inl rfl, hctr, heki⟩
  · simp only [dataContext, hfixed]
    exact hek0
  · cases dir <;> cases hphase
  · rw [hres, hcount]
    omega

/-! ### The data memory -/

/-- The output range of a command whose checks pass is empty or lies in the address space (20_memory.md R64). -/
theorem output_fits {c : Command} {s : State} {p : Phase} (h : verdict c s = .pass p) :
    writeLength c s = 0 ∨ s.dst.toNat + writeLength c s ≤ 2 ^ 64 := by
  obtain ⟨-, -, hranges, -⟩ := (verdict_eq_pass_iff c s p).mp h
  by_cases hempty : writeLength c s = 0
  · exact .inl hempty
  · obtain hzero | ⟨hfits, -⟩ := hranges _ (mem_commandRanges (List.mem_pair.mpr (.inr rfl)) hempty)
    · exact .inl hzero
    · exact .inr hfits

theorem wf_commandBody_mem {c : Command} {s : State} {p : Phase} (h : verdict c s = .pass p) (hwf : s.mem.wf) :
    (commandBody c p s).mem.wf := by
  rw [commandBody_eq]
  refine Memory.writeBytes_wf _ _ _ ?_ hwf
  rw [← List.length_eq_zero_iff, commandOutput_length]
  exact output_fits h

/-! ### Every step -/

/-- The phase a command leaves, whatever the phase that admits it (43_sequencing.md R195). -/
def commandPhase : Command → Phase
  | .init => .keyed
  | .setiv | .aad => .aad
  | .enc => .enc
  | .dec => .dec
  | .finish | .verify => .done

theorem eq_commandPhase {c : Command} {p q : Phase} (h : phaseTable c p = some q) : q = commandPhase c := by
  cases c <;> cases p <;> cases h <;> rfl

/-- A command other than `INIT` and `SETIV` is admitted in a session alone (43_sequencing.md R195). -/
theorem inSession_of_phaseTable {c : Command} {p q : Phase} (h : phaseTable c p = some q) (hinit : c ≠ .init)
    (hsetiv : c ≠ .setiv) : p.inSession = true := by
  cases p with
  | aad | enc | dec => rfl
  | reset | keyed | done =>
    cases c with
    | init => exact absurd rfl hinit
    | setiv => exact absurd rfl hsetiv
    | aad | enc | dec | finish | verify => cases h

theorem eq_aad_of_phaseTable {p q : Phase} (h : phaseTable .aad p = some q) : p = .aad := by
  cases p with
  | aad => rfl
  | reset | keyed | enc | dec | done => cases h

theorem sessionInv_of_data_pass (dir : Dir) {s : State} {p : Phase} (hpass : verdict dir.command s = .pass p)
    (h : s.phase.inSession = true → SessionInv s) :
    SessionInv
      { s with
        phase := dir.phase,
        ctx := dataContext (commandInput dir.command s).length
          (dataCompute s.cfg dir (commandInput dir.command s) s.ctx) s.ctx } := by
  obtain ⟨hphase, hceiling, -, -⟩ := (verdict_data_eq_pass_iff dir s p).mp hpass
  have hsession : s.phase.inSession = true :=
    inSession_of_phaseTable hphase (by cases dir <;> decide) (by cases dir <;> decide)
  have hlength : (commandInput dir.command s).length = s.len.toNat := by
    rw [commandInput_length]
    cases dir <;> rfl
  exact sessionInv_data dir hsession (h hsession) _ (by rwa [hlength])

theorem sessionInv_commandBody {c : Command} {s : State} {p : Phase} (hpass : verdict c s = .pass p)
    (h : s.phase.inSession = true → SessionInv s) (hp : p.inSession = true) : SessionInv (commandBody c p s) := by
  obtain ⟨hphase, hlength, -, -⟩ := (verdict_eq_pass_iff c s p).mp hpass
  obtain rfl := eq_commandPhase hphase
  rw [commandBody_eq]
  cases c with
  | init | finish | verify => cases hp
  | setiv => exact sessionInv_setiv s (commandInput .setiv s) s.cfg
  | aad =>
    have haad := eq_aad_of_phaseTable hphase
    refine sessionInv_aad haad (h (by rw [haad]; rfl)) (commandInput .aad s) ?_
    rw [commandInput_length]
    exact (lengthError_aad_eq_none_iff s).mp hlength
  | enc => exact sessionInv_of_data_pass .enc hpass h
  | dec => exact sessionInv_of_data_pass .dec hpass h

theorem inv_commandBody {c : Command} {s : State} {p : Phase} (hpass : verdict c s = .pass p) (h : s.Inv) :
    (commandBody c p s).Inv := by
  obtain ⟨hwf, hkey, hsession, -⟩ := h
  obtain ⟨hphase, -, -, -⟩ := (verdict_eq_pass_iff c s p).mp hpass
  refine ⟨wf_commandBody_mem hpass hwf, fun _ => ?_, fun hin => ?_, fun hmatched => ?_⟩
  · rw [commandBody_eq]
    exact keyInv_commandContext hphase hkey _ _
  · rw [commandBody_phase] at hin
    exact sessionInv_commandBody hpass hsession hin
  · rw [commandBody_eq] at hmatched ⊢
    obtain ⟨rfl, hok⟩ := (commandMatched_iff _ _ _).mp hmatched
    exact ⟨eq_commandPhase hphase, hok⟩

/-- A report keeps the invariant: it clears `MATCH`. -/
theorem inv_raise {s : State} (e : ErrCode) (h : s.Inv) : (s.raise e).Inv := by
  obtain ⟨hwf, hkey, hsession, -⟩ := h
  exact ⟨hwf, hkey, hsession, fun hmatched => by cases hmatched⟩

theorem inv_exec {i : Instr} {s t : State} (hnext : exec i s = .next t) (h : s.Inv) : t.Inv := by
  cases hi : commandOfInstr i with
  | none =>
    obtain ⟨r, rfl⟩ := exec_request_next hi hnext
    exact h
  | some c =>
    obtain rfl := instr_of_commandOfInstr hi
    obtain ⟨e, -, rfl⟩ | ⟨p, hpass, rfl⟩ := exec_command_next hnext
    · exact inv_raise e h
    · exact inv_commandBody hpass h

/-- Settles O57: an instruction keeps the invariant, a host store keeps the memory's canonical form, a reset leaves
`P_RESET`, and the other events change no field that the invariant is about. -/
theorem invariantKept : Obligations.InvariantKept := by
  intro s t hinv hstep
  obtain rfl | ⟨es, hhandled⟩ := step_next hstep
  · exact hinv
  · have hinv' : (s.withPending es).Inv := hinv
    cases hhandled with
    | command i h => exact inv_exec h hinv'
    | request i o h => exact inv_exec (s := (s.withPending es).withOps o) h hinv'
    | illegal => exact inv_raise _ hinv'
    | register r v => cases r <;> exact hinv'
    | returned v => exact hinv'
    | stored a b =>
      obtain ⟨hwf, hkey, hsession, hmatched⟩ := hinv'
      exact ⟨Memory.write_wf _ _ _ a.isLt hwf, hkey, hsession, hmatched⟩
    | reset =>
      obtain ⟨hwf, -, -, -⟩ := hinv'
      exact ⟨hwf, fun h => absurd rfl h, fun h => (by cases h), fun h => (by cases h)⟩

end Sys2Proof.Machine
end

section
/-! No register is read before it is written (10_state.md R55): what a command leaves depends only on the registers that
are live in the phase that admits it. -/

namespace Sys2Proof.Machine

open Sys2Proof Sys2Proof.Spec

/-! ### Contexts that agree where they are live -/

theorem alike_withCtx_iff (s : State) (d : Context) : alike s (s.withCtx d) ↔ liveAgree s.phase s.ctx d :=
  ⟨fun h => h.2, fun h => ⟨rfl, h⟩⟩

/-- In a session two contexts that agree differ in `EKi` alone, and only where no block is open. -/
theorem eq_of_liveAgree {p : Phase} {c d : Context} (hp : p.inSession = true) (h : liveAgree p c d) :
    ∃ e, d = { c with eki := e } ∧ (c.dataResidue ≠ 0 → c.eki = e) := by
  obtain ⟨hkey, hmessage⟩ := h
  obtain ⟨hrk, hht⟩ := hkey (by rintro rfl; cases hp)
  obtain ⟨hy, hek0, hx, haad, hdata, hares, hdres, heki⟩ := hmessage hp
  obtain ⟨rk, ht, y, ek0, eki, x, aadLen, dataLen, aadRes, dataRes⟩ := d
  refine ⟨eki, ?_, heki⟩
  subst hrk hht hy hek0 hx haad hdata hares hdres
  rfl

/-- Two contexts that differ in `EKi` alone agree where a block of neither is open. -/
theorem liveAgree_withEki (p : Phase) (c : Context) {e : Block} (he : c.dataResidue ≠ 0 → c.eki = e) :
    liveAgree p c { c with eki := e } :=
  ⟨fun _ => ⟨rfl, rfl⟩, fun _ => ⟨rfl, rfl, rfl, rfl, rfl, rfl, rfl, he⟩⟩

/-! ### A command's body -/

/-- The starts of two data commands whose contexts differ in a dead `EKi` alone. -/
theorem streamStart_withEki {c : Context} {e : Block} (he : c.dataResidue ≠ 0 → c.eki = e) :
    (streamStart { c with eki := e }).agree (streamStart c) :=
  ⟨rfl, rfl, fun h => (he h).symm⟩

/-- Two data commands from one context that leave their streams in the same place leave contexts that agree. -/
theorem liveAgree_dataContext (p : Phase) (n : Nat) {r r' : DataResult} (c : Context) (h : r.stream.agree r'.stream) :
    liveAgree p (dataContext n r c) (dataContext n r' c) := by
  obtain ⟨hy, hacc, heki⟩ := h
  refine ⟨fun _ => ⟨rfl, rfl⟩, fun _ => ⟨hy, rfl, congrArg Absorber.x hacc, rfl, rfl, rfl,
    congrArg Absorber.residue hacc, fun hopen => heki ?_⟩⟩
  rw [← hacc]
  exact hopen

theorem dataCompute_withEki (cfg : Config) (dir : Dir) (d : List Byte) {c : Context} {e : Block}
    (he : c.dataResidue ≠ 0 → c.eki = e) :
    (dataCompute cfg dir d { c with eki := e }).out = (dataCompute cfg dir d c).out ∧
      liveAgree dir.phase (dataContext d.length (dataCompute cfg dir d c) c)
        (dataContext d.length (dataCompute cfg dir d { c with eki := e }) { c with eki := e }) := by
  obtain ⟨hout, hplace⟩ := dataCompute_eq cfg dir d c
  obtain ⟨hout', hplace'⟩ := dataCompute_eq cfg dir d { c with eki := e }
  obtain ⟨hsame, hsameplace⟩ := streamBytes_of_agree dir c.roundKeys c.hTable (streamStart_withEki he) d
  refine ⟨hout'.trans (hsame.trans hout.symm), liveAgree_dataContext dir.phase d.length c ?_⟩
  exact Stream.agree_trans hplace (Stream.agree_symm (Stream.agree_trans hplace' hsameplace))

theorem finalX_withEki (c : Context) (e : Block) : finalX { c with eki := e } = finalX c := rfl

theorem tagOf_withEki (c : Context) (e : Block) : tagOf { c with eki := e } = tagOf c := rfl

theorem liveAgree_final (p : Phase) {c : Context} {e : Block} (he : c.dataResidue ≠ 0 → c.eki = e) :
    liveAgree p { c with x := finalX c } { c with eki := e, x := finalX { c with eki := e } } :=
  ⟨fun _ => ⟨rfl, rfl⟩, fun _ => ⟨rfl, rfl, (finalX_withEki c e).symm, rfl, rfl, rfl, rfl, he⟩⟩

/-- From contexts that agree in the phase that admits it, a command's body reports the same, writes the same, and
leaves contexts that agree in the phase it leaves. -/
theorem commandContext_of_liveAgree {c : Command} {p q : Phase} (hp : phaseTable c p = some q) {x y : Context}
    (h : liveAgree p x y) (cfg : Config) (d : List Byte) :
    liveAgree q (commandContext c cfg d x) (commandContext c cfg d y) ∧
      commandOutput c cfg d y = commandOutput c cfg d x ∧
      commandErr c d y = commandErr c d x ∧ commandMatched c d y = commandMatched c d x := by
  have hsession := inSession_of_phaseTable hp
  obtain rfl := eq_commandPhase hp
  cases c with
  | init => exact ⟨⟨fun _ => ⟨rfl, rfl⟩, fun h => by cases h⟩, rfl, rfl, rfl⟩
  | setiv =>
    obtain ⟨hrk, hht⟩ := h.1 (by rintro rfl; cases hp)
    refine ⟨⟨fun _ => ⟨hrk, hht⟩, fun _ => ⟨rfl, ?_, rfl, rfl, rfl, rfl, rfl, fun h => absurd rfl h⟩⟩, rfl, rfl, rfl⟩
    simp only [commandContext, setivContext, hrk]
  | aad =>
    obtain ⟨e, rfl, he⟩ := eq_of_liveAgree (hsession (by decide) (by decide)) h
    exact ⟨liveAgree_withEki _ (aadContext d x) he, rfl, rfl, rfl⟩
  | enc =>
    obtain ⟨e, rfl, he⟩ := eq_of_liveAgree (hsession (by decide) (by decide)) h
    obtain ⟨hout, hlive⟩ := dataCompute_withEki cfg .enc d he
    exact ⟨hlive, hout, rfl, rfl⟩
  | dec =>
    obtain ⟨e, rfl, he⟩ := eq_of_liveAgree (hsession (by decide) (by decide)) h
    obtain ⟨hout, hlive⟩ := dataCompute_withEki cfg .dec d he
    exact ⟨hlive, hout, rfl, rfl⟩
  | finish =>
    obtain ⟨e, rfl, he⟩ := eq_of_liveAgree (hsession (by decide) (by decide)) h
    exact ⟨liveAgree_final _ he, congrArg bytesOfBlock (tagOf_withEki x e), rfl, rfl⟩
  | verify =>
    obtain ⟨e, rfl, he⟩ := eq_of_liveAgree (hsession (by decide) (by decide)) h
    refine ⟨liveAgree_final _ he, rfl, ?_, ?_⟩
    · exact congrArg (fun t => if tagDiff t d = 0 then ErrCode.ok else .authenticationFailure) (tagOf_withEki x e)
    · exact congrArg (fun t => decide (tagDiff t d = 0)) (tagOf_withEki x e)

/-! ### A command's checks -/

/-- The length checks read the length counters, in a session alone. -/
theorem lengthError_withCtx {c : Command} {s : State} {q : Phase} {d : Context} (hp : phaseTable c s.phase = some q)
    (h : liveAgree s.phase s.ctx d) : lengthError c (s.withCtx d) = lengthError c s := by
  have hsession := inSession_of_phaseTable hp
  cases c with
  | init | setiv | finish | verify => rfl
  | aad | enc | dec =>
    obtain ⟨e, rfl, -⟩ := eq_of_liveAgree (hsession (by decide) (by decide)) h
    rfl

theorem verdict_withCtx {c : Command} {s : State} {d : Context} (h : liveAgree s.phase s.ctx d) :
    verdict c (s.withCtx d) = verdict c s := by
  have haccess : accessDenied c (s.withCtx d) = accessDenied c s := by cases c <;> rfl
  have hwindow : touchesWindow c (s.withCtx d) = touchesWindow c s := by cases c <;> rfl
  rw [verdict, verdict, haccess, hwindow, State.withCtx_phase]
  cases hp : phaseTable c s.phase with
  | none => rfl
  | some q => rw [lengthError_withCtx hp h]

/-! ### An instruction -/

theorem alikeOutcome_command (c : Command) {s : State} {d : Context} (h : liveAgree s.phase s.ctx d) :
    alikeOutcome (exec c.instr s) (exec c.instr (s.withCtx d)) := by
  rw [exec_eq_outcome, exec_eq_outcome, verdict_withCtx h]
  cases hv : verdict c s with
  | reject e => exact (alike_withCtx_iff (s.raise e) d).mpr h
  | stop => rfl
  | pass p =>
    obtain ⟨hp, -, -, -⟩ := (verdict_eq_pass_iff c s p).mp hv
    obtain ⟨hlive, hout, herr, hmatched⟩ := commandContext_of_liveAgree hp h s.cfg (commandInput c s)
    have hinput : commandInput c (s.withCtx d) = commandInput c s := by cases c <;> rfl
    simp only [Verdict.outcome]
    rw [commandBody_eq, commandBody_eq, hinput, State.withCtx_ctx, State.withCtx_cfg, hout, herr, hmatched]
    exact ⟨rfl, hlive⟩

/-- A request that answers its results inside its domain does not look at the context. -/
theorem alikeOutcome_guarded {P : Prop} [Decidable P] {s : State} {d : Context} (r : RequestResults) (why : Refusal)
    (h : liveAgree s.phase s.ctx d) :
    alikeOutcome (if P then .next (s.withResults r) else .refused why)
      (if P then .next ((s.withCtx d).withResults r) else .refused why) := by
  split
  · exact (alike_withCtx_iff (s.withResults r) d).mpr h
  · rfl

theorem alikeOutcome_exec (i : Instr) {s : State} {d : Context} (h : liveAgree s.phase s.ctx d) :
    alikeOutcome (exec i s) (exec i (s.withCtx d)) := by
  cases i with
  | init => exact alikeOutcome_command .init h
  | setiv => exact alikeOutcome_command .setiv h
  | aad => exact alikeOutcome_command .aad h
  | enc => exact alikeOutcome_command .enc h
  | dec => exact alikeOutcome_command .dec h
  | finish => exact alikeOutcome_command .finish h
  | verify => exact alikeOutcome_command .verify h
  | aesEncrypt | ghashBuild | ghashMul => exact ⟨rfl, h⟩
  | aesExpand | ghashMulrange | ctrBlocks | bulkEnc | bulkDec => exact alikeOutcome_guarded _ _ h

/-! ### A step -/

theorem alikeOutcome_submitCommand (v : Word32) {s : State} {d : Context} (h : liveAgree s.phase s.ctx d) :
    alikeOutcome (submitCommand v s) (submitCommand v (s.withCtx d)) := by
  unfold submitCommand
  split
  · exact alikeOutcome_exec _ h
  · exact (alike_withCtx_iff (s.raise .illegalCommand) d).mpr h

theorem alikeOutcome_submitRequest (c : Byte) (o : RequestOps) {s : State} {d : Context}
    (h : liveAgree s.phase s.ctx d) : alikeOutcome (submitRequest c o s) (submitRequest c o (s.withCtx d)) := by
  unfold submitRequest
  split
  · exact alikeOutcome_exec _ (s := s.withOps o) h
  · rfl

theorem alikeOutcome_hostWrite (a : Nat) (w : AccessWidth) (v : Word32) {s : State} {d : Context}
    (h : liveAgree s.phase s.ctx d) : alikeOutcome (hostWrite a w v s) (hostWrite a w v (s.withCtx d)) := by
  unfold hostWrite
  rw [State.withCtx_cfg]
  split
  · exact alikeOutcome_submitCommand v h
  · next r _ _ => cases r <;> exact ⟨rfl, h⟩
  · rfl

theorem alikeOutcome_hostRead (a : Nat) (w : AccessWidth) {s : State} {d : Context}
    (h : liveAgree s.phase s.ctx d) : alikeOutcome (hostRead a w s) (hostRead a w (s.withCtx d)) := by
  unfold hostRead
  rw [State.withCtx_cfg]
  split
  · rw [readReg_withCtx]
    exact ⟨rfl, h⟩
  · rfl

theorem alikeOutcome_handleEvent (e : HostEvent) {s : State} {d : Context} (h : liveAgree s.phase s.ctx d) :
    alikeOutcome (handleEvent e s) (handleEvent e (s.withCtx d)) := by
  cases e with
  | windowWrite a w v => exact alikeOutcome_hostWrite a w v h
  | windowRead a w => exact alikeOutcome_hostRead a w h
  | store a b => exact ⟨rfl, h⟩
  | load a => exact ⟨rfl, h⟩
  | request c o => exact alikeOutcome_submitRequest c o h
  | reset => exact ⟨rfl, fun _ => ⟨rfl, rfl⟩, fun _ => ⟨rfl, rfl, rfl, rfl, rfl, rfl, rfl, fun _ => rfl⟩⟩

/-- Settles O58: the second state is the first with another context, and every event is handled alike. -/
theorem unwrittenRegistersUnobservable : Obligations.UnwrittenRegistersUnobservable := by
  intro s t halike
  obtain ⟨hctx, hlive⟩ := halike
  have ht : t = s.withCtx t.ctx := by
    rw [← hctx]
    rfl
  rw [ht]
  cases hpending : s.pending with
  | nil =>
    rw [idleHoldsState s hpending, idleHoldsState (s.withCtx t.ctx) hpending]
    exact (alike_withCtx_iff s t.ctx).mpr hlive
  | cons e es =>
    rw [step_of_pending hpending, step_of_pending (s := s.withCtx t.ctx) hpending]
    exact alikeOutcome_handleEvent e (s := s.withPending es) hlive

end Sys2Proof.Machine
end

section
/-! Data commands one after another (45_aad.md R222, 46_data.md R242, 47_finish.md R267): consecutive pieces are the
whole, and a receiver's `DEC` undoes a sender's `ENC`. -/

namespace Sys2Proof.Machine

open Sys2Proof Sys2Proof.Spec

/-! ### Agreement as an equivalence -/

theorem liveAgree_refl (p : Phase) (c : Context) : liveAgree p c c :=
  liveAgree_withEki p c fun _ => rfl

theorem liveAgree_trans {p : Phase} {a b c : Context} (h : liveAgree p a b) (h' : liveAgree p b c) :
    liveAgree p a c := by
  obtain ⟨hkey, hmessage⟩ := h
  obtain ⟨hkey', hmessage'⟩ := h'
  refine ⟨fun hp => ⟨(hkey hp).1.trans (hkey' hp).1, (hkey hp).2.trans (hkey' hp).2⟩, fun hp => ?_⟩
  obtain ⟨hy, hek0, hx, haad, hdata, hares, hdres, heki⟩ := hmessage hp
  obtain ⟨hy', hek0', hx', haad', hdata', hares', hdres', heki'⟩ := hmessage' hp
  exact ⟨hy.trans hy', hek0.trans hek0', hx.trans hx', haad.trans haad', hdata.trans hdata', hares.trans hares',
    hdres.trans hdres', fun hopen => (heki hopen).trans (heki' (by rwa [← hdres]))⟩

/-- Contexts that agree in a session have the same tag. -/
theorem tagOf_of_liveAgree {p : Phase} {c d : Context} (hp : p.inSession = true) (h : liveAgree p c d) :
    tagOf c = tagOf d := by
  obtain ⟨e, rfl, -⟩ := eq_of_liveAgree hp h
  exact (tagOf_withEki c e).symm

/-! ### The round trip of one data command -/

theorem Memory.readBytes_writeBytes_of_length {m : Memory} {n : Nat} (a : Nat) (s : List Byte)
    (h : m.Pairwise (fun p q => p.1 < q.1)) (hn : s.length = n) :
    Memory.readBytes (Memory.writeBytes m a s) a n = s := by
  rw [← hn]
  exact Memory.readBytes_writeBytes m a s h

/-- Decrypting what was encrypted, from a stream in the same place. -/
theorem dataCompute_dec_enc (cfg cfg' : Config) (d : List Byte) {c c' : Context} (hk : c'.roundKeys = c.roundKeys)
    (hT : c'.hTable = c.hTable) (hstart : (streamStart c').agree (streamStart c)) :
    (dataCompute cfg' .dec (dataCompute cfg .enc d c).out c').out = d ∧
      (dataCompute cfg' .dec (dataCompute cfg .enc d c).out c').stream.agree (dataCompute cfg .enc d c).stream := by
  obtain ⟨hout, hplace⟩ := dataCompute_eq cfg .enc d c
  obtain ⟨hout', hplace'⟩ := dataCompute_eq cfg' .dec (dataCompute cfg .enc d c).out c'
  obtain ⟨hsame, hsameplace⟩ := streamBytes_of_agree .dec c.roundKeys c.hTable hstart (dataCompute cfg .enc d c).out
  have hundo : streamBytes .dec c.roundKeys c.hTable (streamStart c) (dataCompute cfg .enc d c).out =
      (d, (streamBytes .enc c.roundKeys c.hTable (streamStart c) d).2) := by
    rw [hout, streamBytes_dec_enc]
  rw [hk, hT] at hout' hplace'
  rw [hundo] at hsame hsameplace
  exact ⟨hout'.trans hsame,
    Stream.agree_trans hplace' (Stream.agree_trans hsameplace (Stream.agree_symm hplace))⟩

/-- Settles O29: the receiver reads the ciphertext back from the memory the sender left, and its stream starts where
the sender's did. -/
theorem decryptUndoesEncrypt : Obligations.DecryptUndoesEncrypt := by
  intro s t u v hwf _ henc hok hu hdec hok'
  obtain ⟨p, -, rfl⟩ := pass_of_ok (c := .enc) henc hok
  obtain ⟨q, -, rfl⟩ := pass_of_ok (c := .dec) hdec hok'
  have hlength : (inputBytes s s.len.toNat).length = s.len.toNat := Memory.readBytes_length ..
  have houtlength := (dataCompute_out_length s.cfg .enc (inputBytes s s.len.toNat) s.ctx).trans hlength
  have hmem : u.mem = s.mem.writeBytes s.dst.toNat (dataCompute s.cfg .enc (inputBytes s s.len.toNat) s.ctx).out :=
    congrArg State.mem hu
  have hsrc : u.src = s.dst := by rw [hu]
  have hlen : u.len = s.len := by rw [hu]
  have hctx : u.ctx = s.ctx := by rw [hu]
  have hcfg : u.cfg = s.cfg := by rw [hu]
  have hinput : inputBytes u u.len.toNat = (dataCompute s.cfg .enc (inputBytes s s.len.toNat) s.ctx).out := by
    rw [inputBytes, hmem, hsrc, hlen]
    exact Memory.readBytes_writeBytes_of_length _ _ hwf.1 houtlength
  obtain ⟨hplain, hplace⟩ := dataCompute_dec_enc s.cfg s.cfg (inputBytes s s.len.toNat) (c := s.ctx) rfl rfl
    (Stream.agree_refl _)
  have hlive : liveAgree .enc (commandBody .dec q u).ctx (commandBody .enc p s).ctx := by
    have hv : (commandBody .dec q u).ctx =
        dataContext u.len.toNat (dataCompute u.cfg .dec (inputBytes u u.len.toNat) u.ctx) u.ctx := rfl
    rw [hv, hinput, hctx, hcfg, hlen]
    exact liveAgree_dataContext .enc s.len.toNat s.ctx hplace
  refine ⟨?_, hlive, tagOf_of_liveAgree rfl hlive⟩
  have hv : (commandBody .dec q u).mem =
      u.mem.writeBytes u.dst.toNat (dataCompute u.cfg .dec (inputBytes u u.len.toNat) u.ctx).out := rfl
  have hrising : u.mem.Pairwise (fun p q => p.1 < q.1) := by
    rw [hmem]
    exact Memory.writeBytes_rising _ _ _ hwf.1
  rw [hv, hinput, hctx, hcfg, hplain, hlen]
  exact Memory.readBytes_writeBytes_of_length _ _ hrising hlength

/-! ### Consecutive pieces -/

/-- The length counter counts two pieces as one. -/
theorem ofNat_count_add (v : Word64) (n m : Nat) :
    BitVec.ofNat 64 ((BitVec.ofNat 64 (v.toNat + 8 * n)).toNat + 8 * m) = BitVec.ofNat 64 (v.toNat + 8 * (n + m)) := by
  apply BitVec.eq_of_toNat_eq
  simp only [BitVec.toNat_ofNat]
  omega

/-- `AAD` on two pieces is `AAD` on both in one (45_aad.md R222). -/
theorem aadContext_append (d e : List Byte) (x : Context) :
    aadContext (d ++ e) x = aadContext e (aadContext d x) := by
  simp only [aadContext_eq, absorb_append, List.length_append, ofNat_count_add]

/-- `ENC` or `DEC` on two pieces is the same command on both in one (46_data.md R242): the second starts its stream
where the first has left it. -/
theorem dataCompute_append (cfg : Config) (dir : Dir) (d e : List Byte) (x : Context) :
    let r := dataCompute cfg dir d x
    let r' := dataCompute cfg dir e (dataContext d.length r x)
    (dataCompute cfg dir (d ++ e) x).out = r.out ++ r'.out ∧
      r'.stream.agree (dataCompute cfg dir (d ++ e) x).stream := by
  intro r r'
  obtain ⟨hout, hplace⟩ := dataCompute_eq cfg dir d x
  obtain ⟨hboth, hbothplace⟩ := dataCompute_eq cfg dir (d ++ e) x
  obtain ⟨hout', hplace'⟩ := dataCompute_eq cfg dir e (dataContext d.length r x)
  have hstart : streamStart (dataContext d.length r x) = r.stream := rfl
  obtain ⟨hsame, hsameplace⟩ := streamBytes_of_agree dir x.roundKeys x.hTable hplace e
  rw [streamBytes_append] at hboth hbothplace
  rw [hstart] at hout' hplace'
  refine ⟨?_, Stream.agree_trans hplace' (Stream.agree_trans hsameplace (Stream.agree_symm hbothplace))⟩
  rw [hboth, ← hout]
  exact congrArg (r.out ++ ·) (hsame.symm.trans hout'.symm)

/-- The commands that take their buffers in pieces. -/
def inPieces (c : Command) : Prop := c = .aad ∨ ∃ dir : Dir, c = dir.command

theorem commandContext_data (dir : Dir) (cfg : Config) (d : List Byte) (x : Context) :
    commandContext dir.command cfg d x = dataContext d.length (dataCompute cfg dir d x) x := by
  cases dir <;> rfl

theorem commandOutput_data (dir : Dir) (cfg : Config) (d : List Byte) (x : Context) :
    commandOutput dir.command cfg d x = (dataCompute cfg dir d x).out := by
  cases dir <;> rfl

/-- What a command leaves on two pieces, one after the other, is what it leaves on both in one. -/
theorem commandContext_append {c : Command} (hc : inPieces c) (p : Phase) (cfg : Config) (d e : List Byte)
    (x : Context) :
    liveAgree p (commandContext c cfg e (commandContext c cfg d x)) (commandContext c cfg (d ++ e) x) ∧
      commandOutput c cfg (d ++ e) x = commandOutput c cfg d x ++ commandOutput c cfg e (commandContext c cfg d x) := by
  obtain rfl | ⟨dir, rfl⟩ := hc
  · refine ⟨?_, rfl⟩
    simp only [commandContext, aadContext_append]
    exact liveAgree_refl p _
  · obtain ⟨hout, hplace⟩ := dataCompute_append cfg dir d e x
    simp only [commandContext_data, commandOutput_data]
    refine ⟨?_, hout⟩
    have hcount (r : DataResult) : dataContext e.length r (dataContext d.length (dataCompute cfg dir d x) x) =
        dataContext (d ++ e).length r x := by
      simp only [dataContext, ofNat_count_add, List.length_append]
    rw [hcount]
    exact liveAgree_dataContext p _ x hplace

theorem readLength_inPieces {c : Command} (hc : inPieces c) (s : State) : readLength c s = s.len.toNat := by
  obtain rfl | ⟨dir, rfl⟩ := hc
  · rfl
  · cases dir <;> rfl

/-- Buffers that may be cut: those of an accepted command (20_memory.md R64, R65). -/
def buffersFit (c : Command) (src dst : Word64) (n : Nat) : Prop :=
  n = 0 ∨ src.toNat + n ≤ 2 ^ 64 ∧
    (c = .aad ∨ dst.toNat + n ≤ 2 ^ 64 ∧
      (src = dst ∨ src.toNat + n ≤ dst.toNat ∨ dst.toNat + n ≤ src.toNat))

theorem buffersFit_of_pass {c : Command} {s : State} {p : Phase} (hc : inPieces c) (h : verdict c s = .pass p) :
    buffersFit c s.src s.dst s.len.toNat := by
  by_cases hzero : s.len.toNat = 0
  · exact .inl hzero
  refine .inr ?_
  obtain rfl | ⟨dir, rfl⟩ := hc
  · obtain ⟨-, -, hranges, -⟩ := (verdict_eq_pass_iff _ _ _).mp h
    obtain hempty | ⟨hfits, -⟩ := hranges _ (List.mem_singleton_self _)
    · exact absurd hempty hzero
    · exact ⟨hfits, .inl rfl⟩
  · obtain ⟨-, -, ⟨hsrc, hdst⟩, hoverlap⟩ := (verdict_data_eq_pass_iff dir s p).mp h
    have hfits {g : Range} (hg : usable s.cfg g) (hlen : g.len ≠ 0) : g.addr + g.len ≤ 2 ^ 64 := by
      obtain hempty | ⟨hfits, -⟩ := hg
      · exact absurd hempty hlen
      · exact hfits
    exact ⟨hfits hsrc hzero, .inr ⟨hfits hdst hzero, hoverlap.resolve_left hzero⟩⟩

theorem toNat_add_of_fits {a n : Word64} {m : Nat} (h : a.toNat + (n.toNat + m) ≤ 2 ^ 64) (hm : m ≠ 0) :
    (a + n).toNat = a.toNat + n.toNat := by
  rw [BitVec.toNat_add, Nat.mod_eq_of_lt (by omega)]

/-- The buffers of the pieces left are such buffers again. -/
theorem buffersFit_rest {c : Command} {src dst n : Word64} {m : Nat} (h : buffersFit c src dst (n.toNat + m)) :
    buffersFit c (src + n) (dst + n) m := by
  by_cases hm : m = 0
  · exact .inl hm
  obtain hzero | ⟨hsrc, hdst⟩ := h
  · omega
  have hsrc' := toNat_add_of_fits hsrc hm
  refine .inr ⟨by omega, ?_⟩
  obtain haad | ⟨hdst, hlayout⟩ := hdst
  · exact .inl haad
  · have hdst' := toNat_add_of_fits hdst hm
    refine .inr ⟨by omega, ?_⟩
    obtain rfl | hbefore | hafter := hlayout
    · exact .inl rfl
    · exact .inr (.inl (by omega))
    · exact .inr (.inr (by omega))

/-- The output of the first piece leaves the input of the pieces left as it was. -/
theorem readBytes_rest {c : Command} {src dst n : Word64} {m : Nat} {mem : Memory} (cfg : Config) {d : List Byte}
    (x : Context) (hc : inPieces c) (hfit : buffersFit c src dst (n.toNat + m))
    (hrising : mem.Pairwise (fun p q => p.1 < q.1)) (hd : d.length = n.toNat) :
    (mem.writeBytes dst.toNat (commandOutput c cfg d x)).readBytes (src + n).toNat m =
      mem.readBytes (src.toNat + n.toNat) m := by
  by_cases hm : m = 0
  · rw [hm]
    rfl
  obtain hzero | ⟨hsrc, hdst⟩ := hfit
  · omega
  rw [toNat_add_of_fits hsrc hm]
  obtain rfl | ⟨dir, rfl⟩ := hc
  · rfl
  · obtain hc | ⟨hdst, hlayout⟩ := hdst
    · cases dir <;> cases hc
    rw [commandOutput_data]
    have hlength := (dataCompute_out_length cfg dir d x).trans hd
    refine Memory.readBytes_writeBytes_of_disjoint _ _ _ _ _ hrising ?_
    rw [hlength]
    obtain rfl | hbefore | hafter := hlayout <;> omega

/-- The output of the pieces left stands after that of the first piece. -/
theorem writeBytes_rest {c : Command} {src dst n : Word64} {m : Nat} (mem : Memory) (cfg : Config) {d e : List Byte}
    (x y : Context) (hc : inPieces c) (hfit : buffersFit c src dst (n.toNat + m)) (hd : d.length = n.toNat)
    (he : e.length = m) :
    (mem.writeBytes dst.toNat (commandOutput c cfg d x)).writeBytes (dst + n).toNat (commandOutput c cfg e y) =
      mem.writeBytes dst.toNat (commandOutput c cfg d x ++ commandOutput c cfg e y) := by
  obtain rfl | ⟨dir, rfl⟩ := hc
  · rfl
  simp only [commandOutput_data]
  have hlength := (dataCompute_out_length cfg dir d x).trans hd
  have hlength' := (dataCompute_out_length cfg dir e y).trans he
  by_cases hm : m = 0
  · rw [List.length_eq_zero_iff.mp (hlength'.trans hm), List.append_nil]
    rfl
  obtain hzero | ⟨-, hc | ⟨hdst, -⟩⟩ := hfit
  · omega
  · cases dir <;> cases hc
  · rw [Memory.writeBytes_append, hlength, toNat_add_of_fits hdst hm]

theorem feed_cons {i : Instr} {n : Word64} {ns : List Word64} {s t : State} (h : feed i (n :: ns) s = some t) :
    ∃ u, exec i { s with len := n } = .next u ∧ u.err = .ok ∧
      feed i ns { u with src := u.src + n, dst := u.dst + n } = some t := by
  rw [feed] at h
  split at h
  case h_1 u hnext =>
    split at h
    case isTrue hok => exact ⟨u, hnext, hok, h⟩
    case isFalse => cases h
  case h_2 => cases h

/-- An accepted piece, as what it leaves. -/
theorem exec_piece {c : Command} {s u : State} {n : Word64} (hc : inPieces c)
    (h : exec c.instr { s with len := n } = .next u) (hok : u.err = .ok) :
    let d := s.mem.readBytes s.src.toNat n.toNat
    u.phase = commandPhase c ∧ u.src = s.src ∧ u.dst = s.dst ∧ u.cfg = s.cfg ∧ u.ctx = commandContext c s.cfg d s.ctx ∧
      u.mem = s.mem.writeBytes s.dst.toNat (commandOutput c s.cfg d s.ctx) := by
  obtain ⟨p, hpass, rfl⟩ := pass_of_ok h hok
  obtain ⟨hphase, -, -, -⟩ := (verdict_eq_pass_iff _ _ _).mp hpass
  have hinput : commandInput c { s with len := n } = s.mem.readBytes s.src.toNat n.toNat := by
    rw [commandInput, readLength_inPieces hc]
    rfl
  rw [commandBody_eq, hinput]
  exact ⟨eq_commandPhase hphase, rfl, rfl, rfl, rfl, rfl⟩

/-- Accepted pieces leave what the command's body makes of their bytes together. -/
theorem feed_eq {c : Command} (hc : inPieces c) {ns : List Word64} {s t : State} (hns : ns ≠ [])
    (hfit : buffersFit c s.src s.dst (ns.map BitVec.toNat).sum) (hrising : s.mem.Pairwise (fun p q => p.1 < q.1))
    (hfeed : feed c.instr ns s = some t) :
    let d := s.mem.readBytes s.src.toNat (ns.map BitVec.toNat).sum
    t.phase = commandPhase c ∧ t.mem = s.mem.writeBytes s.dst.toNat (commandOutput c s.cfg d s.ctx) ∧
      liveAgree (commandPhase c) t.ctx (commandContext c s.cfg d s.ctx) := by
  induction ns generalizing s with
  | nil => exact absurd rfl hns
  | cons n ns ih =>
    obtain ⟨u, hnext, hok, hrest⟩ := feed_cons hfeed
    obtain ⟨hphase, hsrc, hdst, hcfg, hctx, hmem⟩ := exec_piece hc hnext hok
    rw [List.map_cons, List.sum_cons] at hfit ⊢
    by_cases hlast : ns = []
    · obtain rfl := hlast
      cases hrest
      exact ⟨hphase, hmem, by rw [hctx]; exact liveAgree_refl _ _⟩
    · have hlength : (s.mem.readBytes s.src.toNat n.toNat).length = n.toNat := Memory.readBytes_length ..
      have hrising' : u.mem.Pairwise (fun p q => p.1 < q.1) := by
        rw [hmem]
        exact Memory.writeBytes_rising _ _ _ hrising
      obtain ⟨htphase, htmem, htctx⟩ := ih (s := { u with src := u.src + n, dst := u.dst + n }) hlast
        (by rw [hsrc, hdst]; exact buffersFit_rest hfit) hrising' hrest
      simp only [hsrc, hdst, hcfg, hctx, hmem, readBytes_rest s.cfg s.ctx hc hfit hrising hlength] at htmem htctx
      rw [writeBytes_rest s.mem s.cfg _ _ hc hfit hlength (Memory.readBytes_length ..)] at htmem
      rw [Memory.readBytes_add]
      obtain ⟨hboth, hout⟩ := commandContext_append hc (commandPhase c) s.cfg (s.mem.readBytes s.src.toNat n.toNat)
        (s.mem.readBytes (s.src.toNat + n.toNat) (ns.map BitVec.toNat).sum) s.ctx
      exact ⟨htphase, by rw [htmem, hout], liveAgree_trans htctx hboth⟩

/-- Settles O26. -/
theorem chunkingInvariance : Obligations.ChunkingInvariance := by
  intro c ns s t u hcommand hns hwf hsum hfeed hwhole hok
  have hc : inPieces c := by
    obtain rfl | rfl | rfl := hcommand
    · exact .inl rfl
    · exact .inr ⟨.enc, rfl⟩
    · exact .inr ⟨.dec, rfl⟩
  have hlen : (BitVec.ofNat 64 (ns.map BitVec.toNat).sum).toNat = (ns.map BitVec.toNat).sum := by
    rw [BitVec.toNat_ofNat, Nat.mod_eq_of_lt hsum]
  obtain ⟨p, hpass, -⟩ := pass_of_ok hwhole hok
  have hfit := buffersFit_of_pass hc hpass
  obtain ⟨hphase, -, -, -, hctx, hmem⟩ := exec_piece hc hwhole hok
  rw [hlen] at hfit hctx hmem
  obtain ⟨htphase, htmem, htctx⟩ := feed_eq (s := s) hc hns hfit hwf.1 hfeed
  rw [hphase, hctx, hmem]
  exact ⟨htmem, htphase, htctx⟩

end Sys2Proof.Machine
end

section
/-! A string with one byte changed, absorbed (47_finish.md R267): the accumulator is linear in what it held, so a
difference is multiplied by `H` once for each block that is completed after it. -/

namespace Sys2Proof.Machine

open Sys2Proof

/-- An accumulator with its last block closed, if one is open (46_data.md R233, 47_finish.md R260). -/
def closeBlock (hT : Block) (a : Absorber) : Block := if a.residue = 0 then a.x else ghashMul a.x hT

theorem xorByte_xor_left (x v : Block) (i : Nat) (c : Byte) : xorByte (x ^^^ v) i c = xorByte x i c ^^^ v := by
  simp only [xorByte]
  ac_rfl

/-- A byte with `e` exclusive-ored in is the byte, with `e` exclusive-ored into the accumulator at its place. -/
theorem absorbByte_xor (hT x : Block) (r : BitVec 4) (b e : Byte) :
    absorbByte hT ⟨x, r⟩ (b ^^^ e) = absorbByte hT ⟨x ^^^ (e.setWidth 128 <<< (8 * (15 - r.toNat))), r⟩ b := by
  have hplace : xorByte x r.toNat (b ^^^ e) = xorByte (x ^^^ (e.setWidth 128 <<< (8 * (15 - r.toNat)))) r.toNat b := by
    simp only [xorByte, BitVec.setWidth_xor, BitVec.shiftLeft_xor_distrib]
    ac_rfl
  simp only [absorbByte, hplace]

/-- A difference in the accumulator comes out multiplied once for each block completed. -/
theorem absorb_xor (hT x v : Block) (r : BitVec 4) (s : List Byte) :
    absorb hT ⟨x ^^^ v, r⟩ s =
      ⟨(absorb hT ⟨x, r⟩ s).x ^^^ (fun z => gmul z hT)^[(r.toNat + s.length) / 16] v,
        (absorb hT ⟨x, r⟩ s).residue⟩ := by
  induction s generalizing x v r with
  | nil =>
    have hcount : (r.toNat + ([] : List Byte).length) / 16 = 0 := by
      have := r.isLt
      rw [List.length_nil]
      omega
    rw [hcount]
    rfl
  | cons b s ih =>
    rw [absorb_cons, absorb_cons, List.length_cons]
    by_cases hlast : r = 15
    · have hcount : (r.toNat + (s.length + 1)) / 16 = ((r + 1).toNat + s.length) / 16 + 1 := by
        rw [hlast, show (15 + 1 : BitVec 4).toNat = 0 from rfl, show (15 : BitVec 4).toNat = 15 from rfl]
        omega
      simp only [absorbByte, hlast, if_true, xorByte_xor_left, ghashMul, gmul_xor_left]
      rw [ih, ← hlast, hcount, Function.iterate_succ_apply]
    · have hcount : (r.toNat + (s.length + 1)) / 16 = ((r + 1).toNat + s.length) / 16 := by
        have hlt := r.isLt
        have hne : r.toNat ≠ 15 := fun h => hlast (BitVec.eq_of_toNat_eq h)
        rw [BitVec.toNat_add, show (1 : BitVec 4).toNat = 1 from rfl, Nat.mod_eq_of_lt (by omega)]
        congr 1
        omega
      simp only [absorbByte, hlast, if_false, xorByte_xor_left]
      rw [ih, hcount]

/-- The same with the last block closed, which multiplies once more where one is open. -/
theorem closeBlock_absorb_xor (hT x v : Block) (r : BitVec 4) (s : List Byte) :
    closeBlock hT (absorb hT ⟨x ^^^ v, r⟩ s) =
      closeBlock hT (absorb hT ⟨x, r⟩ s) ^^^ (fun z => gmul z hT)^[(r.toNat + s.length + 15) / 16] v := by
  have hresidue : (absorb hT ⟨x, r⟩ s).residue.toNat = (r.toNat + s.length) % 16 := by
    rw [absorb_residue, BitVec.toNat_add, BitVec.toNat_ofNat, Nat.add_mod_mod]
  have hclosed : (absorb hT ⟨x, r⟩ s).residue = 0 ↔ (r.toNat + s.length) % 16 = 0 := by
    rw [← hresidue, ← BitVec.toNat_inj]
    rfl
  rw [absorb_xor, closeBlock, closeBlock]
  by_cases hzero : (r.toNat + s.length) % 16 = 0
  · have hcount : (r.toNat + s.length + 15) / 16 = (r.toNat + s.length) / 16 := by omega
    simp only [hclosed.mpr hzero, if_true, hcount]
  · have hcount : (r.toNat + s.length + 15) / 16 = (r.toNat + s.length) / 16 + 1 := by omega
    simp only [mt hclosed.mp hzero, if_false, hcount, Function.iterate_succ_apply', ghashMul, gmul_xor_left]

/-- A string absorbed from a block boundary on, its last block closed. -/
def absorbClose (hT x : Block) (s : List Byte) : Block := closeBlock hT (absorb hT ⟨x, 0⟩ s)

theorem absorbClose_xor (hT x v : Block) (s : List Byte) :
    absorbClose hT (x ^^^ v) s = absorbClose hT x s ^^^ (fun z => gmul z hT)^[blockCount s] v := by
  have h := closeBlock_absorb_xor hT x v 0 s
  rwa [show (0 : BitVec 4).toNat = 0 from rfl, Nat.zero_add] at h

/-- With `e` exclusive-ored into byte `j`, the difference is `e` at the byte's place in its block, multiplied once for
that block and once for each block after it. -/
theorem absorbClose_modify (hT x : Block) {s : List Byte} {j : Nat} (hj : j < s.length) (e : Byte) :
    absorbClose hT x (s.modify j fun b => b ^^^ e) =
      absorbClose hT x s ^^^
        (fun z => gmul z hT)^[blockCount s - j / 16] (e.setWidth 128 <<< (120 - 8 * (j % 16))) := by
  have hsplit : s = s.take j ++ s[j] :: s.drop (j + 1) := by
    rw [← List.drop_eq_getElem_cons hj, List.take_append_drop]
  have hmodify : s.modify j (fun b => b ^^^ e) = s.take j ++ (s[j] ^^^ e) :: s.drop (j + 1) := by
    rw [List.modify_eq_take_cons_drop hj]
  have hresidue : (absorb hT ⟨x, 0⟩ (s.take j)).residue.toNat = j % 16 := by
    rw [absorb_residue, List.length_take, Nat.min_eq_left hj.le, BitVec.toNat_add, BitVec.toNat_ofNat]
    simp
  have hcount : ((absorb hT ⟨x, 0⟩ (s.take j)).residue.toNat + (s[j] :: s.drop (j + 1)).length + 15) / 16 =
      blockCount s - j / 16 := by
    rw [hresidue, List.length_cons, List.length_drop, blockCount]
    omega
  have hshift : 120 - 8 * (j % 16) = 8 * (15 - (absorb hT ⟨x, 0⟩ (s.take j)).residue.toNat) := by
    rw [hresidue]
    omega
  have hleft : absorb hT ⟨x, 0⟩ (s.modify j fun b => b ^^^ e) =
      absorb hT ⟨(absorb hT ⟨x, 0⟩ (s.take j)).x ^^^ (e.setWidth 128 <<< (120 - 8 * (j % 16))),
        (absorb hT ⟨x, 0⟩ (s.take j)).residue⟩ (s[j] :: s.drop (j + 1)) := by
    rw [hmodify, absorb_append, absorb_cons, absorb_cons, hshift, ← absorbByte_xor]
  have hright : absorb hT ⟨x, 0⟩ s = absorb hT (absorb hT ⟨x, 0⟩ (s.take j)) (s[j] :: s.drop (j + 1)) := by
    rw [← absorb_append, ← hsplit]
  rw [absorbClose, absorbClose, hleft, closeBlock_absorb_xor, hcount, hright]

end Sys2Proof.Machine
end

section
/-! Whole messages (47_finish.md R267): the tag of a message as a function of its key, IV, AAD and ciphertext, the same
for a sender and a receiver. -/

namespace Sys2Proof.Machine

open Sys2Proof Sys2Proof.Spec

/-! ### The tag of a message (47_finish.md R260) -/

/-- The accumulator after AAD, ciphertext and length block. -/
def messageX (hT : Block) (aad cipher : List Byte) : Block :=
  ghashMul (absorbClose hT (absorbClose hT 0 aad) cipher ^^^
    (BitVec.ofNat 64 (8 * aad.length) ++ BitVec.ofNat 64 (8 * cipher.length))) hT

/-- The tag of a message. -/
def messageTag (key iv aad cipher : List Byte) : Block :=
  messageX (hashSubkey (expandKey key)) aad cipher ^^^
    encryptBlock (expandKey key) (counterBlock (fixedOfBytes iv) 1)

/-- The context in which `INIT`, `SETIV` and `AAD` leave the block for the data. -/
def openedContext (key iv aad : List Byte) (x : Context) : Context :=
  aadContext aad (setivContext iv (initContext key x))

theorem openedContext_eq (key iv aad : List Byte) (x : Context) :
    openedContext key iv aad x =
      { roundKeys := expandKey key, hTable := hashSubkey (expandKey key),
        y := inc32 (counterBlock (fixedOfBytes iv) 1),
        ek0 := encryptBlock (expandKey key) (counterBlock (fixedOfBytes iv) 1), eki := x.eki,
        x := (absorb (hashSubkey (expandKey key)) ⟨0, 0⟩ aad).x,
        aadLenBits := BitVec.ofNat 64 (8 * aad.length), dataLenBits := 0,
        aadResidue := (absorb (hashSubkey (expandKey key)) ⟨0, 0⟩ aad).residue, dataResidue := 0 } := by
  have hcount : BitVec.ofNat 64 ((0 : Word64).toNat + 8 * aad.length) = BitVec.ofNat 64 (8 * aad.length) := by
    rw [show (0 : Word64).toNat = 0 from rfl, Nat.zero_add]
  rw [openedContext, aadContext_eq, ← hcount]
  rfl

/-- The accumulator a data command leaves, in the terms of the ciphertext. -/
theorem dataCompute_acc (cfg : Config) (dir : Dir) (d : List Byte) (c : Context) :
    (⟨(dataCompute cfg dir d c).x, (dataCompute cfg dir d c).residue⟩ : Absorber) =
      absorb c.hTable ⟨closeAad c, c.dataResidue⟩ (cipherOf dir d (dataCompute cfg dir d c).out) := by
  obtain ⟨hout, -, hacc, -⟩ := dataCompute_eq cfg dir d c
  rw [hout]
  exact hacc.trans (streamBytes_acc dir c.roundKeys c.hTable (streamStart c) d)

theorem cipherOf_length (cfg : Config) (dir : Dir) (d : List Byte) (c : Context) :
    (cipherOf dir d (dataCompute cfg dir d c).out).length = d.length := by
  cases dir with
  | enc => exact dataCompute_out_length cfg .enc d c
  | dec => rfl

/-- After one data command the tag is that of the message of its ciphertext. -/
theorem tagOf_dataContext (cfg : Config) (dir : Dir) (key iv aad d : List Byte) (x : Context) :
    let c := openedContext key iv aad x
    tagOf (dataContext d.length (dataCompute cfg dir d c) c) =
      messageTag key iv aad (cipherOf dir d (dataCompute cfg dir d c).out) := by
  intro c
  have hc : c = openedContext key iv aad x := rfl
  rw [openedContext_eq] at hc
  have hlength := cipherOf_length cfg dir d c
  have hacc := dataCompute_acc cfg dir d c
  have hstart : (⟨closeAad c, c.dataResidue⟩ : Absorber) =
      ⟨absorbClose (hashSubkey (expandKey key)) 0 aad, 0⟩ := by
    rw [hc]
    rfl
  have hT : c.hTable = hashSubkey (expandKey key) := by rw [hc]
  have hek0 : c.ek0 = encryptBlock (expandKey key) (counterBlock (fixedOfBytes iv) 1) := by rw [hc]
  have haadLen : c.aadLenBits = BitVec.ofNat 64 (8 * aad.length) := by rw [hc]
  have hdataLen : c.dataLenBits = 0 := by rw [hc]
  rw [hstart, hT] at hacc
  generalize cipherOf dir d (dataCompute cfg dir d c).out = cipher at hacc hlength ⊢
  generalize dataCompute cfg dir d c = r at hacc ⊢
  have hclosed : (if r.residue = 0 then r.x else ghashMul r.x (hashSubkey (expandKey key))) =
      absorbClose (hashSubkey (expandKey key)) (absorbClose (hashSubkey (expandKey key)) 0 aad) cipher := by
    rw [absorbClose, ← hacc, closeBlock]
  have hcount : BitVec.ofNat 64 (c.dataLenBits.toNat + 8 * d.length) = BitVec.ofNat 64 (8 * cipher.length) := by
    rw [hdataLen, hlength, show (0 : Word64).toNat = 0 from rfl, Nat.zero_add]
  simp only [tagOf, finalX, dataContext, lengthBlock, ne_eq, not_true_eq_false, or_false, ite_not]
  rw [hT, hek0, haadLen, hcount, hclosed, messageTag, messageX]

/-! ### A command issued by the host -/

/-- What a command accepted on an input has left. -/
theorem eq_of_issued {c : Command} {input output : List Byte} {s t : State} (h : issued c input s t output) :
    t.phase = commandPhase c ∧ t.cfg = s.cfg ∧ t.ctx = commandContext c s.cfg input s.ctx ∧
      output = commandOutput c s.cfg input s.ctx := by
  obtain ⟨u, ⟨-, hctx, hcfg⟩, hwf, hinput, hnext, hok, houtput⟩ := h
  obtain ⟨p, hpass, rfl⟩ := pass_of_ok hnext hok
  obtain ⟨hphase, -, -, -⟩ := (verdict_eq_pass_iff _ _ _).mp hpass
  have hread : commandInput c u = input := hinput
  have hlength := commandOutput_length c u
  rw [commandBody_eq] at houtput ⊢
  rw [Memory.readBytes_writeBytes_of_length _ _ hwf.1 hlength] at houtput
  rw [hread, hctx, hcfg] at houtput ⊢
  exact ⟨eq_commandPhase hphase, rfl, rfl, houtput.symm⟩

theorem eq_of_opened {key iv aad : List Byte} {s t : State} (h : opened key iv aad s t) :
    t.cfg = s.cfg ∧ t.ctx = openedContext key iv aad s.ctx := by
  obtain ⟨a, b, hinit, hsetiv, haad⟩ := h
  obtain ⟨-, hcfg, hctx, -⟩ := eq_of_issued hinit
  obtain ⟨-, hcfg', hctx', -⟩ := eq_of_issued hsetiv
  obtain ⟨-, hcfg'', hctx'', -⟩ := eq_of_issued haad
  refine ⟨hcfg''.trans (hcfg'.trans hcfg), ?_⟩
  rw [hctx'', hctx', hctx]
  rfl

/-- A sender's ciphertext and tag. -/
theorem eq_of_sent {key iv aad plain cipher tag : List Byte} {s t : State}
    (h : sent key iv aad plain cipher tag s t) :
    cipher = (dataCompute s.cfg .enc plain (openedContext key iv aad s.ctx)).out ∧
      tag = bytesOfBlock (messageTag key iv aad cipher) := by
  obtain ⟨a, b, hopened, henc, hfinish⟩ := h
  obtain ⟨hcfg, hctx⟩ := eq_of_opened hopened
  obtain ⟨-, -, hctx', hcipher⟩ := eq_of_issued henc
  obtain ⟨-, -, -, htag⟩ := eq_of_issued hfinish
  rw [hcfg, hctx] at hcipher hctx'
  refine ⟨hcipher, ?_⟩
  rw [htag, hctx', hcipher]
  exact congrArg bytesOfBlock (tagOf_dataContext s.cfg .enc key iv aad plain s.ctx)

/-- A receiver's plaintext and context. -/
theorem eq_of_received {key iv aad cipher plain : List Byte} {s t : State}
    (h : received key iv aad cipher plain s t) :
    t.phase = .dec ∧ plain = (dataCompute s.cfg .dec cipher (openedContext key iv aad s.ctx)).out ∧
      tagOf t.ctx = messageTag key iv aad cipher := by
  obtain ⟨a, hopened, hdec⟩ := h
  obtain ⟨hcfg, hctx⟩ := eq_of_opened hopened
  obtain ⟨hphase, -, hctx', hplain⟩ := eq_of_issued hdec
  rw [hcfg, hctx] at hplain hctx'
  refine ⟨hphase, hplain, ?_⟩
  rw [hctx']
  exact tagOf_dataContext s.cfg .dec key iv aad cipher s.ctx

/-- The comparison of a `VERIFY` that passes its checks. -/
theorem exec_verify {s : State} (hsession : s.phase.inSession = true) (hlow : 1 ≤ s.len.toNat)
    (hhigh : s.len.toNat ≤ 16) (husable : usable s.cfg ⟨s.src.toNat, s.len.toNat, .read⟩) :
    ∃ v, exec .verify s = .next v ∧
      if s.mem.readBytes s.src.toNat s.len.toNat = (bytesOfBlock (tagOf s.ctx)).take s.len.toNat then
        v.err = .ok ∧ v.matched = true
      else v.err = .authenticationFailure ∧ v.matched = false := by
  obtain ⟨x1, x2, hx1, hx2, hnext⟩ := verifyComparesTag s hsession hlow hhigh husable
  have hx : x2 = finalX s.ctx := by rw [hx2, hx1, finalX_eq]
  rw [hx, ← tagOf] at hnext
  refine ⟨_, hnext, ?_⟩
  by_cases hmatch : (bytesOfBlock (tagOf s.ctx)).take s.len.toNat = s.mem.readBytes s.src.toNat s.len.toNat
  · rw [if_pos hmatch, if_pos hmatch.symm]
    exact ⟨rfl, rfl⟩
  · rw [if_neg hmatch, if_neg (Ne.symm hmatch)]
    exact ⟨rfl, rfl⟩

/-! ### Round trip and tamper detection (47_finish.md R267) -/

/-- Settles O59: the receiver's stream starts where the sender's did, and both tags are the message's. -/
theorem roundTripVerifies : Obligations.RoundTripVerifies := by
  intro key iv aad plain cipher tag plain' s t r d u hsent hreceived hhanded hlow hhigh husable
  obtain ⟨hcipher, htag⟩ := eq_of_sent hsent
  obtain ⟨hphase, hplain, htag'⟩ := eq_of_received hreceived
  obtain ⟨huphase, huctx, -⟩ := hhanded
  have hstart : (streamStart (openedContext key iv aad r.ctx)).agree
      (streamStart (openedContext key iv aad s.ctx)) := by
    rw [openedContext_eq, openedContext_eq]
    exact ⟨rfl, rfl, fun h => absurd rfl h⟩
  have hundo := dataCompute_dec_enc s.cfg r.cfg plain (c := openedContext key iv aad s.ctx)
    (c' := openedContext key iv aad r.ctx) (by rw [openedContext_eq, openedContext_eq])
    (by rw [openedContext_eq, openedContext_eq]) hstart
  rw [← hcipher] at hundo
  have hsession : u.phase.inSession = true := by rw [huphase, hphase]; rfl
  refine ⟨hplain.trans hundo.1, ?_⟩
  rw [htag, ← htag', ← huctx]
  exact exec_verify hsession hlow hhigh husable

/-- The tags of two messages that differ in one byte of the AAD or of the ciphertext differ by `e` at its place,
multiplied once for its own block, for each block after it and for the length block. -/
theorem messageX_tampered (hT : Block) {aad aad' cipher cipher' : List Byte} {j later : Nat} {e : Byte}
    (h : j < aad.length ∧ aad' = aad.modify j (fun b => b ^^^ e) ∧ cipher' = cipher ∧
        later = blockCount aad - j / 16 + blockCount cipher ∨
      j < cipher.length ∧ aad' = aad ∧ cipher' = cipher.modify j (fun b => b ^^^ e) ∧
        later = blockCount cipher - j / 16) :
    messageX hT aad' cipher' =
      messageX hT aad cipher ^^^
        (fun x => gmul x hT)^[later + 1] (e.setWidth 128 <<< (120 - 8 * (j % 16))) := by
  have hclosed : absorbClose hT (absorbClose hT 0 aad') cipher' =
      absorbClose hT (absorbClose hT 0 aad) cipher ^^^
        (fun x => gmul x hT)^[later] (e.setWidth 128 <<< (120 - 8 * (j % 16))) := by
    obtain ⟨hj, rfl, rfl, rfl⟩ | ⟨hj, rfl, rfl, rfl⟩ := h
    · rw [absorbClose_modify hT 0 hj e, absorbClose_xor, ← Function.iterate_add_apply,
        Nat.add_comm (blockCount _)]
    · exact absorbClose_modify hT _ hj e
  have haad : aad'.length = aad.length := by
    obtain ⟨-, rfl, -, -⟩ | ⟨-, rfl, -, -⟩ := h
    · exact List.length_modify ..
    · rfl
  have hcipher : cipher'.length = cipher.length := by
    obtain ⟨-, -, rfl, -⟩ | ⟨-, -, rfl, -⟩ := h
    · rfl
    · exact List.length_modify ..
  rw [messageX, messageX, hclosed, haad, hcipher, Function.iterate_succ_apply', ghashMul, ghashMul, ← gmul_xor_left]
  congr 1
  ac_rfl

theorem bytesOfBlock_inj {a b : Block} : bytesOfBlock a = bytesOfBlock b ↔ a = b :=
  ⟨fun h => by rw [← blockOfBytes_bytesOfBlock a, h, blockOfBytes_bytesOfBlock], congrArg bytesOfBlock⟩

/-- Settles O60: the two tags are equal when their difference is 0. -/
theorem tamperedByteShowsUnlessAnnihilated : Obligations.TamperedByteShowsUnlessAnnihilated := by
  intro key iv aad aad' plain cipher cipher' tag plain' s t r d u j later e hsent hreceived hhanded htampered hlen
    husable hread
  obtain ⟨-, htag⟩ := eq_of_sent hsent
  obtain ⟨hphase, -, htag'⟩ := eq_of_received hreceived
  obtain ⟨huphase, huctx, -⟩ := hhanded
  have hsession : u.phase.inSession = true := by rw [huphase, hphase]; rfl
  have hlength : u.len.toNat = 16 := by rw [hlen]; rfl
  obtain ⟨v, hnext, hreport⟩ := exec_verify hsession (by omega) (by omega) (by rwa [hlength])
  refine ⟨v, hnext, ?_⟩
  have hmatched : v.matched = true ↔ messageTag key iv aad' cipher' = messageTag key iv aad cipher := by
    rw [hlength, hread, htag, List.take_of_length_le (bytesOfBlock_length _).le, huctx, htag'] at hreport
    split at hreport
    case isTrue h => simp [hreport.2, bytesOfBlock_inj.mp h]
    case isFalse h => simp [hreport.2, Ne.symm (mt bytesOfBlock_inj.mpr h)]
  rw [hmatched, messageTag, messageTag, messageX_tampered _ htampered, hashSubkey]
  simp

end Sys2Proof.Machine
end
